-- ==== Sys2Proof/Word.lean ====
section
/-! DEFINITION. The two word types of the block: the byte (00_scope.md R21), which is the width of every
payload, frame and register byte, and the 16-bit command word (30_encoding.md R78). No value is signed (R21, R26). -/

namespace Sys2Proof

/-- A byte: an 8-bit unsigned value (R21). -/
abbrev Byte := BitVec 8

/-- A command word (R78). -/
abbrev Word := BitVec 16

/-- The byte that holds a length. LENGTH is one byte (R9), so a length of at most 255 is held exactly. -/
def lengthByte (n : Nat) : Byte := BitVec.ofNat 8 n

/-- `lengthByte` is read back exactly for every length a one-byte LENGTH field can state (R9). -/
theorem lengthByte_toNat {n : Nat} (h : n ≤ 255) : (lengthByte n).toNat = n := by
  simp [lengthByte]; omega

end Sys2Proof
end

