-- ==== Sys2Proof/Config.lean ====
section
/-! DEFINITION. The implementation parameters of 00_scope.md section 3 (R7 to R16, R18, R20) and the two parameters of
the environment that 93_implementation_defined.md names (`CHAN_DEPTH`, `T0`). The configuration is constant over a
run (R19). The model holds it in `State.params`, so a claim about every state is a claim about every configuration. -/

namespace Sys2Proof

/-- `RX_POLICY` (R14): how many bytes one RX_STEP takes from `FWD`. -/
inductive RxPolicy where
  | one | all
  deriving DecidableEq, Repr

/-- `DEC_TERMINAL_POLICY` (R15): what a decoder does with a byte pushed in DONE or ERROR. -/
inductive DecTerminalPolicy where
  | discard | autoReset
  deriving DecidableEq, Repr

/-- `TICK_BITS` (R16): `UNBOUNDED`, or a positive number of bits. -/
inductive TickBits where
  | unbounded
  | finite (bits : Nat) (positive : 0 < bits)
  deriving DecidableEq, Repr

/-- The configuration record `cfg` of one unit (R7 to R16). No field has a default (00_scope.md section 3). -/
structure UnitConfig where
  /-- `START_BYTE` (R7). -/
  startByte : Byte
  /-- `END_BYTE` (R8). -/
  endByte : Byte
  /-- `MAX_LEN` (R9); the check `MAX_LEN <= 255` is R17's, in WellFormed.lean. -/
  maxLen : Nat
  /-- `TIMEOUT_TICKS` (R10). -/
  timeoutTicks : Nat
  /-- `MAX_ATTEMPTS` (R11); the check `MAX_ATTEMPTS >= 1` is R17's. -/
  maxAttempts : Nat
  /-- `ACK_BYTE` (R12). -/
  ackByte : Byte
  /-- `NACK_ENABLE` (R13). -/
  nackEnable : Bool
  /-- `NACK_BYTE` (R13). -/
  nackByte : Byte
  /-- `RX_POLICY` (R14). -/
  rxPolicy : RxPolicy
  /-- `DEC_TERMINAL_POLICY` (R15). -/
  decTerminalPolicy : DecTerminalPolicy
  /-- `TICK_BITS` (R16). -/
  tickBits : TickBits
  deriving DecidableEq, Repr

/-- The reference configuration `REF` (R20). It is not a default of the hardware. -/
def UnitConfig.ref : UnitConfig where
  startByte := 0x02
  endByte := 0x03
  maxLen := 16
  timeoutTicks := 100
  maxAttempts := 3
  ackByte := 0x06
  nackEnable := false
  nackByte := 0x15
  rxPolicy := .all
  decTerminalPolicy := .discard
  tickBits := .unbounded

/-- All parameters of one block and its environment: one configuration record per unit (R18), the capacity
`CHAN_DEPTH` of a bounded channel realization (R64: `none` is the unbounded channel), and the harness's start tick
`T0` (R135). -/
structure Params where
  /-- `cfg_codec`: ENCODE, DEC_PUSH, DEC_RESET, CSUM_* (R18). -/
  cfgCodec : UnitConfig
  /-- `cfg_rx`: the receiver unit (R18). -/
  cfgRx : UnitConfig
  /-- `cfg_tx`: the transmitter unit (R18). -/
  cfgTx : UnitConfig
  /-- `CHAN_DEPTH` of a bounded realization (R64); `none`: both channels unbounded. -/
  chanDepth : Option Nat
  /-- `T0`, the start value of the harness clock (R135). -/
  t0 : Nat
  deriving DecidableEq, Repr

/-- The parameters of the test vectors of 95_test_vectors.md: `REF` in all three units, unbounded channels, `T0 = 0`.
DESIGN CHOICE (log entry 1): the parameters that `State.reset` names, since the spec gives the configuration no
reset value (R53). -/
def Params.ref : Params where
  cfgCodec := UnitConfig.ref
  cfgRx := UnitConfig.ref
  cfgTx := UnitConfig.ref
  chanDepth := none
  t0 := 0

end Sys2Proof
end

