-- ==== Sys2Proof/Syntax.lean ====
section
/-! DEFINITION. The commands of the block, one constructor per row of spec/opcode_table.json (30_encoding.md R80), the
operands that stand on ports and not in the command word (R78), the pseudo-commands (R92) and the textual form
(R91). -/

namespace Sys2Proof

/-- The 13 commands (R80). `csumAcc` and `decPush` carry the byte operand `imm8`, used unchanged (R79). -/
inductive Instr where
  /-- NOP (45_system.md R134). -/
  | nop
  /-- CSUM_CLEAR (40_checksum.md R98). -/
  | csumClear
  /-- CSUM_ACC b (40_checksum.md R99). -/
  | csumAcc (b : Byte)
  /-- ENCODE P, P on the payload port (41_encode.md R101). -/
  | encode
  /-- DEC_PUSH b (42_decode.md R112). -/
  | decPush (b : Byte)
  /-- DEC_RESET (42_decode.md R113). -/
  | decReset
  /-- RX_STEP (43_receiver.md R121). -/
  | rxStep
  /-- RX_RESET (43_receiver.md R122). -/
  | rxReset
  /-- TX_REQUEST_SEND P, P on the payload port (44_transmitter.md R128). -/
  | txRequestSend
  /-- TX_STEP @now, now on the tick port (44_transmitter.md R129). -/
  | txStep
  /-- TX_RESET (44_transmitter.md R130). -/
  | txReset
  /-- SYS_RESET (45_system.md R135). -/
  | sysReset
  /-- SYS_TICK with the harness inputs (45_system.md R136). -/
  | sysTick
  deriving DecidableEq, Repr

/-- What the environment does with one byte pushed into a channel (20_memory.md R65): deliver it unchanged, drop it,
or replace it. It never reorders, duplicates or inserts. -/
inductive Draw where
  | deliver
  | drop
  | replace (b : Byte)
  deriving DecidableEq, Repr

/-- The values that stand on the block's input ports while a command is issued (R78), and the environment's draws for
the bytes that command pushes (R65). The i-th byte pushed into a channel takes the i-th draw. A byte beyond the end
of the list is delivered unchanged (R136: "unperturbed by default in the textual form"). -/
structure Ports where
  /-- The payload port (R58), read by ENCODE and TX_REQUEST_SEND; any length. -/
  payload : List Byte
  /-- The tick port (R145), read by TX_STEP. -/
  tick : Nat
  /-- The harness input `req` of SYS_TICK (R136). -/
  req : Option (List Byte)
  /-- The draws for the bytes pushed into `FWD` (R65, R136). -/
  fwdDraws : List Draw
  /-- The draws for the bytes pushed into `RET` (R65, R136). -/
  retDraws : List Draw
  deriving DecidableEq, Repr

/-- Ports with nothing on them: the empty payload, tick 0, no request, no perturbation. -/
def Ports.idle : Ports where
  payload := []
  tick := 0
  req := none
  fwdDraws := []
  retDraws := []

/-- One command as the environment issues it: a command word with what stands on the ports (R3, R78). -/
structure Issue where
  word : Word
  ports : Ports
  deriving DecidableEq, Repr

/-! ## Pseudo-commands (R92) -/

/-- `TX_ABORT` is `TX_RESET` (R92, R130). -/
def Instr.txAbort : Instr := .txReset

/-- `DEC_PUSHS b0, ..., bn` is one DEC_PUSH per byte, in order (R92). -/
def Instr.decPushs (bs : List Byte) : List Instr := bs.map .decPush

/-- `SYS_TICKS n` is n successive SYS_TICK (R92), each with no request and no perturbation (`Ports.idle`). -/
def Instr.sysTicks (n : Nat) : List Instr := List.replicate n .sysTick

/-! ## Textual form (R91) -/

/-- The mnemonic of a command (R80, R25). -/
def Instr.mnemonic : Instr → String
  | .nop => "NOP"
  | .csumClear => "CSUM_CLEAR"
  | .csumAcc _ => "CSUM_ACC"
  | .encode => "ENCODE"
  | .decPush _ => "DEC_PUSH"
  | .decReset => "DEC_RESET"
  | .rxStep => "RX_STEP"
  | .rxReset => "RX_RESET"
  | .txRequestSend => "TX_REQUEST_SEND"
  | .txStep => "TX_STEP"
  | .txReset => "TX_RESET"
  | .sysReset => "SYS_RESET"
  | .sysTick => "SYS_TICK"

/-- One hexadecimal digit, capital letters. -/
def hexDigit (n : Nat) : String :=
  (["0", "1", "2", "3", "4", "5", "6", "7", "8", "9", "A", "B", "C", "D", "E", "F"][n]?).getD "?"

/-- A byte as `0xNN` (R21). -/
def byteText (b : Byte) : String := "0x" ++ hexDigit (b.toNat / 16) ++ hexDigit (b.toNat % 16)

/-- A list of texts as `[t0, t1, ...]`. -/
def listText (ts : List String) : String := "[" ++ String.intercalate ", " ts ++ "]"

/-- A payload as `[0xNN, ...]` (R91). -/
def payloadText (p : List Byte) : String := listText (p.map byteText)

/-- The positions, counted from 0, of the dropped bytes of a list of draws (R91, 95_test_vectors.md section 8). -/
def droppedAt (ds : List Draw) : List Nat :=
  ds.zipIdx.filterMap fun (d, i) => if d = .drop then some i else none

/-- The replacements `i:v` of a list of draws (95_test_vectors.md section 8, which has them for `FWD` only; log entry 21). -/
def replacedAt (ds : List Draw) : List String :=
  ds.zipIdx.filterMap fun (d, i) =>
    match d with
    | .replace v => some (toString i ++ ":" ++ byteText v)
    | _ => none

/-- A harness input, left out when it is empty. -/
def harnessText (name : String) (entries : List String) : String :=
  if entries = [] then "" else " " ++ name ++ "=" ++ listText entries

/-- The textual form of a command with what stands on its ports (R91). The port operands are not part of the word.

DESIGN CHOICE (log entry 21): the spec gives a textual form to a dropped byte of either channel and to a replaced byte of
`FWD` (R91, 95_test_vectors.md section 8), but none to a replaced byte of `RET`, which R65 allows. `replace_ret=[i:v]`
is the model's own, after `replace_fwd`. -/
def Instr.text (i : Instr) (p : Ports) : String :=
  match i with
  | .csumAcc b => i.mnemonic ++ " " ++ byteText b
  | .decPush b => i.mnemonic ++ " " ++ byteText b
  | .encode => i.mnemonic ++ " " ++ payloadText p.payload
  | .txRequestSend => i.mnemonic ++ " " ++ payloadText p.payload
  | .txStep => i.mnemonic ++ " @" ++ toString p.tick
  | .sysTick =>
    i.mnemonic ++ (match p.req with | none => "" | some r => " req=" ++ payloadText r)
      ++ harnessText "drop_fwd" ((droppedAt p.fwdDraws).map toString)
      ++ harnessText "drop_ret" ((droppedAt p.retDraws).map toString)
      ++ harnessText "replace_fwd" (replacedAt p.fwdDraws)
      ++ harnessText "replace_ret" (replacedAt p.retDraws)
  | .nop | .csumClear | .decReset | .rxStep | .rxReset | .txReset | .sysReset => i.mnemonic

/-- A payload written as an ASCII string: its character codes (R91). -/
def asciiPayload (s : String) : List Byte := s.toList.map fun c => BitVec.ofNat 8 c.toNat

end Sys2Proof
end

