-- ==== Sys2Proof/WellFormed.lean ====
section
/-! DEFINITION. What is well formed: a configuration record (00_scope.md R17), the three records of a block (R152), and
a command. Each check is a Bool, so that it can be evaluated. -/

namespace Sys2Proof

/-- A configuration record is well formed (R17). `TIMEOUT_TICKS >= 0` holds of every natural number.

DESIGN CHOICE (log entry 20): the table of 10_state.md section 7 (R53) gives the field `TIMEOUT_TICKS` the width
`TICK_BITS`, and R17 puts no bound on it. The model follows R17: under a finite `TICK_BITS` any natural number is well
formed, and one that does not fit is met only by the refusal of every deadline formed from it (R166). -/
def UnitConfig.wellFormed (c : UnitConfig) : Bool :=
  decide (c.maxLen ≤ 255) && decide (1 ≤ c.maxAttempts) && (!c.nackEnable || c.ackByte != c.nackByte)

/-- The three configuration records of a block, each well formed (R152). -/
def Params.wellFormed (p : Params) : Bool :=
  p.cfgCodec.wellFormed && p.cfgRx.wellFormed && p.cfgTx.wellFormed

/-- Every command of the type `Instr` is well formed: its only operand is a byte, and every byte is legal (R79, R80).
What R81 calls illegal is a command WORD, which Decode.lean rejects. -/
def Instr.wellFormed : Instr → Bool
  | .nop | .csumClear | .csumAcc _ | .encode | .decPush _ | .decReset | .rxStep | .rxReset
  | .txRequestSend | .txStep | .txReset | .sysReset | .sysTick => true

end Sys2Proof
end

