-- ==== Sys2Proof/Decode.lean ====
section
/-! DEFINITION. The command word (30_encoding.md section 2): its fields, the decoder of words, total on any 16 bits and
rejecting by name, and after it the encoder. -/

namespace Sys2Proof

/-- Why a word is illegal (R81). A model refuses each of them as `ILLEGAL_COMMAND` (60_exceptions.md R142). -/
inductive IllegalWord where
  /-- `op` in 0xD..0xF. -/
  | reservedOpcode
  /-- `rsv != 0`. -/
  | reservedField
  /-- `imm8 != 0` and `op` is neither CSUM_ACC nor DEC_PUSH. -/
  | strayOperand
  deriving DecidableEq, Repr

/-- What the decoder reads from a word: a command, or the reason why there is none. -/
inductive Decoded where
  | command (i : Instr)
  | illegal (e : IllegalWord)
  deriving DecidableEq, Repr

/-- `op = w[15:12]` (R78). -/
def opField (w : Word) : BitVec 4 := w.extractLsb' 12 4

/-- `rsv = w[11:8]` (R78). -/
def rsvField (w : Word) : BitVec 4 := w.extractLsb' 8 4

/-- `imm8 = w[7:0]` (R78). -/
def imm8Field (w : Word) : Byte := w.extractLsb' 0 8

/-- The command that an opcode names, given the byte operand, or none for 0xD..0xF (R80). The Bool says whether the
command takes the byte operand. -/
def commandOf (op : BitVec 4) (b : Byte) : Option (Instr × Bool) :=
  match op.toNat with
  | 0x0 => some (.nop, false)
  | 0x1 => some (.csumClear, false)
  | 0x2 => some (.csumAcc b, true)
  | 0x3 => some (.encode, false)
  | 0x4 => some (.decPush b, true)
  | 0x5 => some (.decReset, false)
  | 0x6 => some (.rxStep, false)
  | 0x7 => some (.rxReset, false)
  | 0x8 => some (.txRequestSend, false)
  | 0x9 => some (.txStep, false)
  | 0xA => some (.txReset, false)
  | 0xB => some (.sysReset, false)
  | 0xC => some (.sysTick, false)
  | _ => none

/-- The decoder of command words: `op` first, then `rsv = 0`, then `imm8 = 0` for a command without a byte operand
(R80, R81). It reads no state (R82). -/
def decode (w : Word) : Decoded :=
  match commandOf (opField w) (imm8Field w) with
  | none => .illegal .reservedOpcode
  | some (i, takesByte) =>
    if rsvField w ≠ 0 then .illegal .reservedField
    else if !takesByte && imm8Field w != 0 then .illegal .strayOperand
    else .command i

/-- The opcode of a command (R80). -/
def Instr.opcode : Instr → BitVec 4
  | .nop => 0x0
  | .csumClear => 0x1
  | .csumAcc _ => 0x2
  | .encode => 0x3
  | .decPush _ => 0x4
  | .decReset => 0x5
  | .rxStep => 0x6
  | .rxReset => 0x7
  | .txRequestSend => 0x8
  | .txStep => 0x9
  | .txReset => 0xA
  | .sysReset => 0xB
  | .sysTick => 0xC

/-- The byte operand of a command, 0x00 where it takes none (R79). -/
def Instr.imm8 : Instr → Byte
  | .csumAcc b | .decPush b => b
  | .nop | .csumClear | .encode | .decReset | .rxStep | .rxReset | .txRequestSend | .txStep
  | .txReset | .sysReset | .sysTick => 0

/-- The encoder: the command's word `op ++ 0000 ++ imm8` (R78, R80). -/
def encode (i : Instr) : Word := i.opcode ++ (0 : BitVec 4) ++ i.imm8

/-- The instruction the decoder reads from a row of the opcode table whose bits are `w` (every bit above `nbits` is 0).
Every command is one 16-bit word (R82). -/
def decodeTableWord (nbits w : Nat) : Option Instr :=
  match decode (BitVec.ofNat 16 (w % 2 ^ nbits)) with
  | .command i => some i
  | .illegal _ => none

end Sys2Proof
end

