-- ==== Sys2Proof/Machine/State.lean ====
section
/-! DEFINITION. The state of the machine: every register of spec/10_state.md in its unit, the environment state of R54,
the response ports of R52, the parameters (R53), and the inputs the environment presents (R3, R78). All of it is
plain data. -/

namespace Sys2Proof.Machine

/-- The decoder state tag `d_state` (R30). -/
inductive DecState where
  | awaitStart | awaitLength | awaitPayload | awaitChecksum | awaitEnd | done | error
  deriving DecidableEq, Repr

/-- An Invalid reason, in `d_err`, `rx_last_err` and the response of DEC_PUSH (R35, R85). -/
inductive Reason where
  | none | lengthExceedsLimit | checksumMismatch | unexpectedEnd
  deriving DecidableEq, Repr

/-- A decode verdict (R84); `valid` carries the payload and `invalid` the reason. -/
inductive Verdict where
  | pending
  | valid (p : List Byte)
  | invalid (r : Reason)
  deriving DecidableEq, Repr

/-- The result of the encoder (R100, R88). -/
inductive EncodeResult where
  | frame (bytes : List Byte)
  | payloadTooLarge
  deriving DecidableEq, Repr

/-- The transmitter state tag `t_state` (R44). -/
inductive TxState where
  | idle | sending | awaitingAck | succeeded | failed
  deriving DecidableEq, Repr

/-- The transmitter status `t_status` (R51, R87). -/
inductive TxStatus where
  | idle | pending | succeeded | failed
  deriving DecidableEq, Repr

/-- The send-request result `t_req_result` (R48, R89). -/
inductive ReqResult where
  | none | accepted | payloadTooLarge | notIdle
  deriving DecidableEq, Repr

/-- The registers of one decoder instance (R30 to R36). -/
structure Decoder where
  dState : DecState
  /-- The declared LENGTH (R31). -/
  dLen : Byte
  /-- The payload index (R32). -/
  dIdx : Byte
  /-- The running checksum (R33). -/
  dCsum : Byte
  /-- The received checksum (R34). -/
  dRxcsum : Byte
  /-- The reason of the last Invalid verdict while in ERROR (R35). -/
  dErr : Reason
  /-- The payload buffer, `MAX_LEN` bytes (R36). -/
  dBuf : List Byte
  deriving DecidableEq, Repr

/-- What the codec response port holds (R52): the value CSUM_CLEAR or CSUM_ACC returns (R98, R99), the result of
ENCODE (R88), or the verdict of DEC_PUSH (R84). -/
inductive CodecResult where
  | acc (a : Byte)
  | encoded (r : EncodeResult)
  | verdict (v : Verdict)
  deriving DecidableEq, Repr

/-- What RX_STEP returns (R121): `None` or `Some(payload)`. -/
inductive RxResult where
  | nothing
  | payload (p : List Byte)
  deriving DecidableEq, Repr

/-- What the TX response port holds (R52): the result of TX_REQUEST_SEND (R89) or the status TX_STEP returns (R87). -/
inductive TxResult where
  | request (r : ReqResult)
  | status (t : TxStatus)
  deriving DecidableEq, Repr

/-- The standalone codec (R38, R39). -/
structure Codec where
  /-- `codec.acc` (R38). -/
  acc : Byte
  /-- `codec.dec` (R39). -/
  dec : Decoder
  /-- The codec response port (R52); `none` when the unit's last command returned nothing. -/
  resp : Option CodecResult
  deriving DecidableEq, Repr

/-- The receiver unit (R40 to R43). -/
structure RxUnit where
  /-- `rx.dec` (R40). -/
  dec : Decoder
  /-- `rx_ready` (R41). -/
  rxReady : Bool
  /-- `rx_out_len` (R42). -/
  rxOutLen : Byte
  /-- `rx_out_buf`, `MAX_LEN` bytes (R42). -/
  rxOutBuf : List Byte
  /-- `rx_last_err` (R43). -/
  rxLastErr : Reason
  /-- The RX response port (R52). -/
  resp : Option RxResult
  deriving DecidableEq, Repr

/-- The transmitter unit (R44 to R49). -/
structure TxUnit where
  tState : TxState
  /-- `t_attempts`, a counter 0..`MAX_ATTEMPTS` (R45). -/
  tAttempts : Nat
  /-- `t_deadline`, a tick (R46). -/
  tDeadline : Nat
  /-- `t_len` (R47). -/
  tLen : Byte
  /-- `t_frame`, `MAX_LEN + 4` bytes (R47). -/
  tFrame : List Byte
  tReqResult : ReqResult
  /-- `t_last_now`, ghost state (R49). -/
  tLastNow : Nat
  /-- The TX response port (R52). -/
  resp : Option TxResult
  deriving DecidableEq, Repr

/-- The environment state (R54) and the payloads handed to the application layer (R136 step (d)). -/
structure Env where
  /-- `FWD`, head first (R62). -/
  fwd : List Byte
  /-- `RET`, head first (R63). -/
  ret : List Byte
  /-- The harness clock `now` (R54, R145). -/
  now : Nat
  /-- The payloads delivered to the application, oldest first (R136). -/
  delivered : List (List Byte)
  deriving DecidableEq, Repr

/-- The whole machine. The units share no register (R147). -/
structure State where
  codec : Codec
  rx : RxUnit
  tx : TxUnit
  env : Env
  /-- The configuration records and the environment's parameters; no command writes them (R19, R53). -/
  params : Params
  /-- What stands on the input ports now, with the draws for the pushes still to come (R78, R65). -/
  ports : Ports
  /-- The commands the environment has still to issue, next first (R3, R68). -/
  bus : List Issue
  deriving DecidableEq, Repr

/-- What stops the machine. -/
inductive Fault where
  /-- `CHANNEL_OVERFLOW` (R64, R142): a push into a full channel of a bounded realization. Raised by TX_STEP, RX_STEP
  and SYS_TICK when `CHAN_DEPTH` is finite. The spec names the fault. Safe. -/
  | channelOverflow
  deriving DecidableEq, Repr

/-- Why the model gives a command no meaning (R142). -/
inductive Refusal where
  /-- An instruction with no meaning yet. No arm of `exec` answers it. Safe. -/
  | notModelled (mnemonic : String)
  /-- `ILLEGAL_COMMAND` (R81): raised by `step` on a word the decoder rejects. Safe: the spec names the refusal. -/
  | illegalCommand (e : IllegalWord)
  /-- `INVALID_CONFIG` (R17, R152): raised by every command under an ill-formed configuration. Safe. -/
  | invalidConfig
  /-- `NON_MONOTONE_TICK` (R129, R165): raised by TX_STEP and SYS_TICK with `now < t_last_now`. Safe. -/
  | nonMonotoneTick
  /-- `TICK_OVERFLOW` (R126, R166): raised by TX_STEP and SYS_TICK when the deadline does not fit `TICK_BITS`. Safe. -/
  | tickOverflow
  deriving DecidableEq, Repr

/-- The outcome of one command. -/
abbrev StepOutcome := Host.Outcome State Fault Refusal

/-! ## Reset values (10_state.md section 9) -/

/-- A decoder after SYS_RESET (R30 to R36). -/
def Decoder.atReset (maxLen : Nat) : Decoder where
  dState := .awaitStart
  dLen := 0
  dIdx := 0
  dCsum := 0
  dRxcsum := 0
  dErr := .none
  dBuf := List.replicate maxLen 0

/-- The codec after SYS_RESET (R38, R39). The empty response port is a DESIGN CHOICE (log entry 4). -/
def Codec.atReset (maxLen : Nat) : Codec where
  acc := 0
  dec := Decoder.atReset maxLen
  resp := none

/-- The receiver after SYS_RESET (R40 to R43). -/
def RxUnit.atReset (maxLen : Nat) : RxUnit where
  dec := Decoder.atReset maxLen
  rxReady := false
  rxOutLen := 0
  rxOutBuf := List.replicate maxLen 0
  rxLastErr := .none
  resp := none

/-- The transmitter after SYS_RESET (R44 to R49). -/
def TxUnit.atReset (maxLen : Nat) : TxUnit where
  tState := .idle
  tAttempts := 0
  tDeadline := 0
  tLen := 0
  tFrame := List.replicate (maxLen + 4) 0
  tReqResult := .none
  tLastNow := 0
  resp := none

/-- The environment after SYS_RESET (R54, R135). -/
def Env.atReset (t0 : Nat) : Env where
  fwd := []
  ret := []
  now := t0
  delivered := []

/-- The machine right after reset under given parameters, with nothing on the ports and no command waiting. -/
def State.afterReset (p : Params) : State where
  codec := Codec.atReset p.cfgCodec.maxLen
  rx := RxUnit.atReset p.cfgRx.maxLen
  tx := TxUnit.atReset p.cfgTx.maxLen
  env := Env.atReset p.t0
  params := p
  ports := Ports.idle
  bus := []

/-- The machine right after reset. The spec gives the configuration no reset value (R53): this one is the reference
configuration of the test vectors (DESIGN CHOICE, log entry 1). -/
def State.reset : State := State.afterReset Params.ref

end Sys2Proof.Machine
end

