-- ==== Sys2Proof/Machine/Ops.lean ====
section
/-! DEFINITION. The named operations that the commands share: sequencing, the configuration check, the register
writes, the checksum accumulator (40_checksum.md), the encoder function (41_encode.md), the decoder's transition
function (42_decode.md), the buffers (R57) and the channels (20_memory.md section 3).

The block has no trap (R24, R139), so there is no exception entry and no return from one. What takes its place is
`Decoder.enterError`, the one operation through which every decode error goes. -/

namespace Sys2Proof.Machine

/-! ## Sequencing and the configuration check -/

/-- Run `k` on the state that `o` answers; a fault or a refusal stands for the whole command (R67, R142). -/
def andThen (o : StepOutcome) (k : State → StepOutcome) : StepOutcome :=
  match o with
  | .next s => k s
  | .fault f => .fault f
  | .refused r => .refused r

/-- The command's effect, if all three configuration records are well formed; `INVALID_CONFIG` otherwise (R17, R152). -/
def whenConfigured (s : State) (effect : StepOutcome) : StepOutcome :=
  if s.params.wellFormed then effect else .refused .invalidConfig

/-! ## Register writes, one unit at a time -/

def State.setCodec (s : State) (c : Codec) : State := { s with codec := c }
def State.setRx (s : State) (r : RxUnit) : State := { s with rx := r }
def State.setTx (s : State) (t : TxUnit) : State := { s with tx := t }
def State.setEnv (s : State) (e : Env) : State := { s with env := e }
def State.setPorts (s : State) (p : Ports) : State := { s with ports := p }
def State.setBus (s : State) (b : List Issue) : State := { s with bus := b }

/-! ## The response ports (R52) -/

/-- Put a result, or no result, on the codec response port. -/
def State.respondCodec (s : State) (r : Option CodecResult) : State := s.setCodec { s.codec with resp := r }

/-- Put a result, or no result, on the RX response port. -/
def State.respondRx (s : State) (r : Option RxResult) : State := s.setRx { s.rx with resp := r }

/-- Put a result, or no result, on the TX response port. -/
def State.respondTx (s : State) (r : Option TxResult) : State := s.setTx { s.tx with resp := r }

/-! ## Checksum accumulator (40_checksum.md section 1) -/

/-- `AccClear` (R93): the cleared accumulator. -/
def accClear : Byte := 0x00

/-- `AccCombine` (R94): bitwise exclusive-or. -/
def accCombine (a b : Byte) : Byte := a ^^^ b

/-- The accumulator after clearing it and combining the bytes of a region in order (R95). -/
def checksumOver (region : List Byte) : Byte := region.foldl accCombine accClear

/-- `Csum(P)` (R95): LENGTH first, then each payload byte. -/
def csum (p : List Byte) : Byte := checksumOver (lengthByte p.length :: p)

/-! ## Encoder function (41_encode.md R100) -/

/-- The wire bytes of a frame (R73). -/
def frameBytes (cfg : UnitConfig) (p : List Byte) : List Byte :=
  [cfg.startByte, lengthByte p.length] ++ p ++ [csum p, cfg.endByte]

/-- `Encode(cfg, P)` (R100). -/
def encodeFrame (cfg : UnitConfig) (p : List Byte) : EncodeResult :=
  if cfg.maxLen < p.length then .payloadTooLarge else .frame (frameBytes cfg p)

/-! ## Buffers (R57) -/

/-- `buf[0 .. |p|-1] <- p`; the bytes beyond keep their contents and the buffer keeps its size. A byte that has no place
in the buffer is not written; R57 derives that no rule writes one (log entry 8). -/
def writePrefix (buf p : List Byte) : List Byte := (p ++ buf.drop p.length).take buf.length

/-! ## Decoder transition function (42_decode.md section 1) -/

/-- `DecReset` (R111): every register but `d_buf`. -/
def Decoder.reset (d : Decoder) : Decoder :=
  { d with dState := .awaitStart, dLen := 0x00, dIdx := 0x00, dCsum := 0x00, dRxcsum := 0x00, dErr := .none }

/-- Every decode error: ERROR is entered, the reason recorded and returned (R139). -/
def Decoder.enterError (d : Decoder) (r : Reason) : Decoder × Verdict :=
  ({ d with dState := .error, dErr := r }, .invalid r)

/-- A byte in AWAIT_START (R104). -/
def Decoder.pushAwaitStart (cfg : UnitConfig) (d : Decoder) (b : Byte) : Decoder × Verdict :=
  if b = cfg.startByte then
    ({ d with dCsum := accClear, dIdx := 0x00, dState := .awaitLength }, .pending)
  else (d, .pending)

/-- A byte in AWAIT_LENGTH (R105). The comparison is unsigned. -/
def Decoder.pushAwaitLength (cfg : UnitConfig) (d : Decoder) (b : Byte) : Decoder × Verdict :=
  let d := { d with dLen := b, dCsum := accCombine d.dCsum b }
  if cfg.maxLen < b.toNat then d.enterError .lengthExceedsLimit
  else if b = 0x00 then ({ d with dState := .awaitChecksum }, .pending)
  else ({ d with dState := .awaitPayload }, .pending)

/-- A byte in AWAIT_PAYLOAD (R106). -/
def Decoder.pushAwaitPayload (d : Decoder) (b : Byte) : Decoder × Verdict :=
  let d := { d with dBuf := d.dBuf.set d.dIdx.toNat b, dCsum := accCombine d.dCsum b, dIdx := d.dIdx + 1 }
  if d.dIdx = d.dLen then ({ d with dState := .awaitChecksum }, .pending) else (d, .pending)

/-- A byte in AWAIT_CHECKSUM (R107). -/
def Decoder.pushAwaitChecksum (d : Decoder) (b : Byte) : Decoder × Verdict :=
  let d := { d with dRxcsum := b }
  if b ≠ d.dCsum then d.enterError .checksumMismatch else ({ d with dState := .awaitEnd }, .pending)

/-- The payload of a Valid verdict, `d_buf[0 .. d_len-1]` (R108). -/
def Decoder.payload (d : Decoder) : List Byte := d.dBuf.take d.dLen.toNat

/-- A byte in AWAIT_END (R108). -/
def Decoder.pushAwaitEnd (cfg : UnitConfig) (d : Decoder) (b : Byte) : Decoder × Verdict :=
  if b = cfg.endByte then ({ d with dState := .done }, .valid d.payload) else d.enterError .unexpectedEnd

/-- A byte in DONE or ERROR (R109). -/
def Decoder.pushTerminal (cfg : UnitConfig) (d : Decoder) (b : Byte) : Decoder × Verdict :=
  match cfg.decTerminalPolicy with
  | .discard => (d, .pending)
  | .autoReset => d.reset.pushAwaitStart cfg b

/-- `DecPush(d, cfg, b)` (R110): the rule selected by `d_state` before the byte is taken. -/
def Decoder.push (cfg : UnitConfig) (d : Decoder) (b : Byte) : Decoder × Verdict :=
  match d.dState with
  | .awaitStart => d.pushAwaitStart cfg b
  | .awaitLength => d.pushAwaitLength cfg b
  | .awaitPayload => d.pushAwaitPayload b
  | .awaitChecksum => d.pushAwaitChecksum b
  | .awaitEnd => d.pushAwaitEnd cfg b
  | .done => d.pushTerminal cfg b
  | .error => d.pushTerminal cfg b

/-- The bytes of a stream pushed in order, with the verdict of each (DEC_PUSHS, R92). -/
def Decoder.pushAll (cfg : UnitConfig) : Decoder → List Byte → Decoder × List Verdict
  | d, [] => (d, [])
  | d, b :: bs => (((d.push cfg b).1.pushAll cfg bs).1, (d.push cfg b).2 :: ((d.push cfg b).1.pushAll cfg bs).2)

/-! ## Channels (20_memory.md section 3) -/

/-- A bounded channel of capacity `CHAN_DEPTH` that holds that many bytes is full; an unbounded one never is (R64). -/
def chanFull (depth : Option Nat) (ch : List Byte) : Bool :=
  match depth with
  | none => false
  | some n => decide (n ≤ ch.length)

/-- What the channel receives for one pushed byte under the first of the environment's draws (R65). -/
def drawn : List Draw → Byte → List Byte
  | [], b => [b]
  | .deliver :: _, b => [b]
  | .drop :: _, _ => []
  | .replace v :: _, _ => [v]

/-- What a channel receives for a run of pushed bytes, the i-th byte under the i-th draw (R65). -/
def perturb : List Draw → List Byte → List Byte
  | _, [] => []
  | ds, b :: bs => drawn ds b ++ perturb ds.tail bs

/-- `ChanPush(FWD, b)` (R62, R64, R65). A full channel faults whatever the draw (log entry 6). -/
def State.pushFwd (s : State) (b : Byte) : StepOutcome :=
  if chanFull s.params.chanDepth s.env.fwd then .fault .channelOverflow
  else .next ((s.setEnv { s.env with fwd := s.env.fwd ++ drawn s.ports.fwdDraws b }).setPorts
    { s.ports with fwdDraws := s.ports.fwdDraws.tail })

/-- `ChanPush(RET, b)` (R63, R64, R65). -/
def State.pushRet (s : State) (b : Byte) : StepOutcome :=
  if chanFull s.params.chanDepth s.env.ret then .fault .channelOverflow
  else .next ((s.setEnv { s.env with ret := s.env.ret ++ drawn s.ports.retDraws b }).setPorts
    { s.ports with retDraws := s.ports.retDraws.tail })

/-- A run of `ChanPush(FWD, ·)` in order (R126). -/
def State.pushFwdAll : State → List Byte → StepOutcome
  | s, [] => .next s
  | s, b :: bs => andThen (s.pushFwd b) fun s' => s'.pushFwdAll bs

/-- Replace the contents of `FWD`: `ChanPop(FWD)` of a channel `b :: rest` leaves `rest` (R23, R66). -/
def State.setFwd (s : State) (rest : List Byte) : State := s.setEnv { s.env with fwd := rest }

/-- Replace the contents of `RET`: `ChanPop(RET)` of a channel `b :: rest` leaves `rest` (R23, R66). -/
def State.setRet (s : State) (rest : List Byte) : State := s.setEnv { s.env with ret := rest }

/-! ## Ticks (R16, R166) -/

/-- A tick value fits the width `TICK_BITS` (R166). -/
def tickFits (w : TickBits) (t : Nat) : Bool :=
  match w with
  | .unbounded => true
  | .finite n _ => decide (t < 2 ^ n)

/-! ## Issuing a command (R3, R68) -/

/-- The command word on the bus: that of the next issue; 0x0000 on an idle bus (R134: "an idle command bus does
nothing"). -/
def State.fetchWord (s : State) : Word :=
  match s.bus with
  | [] => 0x0000
  | i :: _ => i.word

/-- The state in which the fetched command runs: its issue is taken off the bus and its operands stand on the ports. On
an idle bus nothing changes. -/
def State.takeIssue (s : State) : State :=
  match s.bus with
  | [] => s
  | i :: rest => (s.setBus rest).setPorts i.ports

end Sys2Proof.Machine
end

