-- ==== Sys2Proof/Machine/Operands.lean ====
section
/-! DEFINITION. The operand forms (30_encoding.md R78, R79): the byte operand `imm8`, and the operands on ports. -/

namespace Sys2Proof.Machine

/-- The byte operand, "used unchanged as a byte" (R79). -/
def byteOperand (imm8 : Byte) : Byte := imm8

/-- The payload on the payload port (R58). -/
def State.payloadOperand (s : State) : List Byte := s.ports.payload

/-- The tick on the tick port (R145). -/
def State.tickOperand (s : State) : Nat := s.ports.tick

/-- The harness's send request of this tick, if present (R136). -/
def State.requestOperand (s : State) : Option (List Byte) := s.ports.req

end Sys2Proof.Machine
end

