-- ==== Sys2Proof/Machine/Checksum.lean ====
section
/-! DEFINITION. CSUM_CLEAR and CSUM_ACC (40_checksum.md section 2). -/

namespace Sys2Proof.Machine

/-- CSUM_CLEAR (R98). -/
def execCsumClear (s : State) : StepOutcome :=
  whenConfigured s <|
    .next (s.setCodec { s.codec with acc := accClear, resp := some (.acc accClear) })

/-- CSUM_ACC b (R99). -/
def execCsumAcc (b : Byte) (s : State) : StepOutcome :=
  whenConfigured s <|
    let a := accCombine s.codec.acc (byteOperand b)
    .next (s.setCodec { s.codec with acc := a, resp := some (.acc a) })

end Sys2Proof.Machine
end

