-- ==== Sys2Proof/Machine/Decoder.lean ====
section
/-! DEFINITION. DEC_PUSH and DEC_RESET on the standalone decoder `codec.dec` (42_decode.md section 2). -/

namespace Sys2Proof.Machine

/-- DEC_PUSH b (R112). -/
def execDecPush (b : Byte) (s : State) : StepOutcome :=
  whenConfigured s <|
    let r := s.codec.dec.push s.params.cfgCodec (byteOperand b)
    .next (s.setCodec { s.codec with dec := r.1, resp := some (.verdict r.2) })

/-- DEC_RESET (R113): no result, so nothing stands on the response port (log entry 4). -/
def execDecReset (s : State) : StepOutcome :=
  whenConfigured s <|
    .next (s.setCodec { s.codec with dec := s.codec.dec.reset, resp := none })

end Sys2Proof.Machine
end

