-- ==== Sys2Proof/Machine/Encoder.lean ====
section
/-! DEFINITION. ENCODE (41_encode.md R101). -/

namespace Sys2Proof.Machine

/-- ENCODE P (R101): a pure function of the payload under `cfg_codec`; only the response port shows it. -/
def execEncode (s : State) : StepOutcome :=
  whenConfigured s <|
    .next (s.respondCodec (some (.encoded (encodeFrame s.params.cfgCodec s.payloadOperand))))

end Sys2Proof.Machine
end

