-- ==== Sys2Proof/Machine/Receiver.lean ====
section
/-! DEFINITION. The receiver unit (43_receiver.md): the verdict handling R119 and R120, RX_STEP and RX_RESET. -/

namespace Sys2Proof.Machine

/-- `RxValid(p)` (R119): latch the payload, set the ready flag, write the ACK, reset the decoder. -/
def rxValid (p : List Byte) (s : State) : StepOutcome :=
  let s := s.setRx { s.rx with
    rxOutBuf := writePrefix s.rx.rxOutBuf p, rxOutLen := lengthByte p.length, rxReady := true }
  andThen (s.pushRet s.params.cfgRx.ackByte) fun s =>
    .next (s.setRx { s.rx with dec := s.rx.dec.reset })

/-- `RxInvalid(r)` (R120): record the reason, write a NACK if enabled, reset the decoder. -/
def rxInvalid (r : Reason) (s : State) : StepOutcome :=
  let s := s.setRx { s.rx with rxLastErr := r }
  andThen (if s.params.cfgRx.nackEnable then s.pushRet s.params.cfgRx.nackByte else .next s) fun s =>
    .next (s.setRx { s.rx with dec := s.rx.dec.reset })

/-- The loop of RX_STEP (R121), over the bytes that `FWD` holds, head first: it ends when `FWD` is empty, after a Valid
verdict, or after one byte under `RX_POLICY = ONE`. -/
def rxLoop : List Byte → State → StepOutcome
  | [], s => .next s
  | b :: rest, s =>
    let r := s.rx.dec.push s.params.cfgRx b
    let s := (s.setFwd rest).setRx { s.rx with dec := r.1 }
    match r.2 with
    | .valid p => rxValid p s
    | .invalid e =>
      match s.params.cfgRx.rxPolicy with
      | .one => rxInvalid e s
      | .all => andThen (rxInvalid e s) (rxLoop rest)
    | .pending =>
      match s.params.cfgRx.rxPolicy with
      | .one => .next s
      | .all => rxLoop rest s

/-- The payload latched in the output registers, `rx_out_buf[0 .. rx_out_len-1]` (R42). -/
def RxUnit.outPayload (r : RxUnit) : List Byte := r.rxOutBuf.take r.rxOutLen.toNat

/-- What RX_STEP returns (R121). -/
def RxUnit.result (r : RxUnit) : RxResult := if r.rxReady then .payload r.outPayload else .nothing

/-- One step of the receiver, as RX_STEP and step (c) of SYS_TICK run it (R121, R136). -/
def stepReceiver (s : State) : StepOutcome :=
  andThen (rxLoop s.env.fwd (s.setRx { s.rx with rxReady := false })) fun s =>
    .next (s.respondRx (some s.rx.result))

/-- RX_STEP (R121). -/
def execRxStep (s : State) : StepOutcome := whenConfigured s (stepReceiver s)

/-- RX_RESET (R122): `rx_out_len`, `rx_out_buf`, `d_buf` and the channels keep their contents. -/
def execRxReset (s : State) : StepOutcome :=
  whenConfigured s <|
    .next (s.setRx { s.rx with
      dec := s.rx.dec.reset, rxReady := false, rxLastErr := .none, resp := none })

end Sys2Proof.Machine
end

