-- ==== Sys2Proof/Machine/Flags.lean ====
section
/-! DEFINITION. The block has no condition-code register (R52). Its flags are `rx_ready`, the terminal states, the
status output `t_status` (R51) and the numeric codes of every enumerated value (30_encoding.md R83 to R90). -/

namespace Sys2Proof.Machine

/-- `t_status` is a function of `t_state` (R51). -/
def TxState.status : TxState → TxStatus
  | .idle => .idle
  | .sending => .pending
  | .awaitingAck => .pending
  | .succeeded => .succeeded
  | .failed => .failed

/-- SUCCEEDED and FAILED are terminal (R129). -/
def TxState.terminal : TxState → Bool
  | .succeeded => true
  | .failed => true
  | .idle | .sending | .awaitingAck => false

/-- DONE and ERROR are terminal (R109). -/
def DecState.terminal : DecState → Bool
  | .done => true
  | .error => true
  | .awaitStart | .awaitLength | .awaitPayload | .awaitChecksum | .awaitEnd => false

/-- R83. -/
def DecState.code : DecState → BitVec 3
  | .awaitStart => 0
  | .awaitLength => 1
  | .awaitPayload => 2
  | .awaitChecksum => 3
  | .awaitEnd => 4
  | .done => 5
  | .error => 6

/-- R84. -/
def Verdict.code : Verdict → BitVec 2
  | .pending => 0
  | .valid _ => 1
  | .invalid _ => 2

/-- R85. -/
def Reason.code : Reason → BitVec 2
  | .none => 0
  | .lengthExceedsLimit => 1
  | .checksumMismatch => 2
  | .unexpectedEnd => 3

/-- R86. -/
def TxState.code : TxState → BitVec 3
  | .idle => 0
  | .sending => 1
  | .awaitingAck => 2
  | .succeeded => 3
  | .failed => 4

/-- R87. -/
def TxStatus.code : TxStatus → BitVec 2
  | .idle => 0
  | .pending => 1
  | .succeeded => 2
  | .failed => 3

/-- R88. -/
def EncodeResult.code : EncodeResult → BitVec 1
  | .frame _ => 0
  | .payloadTooLarge => 1

/-- The bytes an ENCODE result carries, none when the payload is too large (R88). -/
def EncodeResult.bytes : EncodeResult → List Byte
  | .frame f => f
  | .payloadTooLarge => []

/-- The byte count an ENCODE result carries (R88, R101). -/
def EncodeResult.count (r : EncodeResult) : Nat := r.bytes.length

/-- R89. -/
def ReqResult.code : ReqResult → BitVec 2
  | .none => 0
  | .accepted => 1
  | .payloadTooLarge => 2
  | .notIdle => 3

/-- R90. -/
def rxPolicyCode : RxPolicy → BitVec 1
  | .one => 0
  | .all => 1

/-- R90. -/
def decTerminalPolicyCode : DecTerminalPolicy → BitVec 1
  | .discard => 0
  | .autoReset => 1

end Sys2Proof.Machine
end

