-- ==== Sys2Proof/Machine/Transmitter.lean ====
section
/-! DEFINITION. The transmitter unit (44_transmitter.md): TX_REQUEST_SEND, TX_STEP and TX_RESET. -/

namespace Sys2Proof.Machine

/-- Record and return the result of a send request (R48, R128). -/
def answerRequest (s : State) (r : ReqResult) : State :=
  s.setTx { s.tx with tReqResult := r, resp := some (.request r) }

/-- A send request with payload `p`, as TX_REQUEST_SEND and step (a) of SYS_TICK make it (R128, R136). NOT_IDLE is
checked before the size (R141 (a)). -/
def requestSend (p : List Byte) (s : State) : State :=
  if s.tx.tState ≠ .idle then answerRequest s .notIdle
  else
    match encodeFrame s.params.cfgTx p with
    | .payloadTooLarge => answerRequest s .payloadTooLarge
    | .frame f =>
      answerRequest (s.setTx { s.tx with
        tFrame := writePrefix s.tx.tFrame f
        tLen := lengthByte p.length
        tAttempts := s.tx.tAttempts + 1
        tState := .sending }) .accepted

/-- TX_REQUEST_SEND P (R128). -/
def execTxRequestSend (s : State) : StepOutcome :=
  whenConfigured s <| .next (requestSend s.payloadOperand s)

/-- The bytes of the outstanding frame, `t_frame[0 .. t_len+3]` (R47). -/
def TxUnit.wire (t : TxUnit) : List Byte := t.tFrame.take (t.tLen.toNat + 4)

/-- `TxTransmit(now)` (R126): the whole frame into `FWD`, then the deadline, refused if it does not fit (R166). -/
def txTransmit (now : Nat) (s : State) : StepOutcome :=
  andThen (s.pushFwdAll s.tx.wire) fun s =>
    let deadline := now + s.params.cfgTx.timeoutTicks
    if tickFits s.params.cfgTx.tickBits deadline then
      .next (s.setTx { s.tx with tDeadline := deadline, tState := .awaitingAck })
    else .refused .tickOverflow

/-- A reached deadline, or a NACK: the next attempt if one is left, FAILED otherwise (R127). -/
def txTimeout (s : State) : State :=
  if s.tx.tAttempts < s.params.cfgTx.maxAttempts then
    s.setTx { s.tx with tAttempts := s.tx.tAttempts + 1, tState := .sending }
  else s.setTx { s.tx with tState := .failed }

/-- A byte read from `RET` is a negative acknowledgment (R13, R127). -/
def isNack (cfg : UnitConfig) (b : Byte) : Bool := cfg.nackEnable && b == cfg.nackByte

/-- `TxAwait(now)` (R127): at most one byte of `RET`; an ACK wins over a reached deadline; a NACK counts as one; any
other byte is discarded. -/
def txAwait (now : Nat) (s : State) : State :=
  match s.env.ret with
  | [] => if s.tx.tDeadline ≤ now then txTimeout s else s
  | b :: rest =>
    if b = s.params.cfgTx.ackByte then (s.setRet rest).setTx { s.tx with tState := .succeeded }
    else if isNack s.params.cfgTx b = true ∨ s.tx.tDeadline ≤ now then txTimeout (s.setRet rest)
    else s.setRet rest

/-- The behaviour of TX_STEP chosen by `t_state` at the start of the step (R129). -/
def txByState (now : Nat) (s : State) : StepOutcome :=
  match s.tx.tState with
  | .idle => .next s
  | .succeeded => .next s
  | .failed => .next s
  | .sending => txTransmit now s
  | .awaitingAck => .next (txAwait now s)

/-- One step of the transmitter at tick `now`, as TX_STEP and step (b) of SYS_TICK run it (R129, R136). -/
def stepTransmitter (now : Nat) (s : State) : StepOutcome :=
  if now < s.tx.tLastNow then .refused .nonMonotoneTick
  else
    andThen (txByState now (s.setTx { s.tx with tLastNow := now })) fun s =>
      .next (s.respondTx (some (.status s.tx.tState.status)))

/-- TX_STEP @now (R129). -/
def execTxStep (s : State) : StepOutcome := whenConfigured s (stepTransmitter s.tickOperand s)

/-- TX_RESET, alias TX_ABORT (R130): every TX register but the ghost `t_last_now`; no channel. -/
def execTxReset (s : State) : StepOutcome :=
  whenConfigured s <|
    .next (s.setTx { s.tx with
      tState := .idle, tAttempts := 0, tDeadline := 0, tLen := 0
      tFrame := List.replicate s.tx.tFrame.length 0x00
      tReqResult := .none, resp := none })

end Sys2Proof.Machine
end

