-- ==== Sys2Proof/Machine/System.lean ====
section
/-! DEFINITION. NOP, SYS_RESET and SYS_TICK (45_system.md). -/

namespace Sys2Proof.Machine

/-- NOP (R134). -/
def execNop (s : State) : StepOutcome := whenConfigured s (.next s)

/-- SYS_RESET (R135): every register takes its reset value, both channels are emptied and the harness clock starts at
`T0`. The configuration, the waiting commands, the ports and what the application already received stay. -/
def execSysReset (s : State) : StepOutcome :=
  whenConfigured s <|
    .next { State.afterReset s.params with
      env := { Env.atReset s.params.t0 with delivered := s.env.delivered }
      ports := s.ports
      bus := s.bus }

/-- Step (a) of SYS_TICK (R136): a request is injected only in IDLE, and is not retained otherwise. -/
def tickRequest (s : State) : State :=
  match s.requestOperand with
  | none => s
  | some p => if s.tx.tState = .idle then requestSend p s else s

/-- Step (d) of SYS_TICK (R136): a payload that the receiver reports goes to the application. -/
def tickDeliver (s : State) : State :=
  match s.rx.resp with
  | some (.payload p) => s.setEnv { s.env with delivered := s.env.delivered ++ [p] }
  | some .nothing => s
  | none => s

/-- Step (e) of SYS_TICK (R136). -/
def tickAdvance (s : State) : State := s.setEnv { s.env with now := s.env.now + 1 }

/-- SYS_TICK (R136): the steps (a) to (e), in order. -/
def execSysTick (s : State) : StepOutcome :=
  whenConfigured s <|
    andThen (stepTransmitter s.env.now (tickRequest s)) fun s =>
    andThen (stepReceiver s) fun s =>
    .next (tickAdvance (tickDeliver s))

end Sys2Proof.Machine
end

