-- ==== Sys2Proof/Machine/Dispatch.lean ====
section
/-! DEFINITION. The meaning of each command (30_encoding.md R80). -/

namespace Sys2Proof.Machine

def exec (i : Instr) (s : State) : Host.Outcome State Fault Refusal :=
  match i with
  | .nop => Sys2Proof.Machine.execNop s
  | .csumClear => Sys2Proof.Machine.execCsumClear s
  | .csumAcc b => Sys2Proof.Machine.execCsumAcc b s
  | .encode => Sys2Proof.Machine.execEncode s
  | .decPush b => Sys2Proof.Machine.execDecPush b s
  | .decReset => Sys2Proof.Machine.execDecReset s
  | .rxStep => Sys2Proof.Machine.execRxStep s
  | .rxReset => Sys2Proof.Machine.execRxReset s
  | .txRequestSend => Sys2Proof.Machine.execTxRequestSend s
  | .txStep => Sys2Proof.Machine.execTxStep s
  | .txReset => Sys2Proof.Machine.execTxReset s
  | .sysReset => Sys2Proof.Machine.execSysReset s
  | .sysTick => Sys2Proof.Machine.execSysTick s

end Sys2Proof.Machine
end

