-- ==== Sys2Proof/Machine/Step.lean ====
section
/-! DEFINITION. One step: the next command on the bus is decoded and run, atomically (R3, R67, R68). -/

namespace Sys2Proof.Machine

/-- One step of the machine. An illegal word is refused as `ILLEGAL_COMMAND` (R81). -/
def step (s : State) : Host.Outcome State Fault Refusal :=
  match decode s.fetchWord with
  | .illegal e => .refused (.illegalCommand e)
  | .command i => exec i s.takeIssue

/-- `s` with the word `w` as the command that `step` takes next. Where a command is waiting, its word is replaced and
its ports are kept. On an idle bus the command is issued with what stands on the ports now. -/
def State.withFetchWord (s : State) (nbits w : Nat) : State :=
  let word : Word := BitVec.ofNat 16 (w % 2 ^ nbits)
  match s.bus with
  | [] => s.setBus [{ word := word, ports := s.ports }]
  | i :: rest => s.setBus ({ i with word := word } :: rest)

end Sys2Proof.Machine
end

