-- ==== Sys2Proof/Machine/Scenario.lean ====
section
/-! DEFINITION. Runs of harness ticks and the end of a scenario (45_system.md R137, R92). The test harness itself is out of
scope (00_scope.md R6 (e)); this file only says when its run stops. -/

namespace Sys2Proof.Machine

/-- A SYS_TICK as the environment issues it, with a request and perturbations (R136). -/
def tickIssue (req : Option (List Byte)) (fwdDraws retDraws : List Draw) : Issue where
  word := 0xC000
  ports := { Ports.idle with req := req, fwdDraws := fwdDraws, retDraws := retDraws }

/-- A SYS_TICK with no request and no perturbation (R92). -/
def plainTick : Issue := tickIssue none [] []

/-- The next command on the bus is a SYS_TICK. -/
def State.ticksNext (s : State) : Bool := decide (decode s.fetchWord = .command .sysTick)

/-- Between two states `t_state` becomes SUCCEEDED or FAILED (R137). -/
def becomesTerminal (s t : State) : Bool := !s.tx.tState.terminal && t.tx.tState.terminal

/-- The harness's run over the next `commands` commands on the bus with `budget` ticks left (R137): it ends after the
SYS_TICK in which `t_state` becomes terminal, that tick having run all of its steps, or when no tick is left. A command
that is no SYS_TICK runs, takes no tick of the budget and ends nothing. -/
def runCommands : (commands budget : Nat) → State → StepOutcome
  | 0, _, s => .next s
  | _ + 1, 0, s => .next s
  | commands + 1, budget + 1, s =>
    if s.ticksNext then
      andThen (step s) fun t => if becomesTerminal s t then .next t else runCommands commands budget t
    else andThen (step s) (runCommands commands (budget + 1))

/-- A scenario with a tick budget (R137): its commands are those that wait on the bus, and it ends at the latest when they
have run (log entry 22). -/
def runScenario (budget : Nat) (s : State) : StepOutcome := runCommands s.bus.length budget s

end Sys2Proof.Machine
end

