-- ==== Sys2Proof/Safety.lean ====
section
/-! DEFINITION. What claims call a good state: the invariants that the spec derives (10_state.md R32, R35, R36, R37, R40,
R41, R42, R47, R50; 70_reset_and_hazards.md R166), and a run that does not stop. Each is decidable. -/

namespace Sys2Proof.Machine

/-- The invariants of a decoder instance: R32, R35, R36 (its size) and R37 (a) to (d). -/
abbrev Decoder.Ok (maxLen : Nat) (d : Decoder) : Prop :=
  d.dBuf.length = maxLen ∧
  d.dIdx.toNat ≤ d.dLen.toNat ∧
  (d.dState = .error ↔ d.dErr ≠ .none) ∧
  ((d.dState = .awaitPayload ∨ d.dState = .awaitChecksum ∨ d.dState = .awaitEnd ∨ d.dState = .done) →
    d.dLen.toNat ≤ maxLen) ∧
  (d.dState = .awaitPayload → d.dIdx.toNat < d.dLen.toNat) ∧
  ((d.dState = .awaitChecksum ∨ d.dState = .awaitEnd ∨ d.dState = .done) → d.dIdx = d.dLen) ∧
  ((d.dState = .awaitPayload ∨ d.dState = .awaitChecksum) →
    d.dCsum = checksumOver (d.dLen :: d.dBuf.take d.dIdx.toNat)) ∧
  (d.dState = .awaitLength → d.dCsum = 0x00 ∧ d.dIdx = 0x00)

/-- The invariants of the receiver: those of its decoder, which is never terminal between commands (R40), the size of
its buffer (R42), and the ready flag: while it is set, the last RX_STEP completed a frame and the port holds its result
(R41, R52, R121). -/
abbrev RxUnit.Ok (maxLen : Nat) (r : RxUnit) : Prop :=
  r.dec.Ok maxLen ∧
  r.dec.dState.terminal = false ∧
  r.rxOutBuf.length = maxLen ∧
  r.rxOutLen.toNat ≤ maxLen ∧
  (r.rxReady = true → r.resp = some (.payload r.outPayload))

/-- The invariants of the transmitter: R50, the size of `t_frame` and its contents while a session exists (R47), and a
deadline that fits its register (R46, R166). -/
abbrev TxUnit.Ok (cfg : UnitConfig) (t : TxUnit) : Prop :=
  t.tFrame.length = cfg.maxLen + 4 ∧
  t.tLen.toNat ≤ cfg.maxLen ∧
  (t.tState = .idle → t.tAttempts = 0) ∧
  (t.tState ≠ .idle → 1 ≤ t.tAttempts ∧ t.tAttempts ≤ cfg.maxAttempts) ∧
  (t.tState = .failed → t.tAttempts = cfg.maxAttempts) ∧
  (t.tState ≠ .idle → t.wire = frameBytes cfg ((t.tFrame.drop 2).take t.tLen.toNat)) ∧
  tickFits cfg.tickBits t.tDeadline = true

/-- The invariant of the block: well-formed parameters (R17) and the invariants of its three units. -/
abbrev State.Inv (s : State) : Prop :=
  s.params.wellFormed = true ∧
  s.codec.dec.Ok s.params.cfgCodec.maxLen ∧
  s.rx.Ok s.params.cfgRx.maxLen ∧
  s.tx.Ok s.params.cfgTx

/-- The state an outcome answers, if it is a next state. -/
def nextState? : StepOutcome → Option State
  | .next s => some s
  | .fault _ => none
  | .refused _ => none

/-- The refusal an outcome answers, if it is one. -/
def refusal? : StepOutcome → Option Refusal
  | .next _ => none
  | .fault _ => none
  | .refused r => some r

/-- The fault an outcome answers, if it is one. -/
def fault? : StepOutcome → Option Fault
  | .next _ => none
  | .fault f => some f
  | .refused _ => none

/-- A run of `n` commands is safe if none of them faults and none is refused (R142). -/
def State.SafeFor (n : Nat) (s : State) : Prop := ∃ t, Sys2Proof.core.run n s = .next t

end Sys2Proof.Machine
end

