-- ==== Sys2Proof/Certificates/Slice0/Obligations.lean ====
section
/-! DEFINITION. The statements for the provers. Each docstring names the rule of spec/ that the statement formalises.
A statement's quantifier over states ranges over every configuration too, since `State.params` holds it. -/

open Sys2Proof Sys2Proof.Machine

/-! ## Configuration -/

/-- 00_scope.md section 3 (R17) and 70_reset_and_hazards.md section 2 (R152): when a configuration record is well formed,
and that a block under an ill-formed one is refused. That one ill-formed record stops the commands of every unit, and
that `INVALID_CONFIG` comes before every other refusal of a command, is the model's choice (log entry 11). -/
def Obligations.ConfigurationCheckRefusesExactlyIllFormed : Prop :=
  (∀ c : UnitConfig, c.wellFormed = true ↔
    c.maxLen ≤ 255 ∧ 1 ≤ c.maxAttempts ∧ 0 ≤ c.timeoutTicks ∧ (c.nackEnable = true → c.ackByte ≠ c.nackByte)) ∧
  ∀ (i : Instr) (s : State),
    (s.params.cfgCodec.wellFormed = false ∨ s.params.cfgRx.wellFormed = false ∨ s.params.cfgTx.wellFormed = false) →
    exec i s = .refused .invalidConfig

/-- 00_scope.md section 3 (R19) and 10_state.md section 7 (R53): no step writes any field of the configuration, which the model
holds in `State.params` (log entry 2). -/
def Obligations.StepKeepsTheConfiguration : Prop :=
  ∀ s t : State, step s = .next t → t.params = s.params

/-! ## Command words -/

/-- R80: the word of every command, read by the decoder, and the reserved opcodes. -/
def Obligations.OpcodeTableIsDecoded : Prop :=
  decode 0x0000 = .command .nop ∧ decode 0x1000 = .command .csumClear ∧
  (∀ b : Byte, decode (0x2000 ||| b.setWidth 16) = .command (.csumAcc b)) ∧
  decode 0x3000 = .command .encode ∧
  (∀ b : Byte, decode (0x4000 ||| b.setWidth 16) = .command (.decPush b)) ∧
  decode 0x5000 = .command .decReset ∧ decode 0x6000 = .command .rxStep ∧
  decode 0x7000 = .command .rxReset ∧ decode 0x8000 = .command .txRequestSend ∧
  decode 0x9000 = .command .txStep ∧ decode 0xA000 = .command .txReset ∧
  decode 0xB000 = .command .sysReset ∧ decode 0xC000 = .command .sysTick ∧
  ∀ w : Word, 0xD000 ≤ w.toNat → decode w = .illegal .reservedOpcode

/-- R81: a word is illegal exactly in the three cases of the rule, whatever the state, and a step that meets one is
refused, so it changes no state; under a well-formed configuration the refusal is `ILLEGAL_COMMAND`. The fields are
written as arithmetic on the word's value. -/
def Obligations.IllegalWordsAreRefused : Prop :=
  ∀ w : Word,
    ((∃ e, decode w = .illegal e) ↔
      (13 ≤ w.toNat / 4096 ∨ w.toNat / 256 % 16 ≠ 0 ∨
        (w.toNat % 256 ≠ 0 ∧ w.toNat / 4096 ≠ 2 ∧ w.toNat / 4096 ≠ 4))) ∧
    ∀ (s : State) (p : Ports) (rest : List Issue), s.bus = { word := w, ports := p } :: rest →
      (13 ≤ w.toNat / 4096 ∨ w.toNat / 256 % 16 ≠ 0 ∨
        (w.toNat % 256 ≠ 0 ∧ w.toNat / 4096 ≠ 2 ∧ w.toNat / 4096 ≠ 4)) →
      ∃ r, step s = .refused r ∧ (s.params.wellFormed = true → ∃ e, r = .illegalCommand e)

/-- 30_encoding.md section 2 (R78 to R82): the decoder reads a command from a word exactly when the word is that
command's encoding, for every command and every byte operand. So no bit of an encoding is dropped, and no two words
mean the same command. -/
def Obligations.DecodeIsTheInverseOfEncode : Prop :=
  ∀ (w : Word) (i : Instr), decode w = .command i ↔ encode i = w

/-! ## A step -/

/-- R3, R67, R68: a step runs the command that the next word on the bus encodes, with what the environment put on the
ports. On an idle bus (the model's own form of R134's "idle command bus", log entry 3) it runs NOP. -/
def Obligations.StepRunsTheIssuedCommand : Prop :=
  (∀ (s : State) (iss : Issue) (rest : List Issue) (i : Instr),
    s.bus = iss :: rest → i.wellFormed = true → decode iss.word = .command i →
    step s = exec i { s with bus := rest, ports := iss.ports }) ∧
  ∀ s : State, s.bus = [] → step s = exec .nop s

/-- R134: NOP leaves every register, both channels and everything else unchanged, and the all-zero word is NOP. What a bus
with no command on it does is in `Obligations.StepRunsTheIssuedCommand`. -/
def Obligations.NopChangesNothing : Prop :=
  encode .nop = 0x0000 ∧ decode 0x0000 = .command .nop ∧
  ∀ s : State, s.params.wellFormed = true → exec .nop s = .next s

/-! ## Checksum accumulator -/

/-- R98: CSUM_CLEAR clears `codec.acc`, returns it, and changes nothing else. -/
def Obligations.CsumClearClearsTheAccumulator : Prop :=
  encode .csumClear = 0x1000 ∧
  ∀ s : State, s.params.wellFormed = true →
    exec .csumClear s = .next { s with codec := { s.codec with acc := 0x00, resp := some (.acc 0x00) } }

/-- R99: CSUM_ACC b combines b into `codec.acc`, returns it, and changes nothing else; with the rule's corner cases. -/
def Obligations.CsumAccCombinesTheByte : Prop :=
  (∀ b : Byte, encode (.csumAcc b) = 0x2000 ||| b.setWidth 16) ∧
  (∀ (b : Byte) (s : State), s.params.wellFormed = true →
    exec (.csumAcc b) s =
      .next { s with codec := { s.codec with acc := s.codec.acc ^^^ b, resp := some (.acc (s.codec.acc ^^^ b)) } }) ∧
  (∀ s t : State, exec (.csumAcc 0x00) s = .next t → t.codec.acc = s.codec.acc) ∧
  (∀ (b : Byte) (s t u : State), exec (.csumAcc b) s = .next t → exec (.csumAcc b) t = .next u →
    u.codec.acc = s.codec.acc) ∧
  ∀ s t : State, exec (.csumAcc 0xFF) s = .next t → t.codec.acc = ~~~s.codec.acc

/-- R95: the checksum is the running XOR of LENGTH and then each payload byte, from a cleared accumulator. -/
def Obligations.ChecksumIsRunningXor : Prop :=
  (∀ p : List Byte, p.length ≤ 255 → csum p = p.foldl (fun a b => a ^^^ b) (0x00 ^^^ BitVec.ofNat 8 p.length)) ∧
  csum [] = 0x00

/-- R96 (b) to (e): the laws of the accumulator. (a) holds by the type `Byte`. -/
def Obligations.ChecksumLaws : Prop :=
  (∀ p q : List Byte, p.Perm q → csum p = csum q) ∧
  (∀ x : Byte, accCombine x x = 0x00 ∧ accCombine x 0x00 = x) ∧
  (∀ (region : List Byte) (k : Nat) (x y : Byte), region[k]? = some x →
    checksumOver (region.set k y) = checksumOver region ^^^ (x ^^^ y) ∧
    (x ≠ y → checksumOver (region.set k y) ≠ checksumOver region)) ∧
  ∀ (region : List Byte) (j k : Nat) (x y : Byte) (bit : Nat), j ≠ k →
    region[j]? = some x → region[k]? = some y → bit < 8 →
    checksumOver ((region.set j (x ^^^ (1#8 <<< bit))).set k (y ^^^ (1#8 <<< bit))) = checksumOver region

/-! ## Encoder -/

/-- R100: what the encoder function gives, in both cases; L fits the LENGTH byte. -/
def Obligations.EncodeFunctionFollowsItsRule : Prop :=
  ∀ (cfg : UnitConfig) (p : List Byte), cfg.wellFormed = true →
    (cfg.maxLen < p.length → encodeFrame cfg p = .payloadTooLarge) ∧
    (p.length ≤ cfg.maxLen →
      encodeFrame cfg p = .frame ([cfg.startByte, BitVec.ofNat 8 p.length] ++ p ++
        [p.foldl (fun a b => a ^^^ b) (0x00 ^^^ BitVec.ofNat 8 p.length), cfg.endByte]) ∧
      (BitVec.ofNat 8 p.length).toNat = p.length ∧
      ∀ f, encodeFrame cfg p = .frame f → f.length = p.length + 4)

/-- R101: ENCODE returns the encoder's result for the payload on the payload port under `cfg_codec`, and changes no
register of any unit. -/
def Obligations.EncodeReturnsTheFrameOnly : Prop :=
  encode .encode = 0x3000 ∧
  ∀ s : State, s.params.wellFormed = true →
    (s.params.cfgCodec.maxLen < s.ports.payload.length →
      exec .encode s = .next { s with codec := { s.codec with resp := some (.encoded .payloadTooLarge) } }) ∧
    (s.ports.payload.length ≤ s.params.cfgCodec.maxLen →
      ∃ f, exec .encode s = .next { s with codec := { s.codec with resp := some (.encoded (.frame f)) } } ∧
        encodeFrame s.params.cfgCodec s.ports.payload = .frame f ∧ f.length = s.ports.payload.length + 4)

/-- R73: the wire format, offset by offset. -/
def Obligations.FrameHasTheWireFormat : Prop :=
  ∀ (cfg : UnitConfig) (p f : List Byte), cfg.wellFormed = true → encodeFrame cfg p = .frame f →
    f.length = p.length + 4 ∧
    f[0]? = some cfg.startByte ∧
    (∃ l, f[1]? = some l ∧ l.toNat = p.length ∧ l.toNat ≤ cfg.maxLen) ∧
    (∀ k, k < p.length → f[2 + k]? = p[k]?) ∧
    f[2 + p.length]? = some (p.foldl (fun a b => a ^^^ b) (BitVec.ofNat 8 p.length)) ∧
    f[3 + p.length]? = some cfg.endByte

/-! ## Decoder -/

/-- R104: a byte in AWAIT_START. -/
def Obligations.DecoderAwaitStartRule : Prop :=
  ∀ (cfg : UnitConfig) (d : Decoder) (b : Byte), d.dState = .awaitStart →
    (b = cfg.startByte →
      d.push cfg b = ({ d with dCsum := 0x00, dIdx := 0x00, dState := .awaitLength }, .pending)) ∧
    (b ≠ cfg.startByte → d.push cfg b = (d, .pending))

/-- R105: a byte in AWAIT_LENGTH. -/
def Obligations.DecoderAwaitLengthRule : Prop :=
  ∀ (cfg : UnitConfig) (d : Decoder) (b : Byte), d.dState = .awaitLength →
    (cfg.maxLen < b.toNat → d.push cfg b =
      ({ d with dLen := b, dCsum := d.dCsum ^^^ b, dState := .error, dErr := .lengthExceedsLimit },
        .invalid .lengthExceedsLimit)) ∧
    (b.toNat ≤ cfg.maxLen → b = 0x00 → d.push cfg b =
      ({ d with dLen := b, dCsum := d.dCsum ^^^ b, dState := .awaitChecksum }, .pending)) ∧
    (b.toNat ≤ cfg.maxLen → b ≠ 0x00 → d.push cfg b =
      ({ d with dLen := b, dCsum := d.dCsum ^^^ b, dState := .awaitPayload }, .pending))

/-- R106: a byte in AWAIT_PAYLOAD, at an index that is in the buffer (R32, R37 (a) and (b)). -/
def Obligations.DecoderAwaitPayloadRule : Prop :=
  ∀ (cfg : UnitConfig) (d : Decoder) (b : Byte), d.dState = .awaitPayload → d.Ok cfg.maxLen →
    ∃ d', d.push cfg b = (d', .pending) ∧
      d'.dBuf[d.dIdx.toNat]? = some b ∧
      (∀ k, k ≠ d.dIdx.toNat → d'.dBuf[k]? = d.dBuf[k]?) ∧
      d'.dCsum = d.dCsum ^^^ b ∧
      d'.dIdx.toNat = d.dIdx.toNat + 1 ∧
      (d'.dIdx = d.dLen → d'.dState = .awaitChecksum) ∧
      (d'.dIdx ≠ d.dLen → d'.dState = .awaitPayload) ∧
      d'.dLen = d.dLen ∧ d'.dRxcsum = d.dRxcsum ∧ d'.dErr = d.dErr

/-- R107: a byte in AWAIT_CHECKSUM. -/
def Obligations.DecoderAwaitChecksumRule : Prop :=
  ∀ (cfg : UnitConfig) (d : Decoder) (b : Byte), d.dState = .awaitChecksum →
    (b ≠ d.dCsum → d.push cfg b =
      ({ d with dRxcsum := b, dState := .error, dErr := .checksumMismatch }, .invalid .checksumMismatch)) ∧
    (b = d.dCsum → d.push cfg b = ({ d with dRxcsum := b, dState := .awaitEnd }, .pending))

/-- R108: a byte in AWAIT_END. -/
def Obligations.DecoderAwaitEndRule : Prop :=
  ∀ (cfg : UnitConfig) (d : Decoder) (b : Byte), d.dState = .awaitEnd →
    (b = cfg.endByte → d.push cfg b = ({ d with dState := .done }, .valid (d.dBuf.take d.dLen.toNat))) ∧
    (b ≠ cfg.endByte → d.push cfg b =
      ({ d with dState := .error, dErr := .unexpectedEnd }, .invalid .unexpectedEnd))

/-- R109 with R111: a byte in DONE or ERROR, under both policies. -/
def Obligations.DecoderTerminalRule : Prop :=
  ∀ (cfg : UnitConfig) (d : Decoder) (b : Byte), d.dState = .done ∨ d.dState = .error →
    (cfg.decTerminalPolicy = .discard → d.push cfg b = (d, .pending)) ∧
    (cfg.decTerminalPolicy = .autoReset →
      d.push cfg b = Decoder.push cfg
        { dState := .awaitStart, dLen := 0x00, dIdx := 0x00, dCsum := 0x00, dRxcsum := 0x00, dErr := .none,
          dBuf := d.dBuf } b)

/-- R112: DEC_PUSH b applies the transition function to `codec.dec` under `cfg_codec`, returns the verdict, and changes
nothing else. Which registers and which verdict the function gives is stated rule by rule (R104 to R109) above. -/
def Obligations.DecPushAppliesTheTransition : Prop :=
  (∀ b : Byte, encode (.decPush b) = 0x4000 ||| b.setWidth 16) ∧
  ∀ (b : Byte) (s : State) (d : Decoder) (v : Verdict), s.params.wellFormed = true →
    s.codec.dec.push s.params.cfgCodec b = (d, v) →
    exec (.decPush b) s = .next { s with codec := { s.codec with dec := d, resp := some (.verdict v) } }

/-- R113 with R111: DEC_RESET, in every state. It returns no result: what stands on the response port afterwards is left
open here, and stated as the model's choice in `Obligations.ResetsLeaveTheModelsOwnFields`. -/
def Obligations.DecResetResetsTheDecoder : Prop :=
  encode .decReset = 0x5000 ∧
  ∀ s : State, s.params.wellFormed = true →
    ∃ r, exec .decReset s = .next { s with codec := { s.codec with
      dec := { dState := .awaitStart, dLen := 0x00, dIdx := 0x00, dCsum := 0x00, dRxcsum := 0x00, dErr := .none,
               dBuf := s.codec.dec.dBuf }
      resp := r } }

/-- R102: the round trip. Every frame that the encoder makes is decoded, byte by byte, back to its payload. -/
def Obligations.DecodingAnEncodedFrameGivesThePayload : Prop :=
  ∀ (cfg : UnitConfig) (d : Decoder) (p f : List Byte), cfg.wellFormed = true →
    d.dState = .awaitStart → d.dBuf.length = cfg.maxLen → encodeFrame cfg p = .frame f →
    (d.pushAll cfg f).2 = List.replicate (p.length + 3) .pending ++ [.valid p] ∧ (d.pushAll cfg f).1.dState = .done

/-- R114: a frame without its END byte leaves the decoder in AWAIT_END with every verdict PENDING; another byte there
that is not END is UNEXPECTED_END. -/
def Obligations.TruncatedFrameStaysPending : Prop :=
  ∀ (cfg : UnitConfig) (d : Decoder) (p f : List Byte), cfg.wellFormed = true →
    d.dState = .awaitStart → d.dBuf.length = cfg.maxLen → encodeFrame cfg p = .frame f →
    (d.pushAll cfg f.dropLast).2 = List.replicate (p.length + 3) .pending ∧
    (d.pushAll cfg f.dropLast).1.dState = .awaitEnd ∧
    ∀ b, b ≠ cfg.endByte →
      (d.pushAll cfg (f.dropLast ++ [b])).2 = List.replicate (p.length + 3) .pending ++ [.invalid .unexpectedEnd]

/-- R115: noise without a START byte changes no register, yields only PENDING and does not affect what follows. -/
def Obligations.NoiseBeforeStartIsIgnored : Prop :=
  ∀ (cfg : UnitConfig) (d : Decoder) (noise rest : List Byte), d.dState = .awaitStart → cfg.startByte ∉ noise →
    d.pushAll cfg noise = (d, List.replicate noise.length .pending) ∧
    d.pushAll cfg (noise ++ rest) =
      ((d.pushAll cfg rest).1, List.replicate noise.length .pending ++ (d.pushAll cfg rest).2)

/-- R116: one changed payload byte, or a changed CHECKSUM byte, of an otherwise valid frame is always reported on the
CHECKSUM byte, and the frame is never VALID. -/
def Obligations.PayloadCorruptionIsDetected : Prop :=
  ∀ (cfg : UnitConfig) (d : Decoder) (p f : List Byte) (k : Nat) (x y : Byte), cfg.wellFormed = true →
    d.dState = .awaitStart → d.dBuf.length = cfg.maxLen → encodeFrame cfg p = .frame f →
    k ≤ p.length → f[2 + k]? = some x → x ≠ y →
    (d.pushAll cfg (f.set (2 + k) y)).2 =
      List.replicate (p.length + 2) .pending ++ [.invalid .checksumMismatch, .pending]

/-- R118: a LENGTH byte above the limit is reported on that byte; and a decoder that has taken a START byte reaches a
verdict within `MAX_LEN + 3` further bytes, so it is never permanently desynchronised. -/
def Obligations.DecoderReachesAVerdictInBoundedTime : Prop :=
  (∀ (cfg : UnitConfig) (d : Decoder) (b : Byte), d.dState = .awaitLength → cfg.maxLen < b.toNat →
    (d.push cfg b).2 = .invalid .lengthExceedsLimit ∧ (d.push cfg b).1.dBuf = d.dBuf) ∧
  ∀ (cfg : UnitConfig) (d : Decoder) (bs : List Byte), cfg.wellFormed = true → d.Ok cfg.maxLen →
    d.dState = .awaitLength → cfg.maxLen + 3 ≤ bs.length →
    ∃ v ∈ (d.pushAll cfg (bs.take (cfg.maxLen + 3))).2, v ≠ .pending

/-! ## Receiver -/

/-- R119: the handling of a Valid verdict, where `RET` has room, with the whole next state. What `RET` receives is what the
environment's draw leaves of the ACK (R65). -/
def Obligations.ValidVerdictIsLatchedAndAcknowledged : Prop :=
  ∀ (s : State) (p : List Byte), p.length ≤ s.rx.rxOutBuf.length → s.rx.rxOutBuf.length ≤ 255 →
    (∀ n, s.params.chanDepth = some n → s.env.ret.length < n) →
    (BitVec.ofNat 8 p.length).toNat = p.length ∧
    rxValid p s = .next { s with
      rx := { s.rx with
        rxOutBuf := p ++ s.rx.rxOutBuf.drop p.length
        rxOutLen := BitVec.ofNat 8 p.length
        rxReady := true
        dec := { s.rx.dec with dState := .awaitStart, dLen := 0x00, dIdx := 0x00, dCsum := 0x00, dRxcsum := 0x00,
                               dErr := .none } }
      env := { s.env with ret := s.env.ret ++ drawn s.ports.retDraws s.params.cfgRx.ackByte }
      ports := { s.ports with retDraws := s.ports.retDraws.tail } }

/-- R120: the handling of an Invalid verdict, where `RET` has room for the NACK. -/
def Obligations.InvalidVerdictIsRecordedAndResynchronised : Prop :=
  ∀ (s : State) (r : Reason),
    (s.params.cfgRx.nackEnable = false →
      rxInvalid r s = .next { s with rx := { s.rx with
        rxLastErr := r
        dec := { s.rx.dec with dState := .awaitStart, dLen := 0x00, dIdx := 0x00, dCsum := 0x00, dRxcsum := 0x00,
                               dErr := .none } } }) ∧
    (s.params.cfgRx.nackEnable = true → (∀ n, s.params.chanDepth = some n → s.env.ret.length < n) →
      rxInvalid r s = .next { s with
        rx := { s.rx with
          rxLastErr := r
          dec := { s.rx.dec with dState := .awaitStart, dLen := 0x00, dIdx := 0x00, dCsum := 0x00, dRxcsum := 0x00,
                                 dErr := .none } }
        env := { s.env with ret := s.env.ret ++ drawn s.ports.retDraws s.params.cfgRx.nackByte }
        ports := { s.ports with retDraws := s.ports.retDraws.tail } })

/-- 43_receiver.md section 2 (R121): the loop of RX_STEP, byte by byte. `FWD` empty; a PENDING byte; an Invalid verdict; a
Valid verdict; each under both policies. -/
def Obligations.RxStepTakesBytesInOrder : Prop :=
  encode .rxStep = 0x6000 ∧
  ∀ s : State, s.params.wellFormed = true →
    (s.env.fwd = [] →
      exec .rxStep s = .next { s with rx := { s.rx with rxReady := false, resp := some .nothing } }) ∧
    ∀ (b : Byte) (rest : List Byte) (d : Decoder) (v : Verdict) (u : State), s.env.fwd = b :: rest →
      s.rx.dec.push s.params.cfgRx b = (d, v) →
      u = { s with env := { s.env with fwd := rest }, rx := { s.rx with rxReady := false, dec := d } } →
      (∀ p, v = .valid p → exec .rxStep s = andThen (rxValid p u) fun t =>
        .next { t with rx := { t.rx with resp := some (.payload (t.rx.rxOutBuf.take t.rx.rxOutLen.toNat)) } }) ∧
      (v = .pending → s.params.cfgRx.rxPolicy = .one →
        exec .rxStep s = .next { u with rx := { u.rx with resp := some .nothing } }) ∧
      (v = .pending → s.params.cfgRx.rxPolicy = .all → exec .rxStep s = exec .rxStep u) ∧
      (∀ r, v = .invalid r → s.params.cfgRx.rxPolicy = .one → exec .rxStep s = andThen (rxInvalid r u) fun t =>
        .next { t with rx := { t.rx with resp := some .nothing } }) ∧
      (∀ r, v = .invalid r → s.params.cfgRx.rxPolicy = .all →
        exec .rxStep s = andThen (rxInvalid r u) (exec .rxStep))

/-- 43_receiver.md (R121), its frame: RX_STEP completes in every state in which `RET` has room for one byte per byte of
`FWD`; it changes the receiver unit, pops from `FWD`, appends to `RET`, and touches nothing of another unit. -/
def Obligations.RxStepCompletesAndTouchesOnlyTheReceiver : Prop :=
  ∀ s : State, s.params.wellFormed = true →
    (∀ n, s.params.chanDepth = some n → s.env.ret.length + s.env.fwd.length ≤ n) →
    ∃ t, exec .rxStep s = .next t ∧
      t.codec = s.codec ∧ t.tx = s.tx ∧ t.params = s.params ∧ t.bus = s.bus ∧
      t.env.now = s.env.now ∧ t.env.delivered = s.env.delivered ∧
      t.ports.payload = s.ports.payload ∧ t.ports.tick = s.ports.tick ∧ t.ports.req = s.ports.req ∧
      t.ports.fwdDraws = s.ports.fwdDraws ∧
      (∃ taken, s.env.fwd = taken ++ t.env.fwd) ∧
      (∃ written, t.env.ret = s.env.ret ++ written) ∧
      (t.rx.rxReady = true → t.rx.resp = some (.payload (t.rx.rxOutBuf.take t.rx.rxOutLen.toNat))) ∧
      (t.rx.rxReady = false → t.rx.resp = some .nothing ∧ t.rx.rxOutBuf = s.rx.rxOutBuf ∧
        t.rx.rxOutLen = s.rx.rxOutLen)

/-- R14, R121: under ONE at most one byte is taken; under ALL every byte is taken unless a Valid verdict ends the step. -/
def Obligations.RxPolicyBoundsTheBytesTaken : Prop :=
  ∀ s t : State, exec .rxStep s = .next t →
    (s.params.cfgRx.rxPolicy = .one → t.env.fwd = s.env.fwd.drop 1) ∧
    (s.params.cfgRx.rxPolicy = .all → t.rx.rxReady = false → t.env.fwd = [])

/-- R124: without perturbation and without NACK, RX_STEP writes one ACK byte exactly when it reaches a Valid verdict, and
nothing else; with NACK enabled it writes NACK bytes before it, one per Invalid verdict. -/
def Obligations.OneAckPerValidFrame : Prop :=
  ∀ s t : State, exec .rxStep s = .next t → s.ports.retDraws = [] →
    (s.params.cfgRx.nackEnable = false →
      t.env.ret = s.env.ret ++ (if t.rx.rxReady then [s.params.cfgRx.ackByte] else [])) ∧
    (s.params.cfgRx.nackEnable = true → ∃ k,
      t.env.ret = s.env.ret ++ List.replicate k s.params.cfgRx.nackByte ++
        (if t.rx.rxReady then [s.params.cfgRx.ackByte] else []))

/-- 43_receiver.md (R115, R119, R121, R125): under ALL, a receiver that awaits START and finds noise and then a frame in
`FWD` exposes the payload, acknowledges it, and leaves the bytes after the frame. It does so for every frame, a
repeated one too. -/
def Obligations.ReceiverDeliversTheFrame : Prop :=
  ∀ (s : State) (p f noise rest : List Byte), s.Inv →
    s.params.cfgRx.rxPolicy = .all → s.params.chanDepth = none → s.ports.retDraws = [] →
    s.rx.dec.dState = .awaitStart → s.params.cfgRx.startByte ∉ noise →
    encodeFrame s.params.cfgRx p = .frame f → s.env.fwd = noise ++ f ++ rest →
    ∃ t, exec .rxStep s = .next t ∧ t.rx.resp = some (.payload p) ∧ t.rx.rxReady = true ∧
      t.env.fwd = rest ∧ t.env.ret = s.env.ret ++ [s.params.cfgRx.ackByte] ∧ t.rx.dec.dState = .awaitStart ∧
      t.rx.rxLastErr = s.rx.rxLastErr

/-- R122: RX_RESET. It returns no result: what stands on the response port afterwards is left open here, and stated as the
model's choice in `Obligations.ResetsLeaveTheModelsOwnFields`. -/
def Obligations.RxResetDropsThePartialFrame : Prop :=
  encode .rxReset = 0x7000 ∧
  ∀ s : State, s.params.wellFormed = true →
    ∃ r, exec .rxReset s = .next { s with rx := { s.rx with
      dec := { dState := .awaitStart, dLen := 0x00, dIdx := 0x00, dCsum := 0x00, dRxcsum := 0x00, dErr := .none,
               dBuf := s.rx.dec.dBuf }
      rxReady := false, rxLastErr := .none, resp := r } }

/-! ## Transmitter -/

/-- R128: TX_REQUEST_SEND in its three cases: NOT_IDLE first, then the size, then acceptance. -/
def Obligations.RequestSendAcceptsOnlyFromIdle : Prop :=
  encode .txRequestSend = 0x8000 ∧
  ∀ s : State, s.params.wellFormed = true →
    (s.tx.tState ≠ .idle →
      exec .txRequestSend s = .next { s with tx := { s.tx with
        tReqResult := .notIdle, resp := some (.request .notIdle) } }) ∧
    (s.tx.tState = .idle → s.params.cfgTx.maxLen < s.ports.payload.length →
      exec .txRequestSend s = .next { s with tx := { s.tx with
        tReqResult := .payloadTooLarge, resp := some (.request .payloadTooLarge) } }) ∧
    (s.tx.tState = .idle → s.ports.payload.length ≤ s.params.cfgTx.maxLen →
      s.tx.tFrame.length = s.params.cfgTx.maxLen + 4 →
      ∃ t, exec .txRequestSend s = .next t ∧
        encodeFrame s.params.cfgTx s.ports.payload = .frame (t.tx.tFrame.take (s.ports.payload.length + 4)) ∧
        t.tx.tFrame.length = s.tx.tFrame.length ∧
        (∀ k, s.ports.payload.length + 4 ≤ k → t.tx.tFrame[k]? = s.tx.tFrame[k]?) ∧
        t.tx.tLen.toNat = s.ports.payload.length ∧ t.tx.tAttempts = s.tx.tAttempts + 1 ∧
        t.tx.tState = .sending ∧ t.tx.tReqResult = .accepted ∧ t.tx.resp = some (.request .accepted) ∧
        t.tx.tDeadline = s.tx.tDeadline ∧ t.tx.tLastNow = s.tx.tLastNow ∧
        t.codec = s.codec ∧ t.rx = s.rx ∧ t.env = s.env ∧ t.params = s.params ∧ t.ports = s.ports ∧ t.bus = s.bus)

/-- R126: TX_STEP in SENDING, at a tick that does not go backwards, with room in `FWD`. Where the deadline fits, the whole
frame is written, the deadline set, and nothing else changed; where it does not, the step is refused. -/
def Obligations.TxStepTransmitsTheWholeFrame : Prop :=
  ∀ s : State, s.params.wellFormed = true → s.tx.tState = .sending → s.tx.tLastNow ≤ s.ports.tick →
    (∀ n, s.params.chanDepth = some n → s.env.fwd.length + (s.tx.tLen.toNat + 4) ≤ n) →
    s.tx.tFrame.length = s.params.cfgTx.maxLen + 4 → s.tx.tLen.toNat ≤ s.params.cfgTx.maxLen →
    (s.params.cfgTx.tickBits = .unbounded ∨
      (∃ n hn, s.params.cfgTx.tickBits = .finite n hn ∧ s.ports.tick + s.params.cfgTx.timeoutTicks < 2 ^ n) →
      exec .txStep s = .next { s with
        tx := { s.tx with
          tState := .awaitingAck, tDeadline := s.ports.tick + s.params.cfgTx.timeoutTicks
          tLastNow := s.ports.tick, resp := some (.status .pending) }
        env := { s.env with fwd := s.env.fwd ++ perturb s.ports.fwdDraws (s.tx.tFrame.take (s.tx.tLen.toNat + 4)) }
        ports := { s.ports with fwdDraws := s.ports.fwdDraws.drop (s.tx.tLen.toNat + 4) } }) ∧
    ∀ n hn, s.params.cfgTx.tickBits = .finite n hn → 2 ^ n ≤ s.ports.tick + s.params.cfgTx.timeoutTicks →
      exec .txStep s = .refused .tickOverflow

/-- R127: TX_STEP in AWAITING_ACK: ACK, NACK, reached deadline, other byte, empty channel, with the attempts left or
spent. -/
def Obligations.TxStepAwaitsTheAcknowledgment : Prop :=
  ∀ (s : State) (retry fail : List Byte → State) (stay : List Byte → State), s.params.wellFormed = true →
    s.tx.tState = .awaitingAck → s.tx.tLastNow ≤ s.ports.tick →
    (∀ q, retry q = { s with
      tx := { s.tx with tState := .sending, tAttempts := s.tx.tAttempts + 1, tLastNow := s.ports.tick,
                        resp := some (.status .pending) }
      env := { s.env with ret := q } }) →
    (∀ q, fail q = { s with
      tx := { s.tx with tState := .failed, tLastNow := s.ports.tick, resp := some (.status .failed) }
      env := { s.env with ret := q } }) →
    (∀ q, stay q = { s with
      tx := { s.tx with tLastNow := s.ports.tick, resp := some (.status .pending) }
      env := { s.env with ret := q } }) →
    (s.env.ret = [] →
      (s.ports.tick < s.tx.tDeadline → exec .txStep s = .next (stay [])) ∧
      (s.tx.tDeadline ≤ s.ports.tick → s.tx.tAttempts < s.params.cfgTx.maxAttempts →
        exec .txStep s = .next (retry [])) ∧
      (s.tx.tDeadline ≤ s.ports.tick → s.params.cfgTx.maxAttempts ≤ s.tx.tAttempts →
        exec .txStep s = .next (fail []))) ∧
    ∀ (b : Byte) (rest : List Byte), s.env.ret = b :: rest →
      (b = s.params.cfgTx.ackByte → exec .txStep s = .next { s with
        tx := { s.tx with tState := .succeeded, tLastNow := s.ports.tick, resp := some (.status .succeeded) }
        env := { s.env with ret := rest } }) ∧
      (b ≠ s.params.cfgTx.ackByte →
        ((s.params.cfgTx.nackEnable = true ∧ b = s.params.cfgTx.nackByte) ∨ s.tx.tDeadline ≤ s.ports.tick) →
        (s.tx.tAttempts < s.params.cfgTx.maxAttempts → exec .txStep s = .next (retry rest)) ∧
        (s.params.cfgTx.maxAttempts ≤ s.tx.tAttempts → exec .txStep s = .next (fail rest))) ∧
      (b ≠ s.params.cfgTx.ackByte → (s.params.cfgTx.nackEnable = false ∨ b ≠ s.params.cfgTx.nackByte) →
        s.ports.tick < s.tx.tDeadline → exec .txStep s = .next (stay rest))

/-- R129: TX_STEP in IDLE, SUCCEEDED and FAILED changes no register but the ghost tick and no channel, and returns the
status (R51). -/
def Obligations.TxStepIsPassiveWithoutASession : Prop :=
  encode .txStep = 0x9000 ∧
  ∀ (s : State) (st : TxStatus), s.params.wellFormed = true → s.tx.tLastNow ≤ s.ports.tick →
    (s.tx.tState = .idle ∧ st = .idle ∨ s.tx.tState = .succeeded ∧ st = .succeeded ∨
      s.tx.tState = .failed ∧ st = .failed) →
    exec .txStep s = .next { s with tx := { s.tx with tLastNow := s.ports.tick, resp := some (.status st) } }

/-- R165: a tick that goes backwards is refused, for TX_STEP and for SYS_TICK. -/
def Obligations.DecreasingTickIsRefused : Prop :=
  ∀ s : State, s.params.wellFormed = true →
    (s.ports.tick < s.tx.tLastNow → exec .txStep s = .refused .nonMonotoneTick) ∧
    (s.env.now < s.tx.tLastNow → exec .sysTick s = .refused .nonMonotoneTick)

/-- R166: with a finite `TICK_BITS` and room in `FWD`, TX_STEP in SENDING is refused exactly when the deadline is
`2^TICK_BITS` or more, and SYS_TICK is refused then too. -/
def Obligations.DeadlineOverflowIsRefused : Prop :=
  ∀ (s : State) (n : Nat) (hn : 0 < n), s.params.wellFormed = true → s.params.cfgTx.tickBits = .finite n hn →
    s.tx.tState = .sending →
    (∀ d, s.params.chanDepth = some d → s.env.fwd.length + (s.tx.tLen.toNat + 4) ≤ d) →
    (s.tx.tLastNow ≤ s.ports.tick →
      (exec .txStep s = .refused .tickOverflow ↔ 2 ^ n ≤ s.ports.tick + s.params.cfgTx.timeoutTicks)) ∧
    (s.tx.tLastNow ≤ s.env.now → 2 ^ n ≤ s.env.now + s.params.cfgTx.timeoutTicks →
      exec .sysTick s = .refused .tickOverflow)

/-- 20_memory.md R64: a push never fails on an unbounded channel; on a bounded one it is a fault exactly when the channel is
full, so no byte is dropped by the block. That the fault does not depend on the environment's draw for the byte is the
model's choice (log entry 6). -/
def Obligations.FullChannelFaults : Prop :=
  ∀ (s : State) (b : Byte),
    (s.params.chanDepth = none → (∃ t, s.pushFwd b = .next t) ∧ ∃ t, s.pushRet b = .next t) ∧
    ∀ n, s.params.chanDepth = some n →
      (n ≤ s.env.fwd.length → s.pushFwd b = .fault .channelOverflow) ∧
      (s.env.fwd.length < n → ∃ t, s.pushFwd b = .next t) ∧
      (n ≤ s.env.ret.length → s.pushRet b = .fault .channelOverflow) ∧
      (s.env.ret.length < n → ∃ t, s.pushRet b = .next t)

/-- 20_memory.md R65: what the environment's draws leave of the pushed bytes. Nothing is perturbed without draws; a byte
is delivered, dropped or replaced in its place, so the order is kept and nothing is duplicated or inserted. -/
def Obligations.DrawsDeliverDropOrReplace : Prop :=
  (∀ bs : List Byte, perturb [] bs = bs) ∧
  (∀ (ds : List Draw) (b : Byte) (bs : List Byte),
    perturb (.deliver :: ds) (b :: bs) = b :: perturb ds bs ∧
    perturb (.drop :: ds) (b :: bs) = perturb ds bs ∧
    ∀ v, perturb (.replace v :: ds) (b :: bs) = v :: perturb ds bs) ∧
  (∀ (ds : List Draw) (bs : List Byte), (∀ d ∈ ds, d = .deliver ∨ d = .drop) → (perturb ds bs).Sublist bs) ∧
  ∀ (ds : List Draw) (as bs : List Byte),
    perturb ds (as ++ bs) = perturb ds as ++ perturb (ds.drop as.length) bs

/-- R130: TX_RESET from any state. It returns no result: what stands on the response port afterwards is left open here, and
stated as the model's choice in `Obligations.ResetsLeaveTheModelsOwnFields`. -/
def Obligations.TxResetForcesIdle : Prop :=
  encode .txReset = 0xA000 ∧ Instr.txAbort = .txReset ∧
  ∀ s : State, s.params.wellFormed = true →
    ∃ r, exec .txReset s = .next { s with tx := {
      tState := .idle, tAttempts := 0, tDeadline := 0, tLen := 0x00
      tFrame := List.replicate s.tx.tFrame.length 0x00, tReqResult := .none
      tLastNow := s.tx.tLastNow, resp := r } }

/-- R131, the counting: a command other than SYS_TICK (which runs several) changes the counter only by entering SENDING,
where it adds exactly 1, or by a reset to 0; and FAILED is entered only from AWAITING_ACK with all attempts spent. -/
def Obligations.AttemptsCountEntriesToSending : Prop :=
  ∀ (i : Instr) (s t : State), s.Inv → i ≠ .sysTick → exec i s = .next t →
    (s.tx.tState ≠ .sending → t.tx.tState = .sending → t.tx.tAttempts = s.tx.tAttempts + 1) ∧
    (t.tx.tAttempts ≠ s.tx.tAttempts →
      (t.tx.tState = .sending ∧ s.tx.tState ≠ .sending) ∨ i = .txReset ∨ i = .sysReset) ∧
    (s.tx.tState ≠ .failed → t.tx.tState = .failed →
      i = .txStep ∧ s.tx.tState = .awaitingAck ∧ t.tx.tAttempts = s.params.cfgTx.maxAttempts)

/-- R71 (with R47): once captured, the outstanding frame is not changed by any command but the two resets, SYS_TICK
included; so every retransmission sends the same bytes. -/
def Obligations.OutstandingFrameIsNeverChanged : Prop :=
  ∀ (i : Instr) (s t : State), s.tx.tState ≠ .idle → i ≠ .txReset → i ≠ .sysReset → exec i s = .next t →
    t.tx.tFrame = s.tx.tFrame ∧ t.tx.tLen = s.tx.tLen ∧ t.tx.wire = s.tx.wire

/-- R140 for the transmitter, with SUCCEEDED as R129 says ("are terminal"): only TX_RESET and SYS_RESET leave a terminal
state, and the final count is kept (R45). -/
def Obligations.TerminalSessionNeedsAReset : Prop :=
  ∀ (i : Instr) (s t : State), s.tx.tState = .succeeded ∨ s.tx.tState = .failed → exec i s = .next t →
    i ≠ .txReset → i ≠ .sysReset → t.tx.tState = s.tx.tState ∧ t.tx.tAttempts = s.tx.tAttempts

/-- 44_transmitter.md section 3 (R132, its last sentence): a session whose every acknowledgment is lost is still waiting
before tick `s1 + MAX_ATTEMPTS * TIMEOUT_TICKS + (MAX_ATTEMPTS - 1)` and FAILED at it, with all attempts counted. `FWD`
may be perturbed in any way. For `TIMEOUT_TICKS = 0` a timeout takes one tick, as R127 and R129 have it and R132 does
not: there the statement follows the model's reading (log entry 9). -/
def Obligations.UnacknowledgedSessionFailsOnTime : Prop :=
  ∀ (s : State) (p : List Byte) (firstDraws : List Draw) (draws : List (List Draw)), s.Inv →
    s.tx.tState = .idle → s.env.ret = [] → s.tx.tLastNow ≤ s.env.now → p.length ≤ s.params.cfgTx.maxLen →
    s.params.cfgRx.nackEnable = false → s.params.chanDepth = none → s.params.cfgTx.tickBits = .unbounded →
    draws.length =
      s.params.cfgTx.maxAttempts * max 1 s.params.cfgTx.timeoutTicks + (s.params.cfgTx.maxAttempts - 1) →
    s.bus = tickIssue (some p) firstDraws [.drop] :: draws.map (fun f => tickIssue none f [.drop]) →
    (∃ t, Sys2Proof.core.run draws.length s = .next t ∧ t.tx.tState = .awaitingAck) ∧
    ∃ t, Sys2Proof.core.run (draws.length + 1) s = .next t ∧ t.tx.tState = .failed ∧
      t.tx.tAttempts = s.params.cfgTx.maxAttempts ∧ t.env.now = s.env.now + draws.length + 1

/-- 44_transmitter.md section 3 (R133), under both policies: when the frame or the ACK of each of the first
`losses.length` transmissions is lost (true: its ACK; false: all of its frame bytes) and the next transmission and its
ACK are delivered, the session succeeds with one attempt more than the losses, one tick (ALL) or L + 4 ticks (ONE, with
`TIMEOUT_TICKS >= L + 4`) after that transmission and not before, and the payload has reached the application once for
each frame that arrived. For `TIMEOUT_TICKS = 0` a timeout takes one tick (log entry 9). -/
def Obligations.SessionSucceedsAfterLosses : Prop :=
  ∀ (s : State) (p : List Byte) (losses : List Bool) (wait : Nat) (ticks : List Issue), s.Inv →
    s.tx.tState = .idle → s.env.fwd = [] → s.env.ret = [] → s.rx.dec.dState = .awaitStart →
    s.tx.tLastNow ≤ s.env.now → s.params.chanDepth = none → s.params.cfgTx.tickBits = .unbounded →
    (s.params.cfgRx.rxPolicy = .all ∧ wait = 1 ∨
      s.params.cfgRx.rxPolicy = .one ∧ wait = p.length + 4 ∧ p.length + 4 ≤ s.params.cfgTx.timeoutTicks) →
    s.params.cfgRx.nackEnable = false →
    s.params.cfgRx.startByte = s.params.cfgTx.startByte → s.params.cfgRx.endByte = s.params.cfgTx.endByte →
    s.params.cfgRx.ackByte = s.params.cfgTx.ackByte →
    p.length ≤ s.params.cfgTx.maxLen → p.length ≤ s.params.cfgRx.maxLen →
    losses.length < s.params.cfgTx.maxAttempts →
    ticks = (losses.flatMap fun ackLost =>
        if ackLost then List.replicate (max 1 s.params.cfgTx.timeoutTicks + 1) (tickIssue none [] [.drop])
        else tickIssue none (List.replicate (p.length + 4) .drop) [] ::
          List.replicate (max 1 s.params.cfgTx.timeoutTicks) plainTick) ++ List.replicate (wait + 1) plainTick →
    s.bus = ticks.modifyHead (fun i => { i with ports := { i.ports with req := some p } }) →
    (∃ t, Sys2Proof.core.run (ticks.length - 1) s = .next t ∧ t.tx.tState = .awaitingAck) ∧
    ∃ t, Sys2Proof.core.run ticks.length s = .next t ∧
      t.tx.tState = .succeeded ∧ t.tx.tAttempts = losses.length + 1 ∧
      t.env.now = s.env.now + ticks.length ∧
      t.env.delivered = s.env.delivered ++ List.replicate ((losses.filter id).length + 1) p

/-! ## System commands -/

/-- R135 (with 10_state.md section 9): SYS_RESET from any state. What it leaves in the model's own fields is stated in
`Obligations.ResetsLeaveTheModelsOwnFields`. -/
def Obligations.SysResetGivesEveryResetValue : Prop :=
  encode .sysReset = 0xB000 ∧
  ∀ s : State, s.params.wellFormed = true → ∃ t, exec .sysReset s = .next t ∧
    t.codec.acc = 0x00 ∧
    t.codec.dec = { dState := .awaitStart, dLen := 0x00, dIdx := 0x00, dCsum := 0x00, dRxcsum := 0x00, dErr := .none,
                    dBuf := List.replicate s.params.cfgCodec.maxLen 0x00 } ∧
    t.rx.dec = { dState := .awaitStart, dLen := 0x00, dIdx := 0x00, dCsum := 0x00, dRxcsum := 0x00, dErr := .none,
                 dBuf := List.replicate s.params.cfgRx.maxLen 0x00 } ∧
    t.rx.rxReady = false ∧ t.rx.rxOutLen = 0x00 ∧ t.rx.rxOutBuf = List.replicate s.params.cfgRx.maxLen 0x00 ∧
    t.rx.rxLastErr = .none ∧
    t.tx.tState = .idle ∧ t.tx.tAttempts = 0 ∧ t.tx.tDeadline = 0 ∧ t.tx.tLen = 0x00 ∧
    t.tx.tFrame = List.replicate (s.params.cfgTx.maxLen + 4) 0x00 ∧ t.tx.tReqResult = .none ∧ t.tx.tLastNow = 0 ∧
    t.env.fwd = [] ∧ t.env.ret = [] ∧ t.env.now = s.params.t0 ∧ t.params = s.params

/-- The model's choices where the spec gives the reset commands no result and no effect on what the model adds: the response
port of a unit is empty after the unit's reset (log entry 4), so the RX port keeps showing a payload only while `rx_ready`
is set, and SYS_RESET keeps what the application received, what stands on the ports and the waiting commands (log entry
5). -/
def Obligations.ResetsLeaveTheModelsOwnFields : Prop :=
  (∀ (i : Instr) (s t : State), exec i s = .next t →
    (i = .decReset ∨ i = .sysReset → t.codec.resp = none) ∧
    (i = .rxReset ∨ i = .sysReset → t.rx.resp = none) ∧
    (i = .txReset ∨ i = .sysReset → t.tx.resp = none) ∧
    (i = .sysReset → t.env.delivered = s.env.delivered ∧ t.ports = s.ports ∧ t.bus = s.bus)) ∧
  ∀ s t : State, (∀ p, s.rx.resp = some (.payload p) → s.rx.rxReady = true) → step s = .next t →
    ∀ p, t.rx.resp = some (.payload p) → t.rx.rxReady = true

/-- 70_reset_and_hazards.md section 1 (R150): the machine right after reset, under any configuration: both decoders in
AWAIT_START with cleared registers, `rx_ready = 0`, `t_state = IDLE`, `t_attempts = 0`, every buffer zero, both channels
empty. That `State.reset` is the one under the reference configuration is the model's choice (log entry 1). -/
def Obligations.ResetLeavesEveryUnitWaiting : Prop :=
  State.reset = State.afterReset Params.ref ∧
  ∀ p : Params,
    (State.afterReset p).codec.dec = Decoder.atReset p.cfgCodec.maxLen ∧
    (State.afterReset p).rx.dec = Decoder.atReset p.cfgRx.maxLen ∧
    (∀ n, Decoder.atReset n = { dState := .awaitStart, dLen := 0x00, dIdx := 0x00, dCsum := 0x00, dRxcsum := 0x00,
                                dErr := .none, dBuf := List.replicate n 0x00 }) ∧
    (State.afterReset p).codec.acc = 0x00 ∧
    (State.afterReset p).rx.rxReady = false ∧ (State.afterReset p).rx.rxOutLen = 0x00 ∧
    (State.afterReset p).rx.rxLastErr = .none ∧
    (State.afterReset p).tx.tState = .idle ∧ (State.afterReset p).tx.tAttempts = 0 ∧
    (∀ b ∈ (State.afterReset p).rx.rxOutBuf, b = 0x00) ∧ (∀ b ∈ (State.afterReset p).tx.tFrame, b = 0x00) ∧
    (State.afterReset p).env.fwd = [] ∧ (State.afterReset p).env.ret = []

/-- R136: SYS_TICK is the steps (a) to (e) in order: the request if IDLE, the step of TX_STEP at `now`, the step of
RX_STEP, the delivery of a reported payload, the advance of the clock. The first three are what the three commands
run. -/
def Obligations.SysTickRunsItsStepsInOrder : Prop :=
  encode .sysTick = 0xC000 ∧
  (∀ s : State, s.params.wellFormed = true →
    exec .txRequestSend s = .next (requestSend s.ports.payload s) ∧
    exec .txStep s = stepTransmitter s.ports.tick s ∧ exec .rxStep s = stepReceiver s) ∧
  ∀ s s1 : State, s.params.wellFormed = true →
    (∀ p, s.ports.req = some p → s.tx.tState = .idle → s1 = requestSend p s) →
    (s.ports.req = none ∨ s.tx.tState ≠ .idle → s1 = s) →
    exec .sysTick s =
      andThen (stepTransmitter s.env.now s1) fun s2 =>
      andThen (stepReceiver s2) fun s3 =>
      .next { s3 with env := { s3.env with
        now := s3.env.now + 1
        delivered := s3.env.delivered ++ (if s3.rx.rxReady then [s3.rx.rxOutBuf.take s3.rx.rxOutLen.toNat] else []) } }

/-- 45_system.md (R136), its frame and completion: in a good state, with a tick that does not go backwards, a deadline
that fits and room in the channels, SYS_TICK completes, leaves the codec alone and advances the clock by 1. -/
def Obligations.SysTickCompletes : Prop :=
  ∀ s : State, s.Inv → s.tx.tLastNow ≤ s.env.now →
    tickFits s.params.cfgTx.tickBits (s.env.now + s.params.cfgTx.timeoutTicks) = true →
    (∀ n, s.params.chanDepth = some n →
      s.env.ret.length + s.env.fwd.length + s.params.cfgTx.maxLen + 4 ≤ n) →
    ∃ t, exec .sysTick s = .next t ∧ t.env.now = s.env.now + 1 ∧ t.tx.tLastNow = s.env.now ∧
      t.codec = s.codec ∧ t.params = s.params ∧ t.bus = s.bus ∧
      t.ports.payload = s.ports.payload ∧ t.ports.tick = s.ports.tick ∧ t.ports.req = s.ports.req ∧
      ∃ new, t.env.delivered = s.env.delivered ++ new ∧ new.length ≤ 1

/-- R69, R154: the transmitter steps before the receiver, so an acknowledgment written in a tick is not seen in that tick:
a session does not succeed in a tick that starts with `RET` empty. -/
def Obligations.AcknowledgmentIsSeenOneTickLater : Prop :=
  ∀ s t : State, s.env.ret = [] → s.tx.tState ≠ .succeeded → exec .sysTick s = .next t → t.tx.tState ≠ .succeeded

/-! ## Whole-machine rules -/

/-- R147: the units share no register. The codec's commands change nothing of another unit or of the channels, the
receiver's nothing of the codec or the transmitter, the transmitter's nothing of the codec or the receiver. -/
def Obligations.UnitsShareNoRegister : Prop :=
  ∀ (i : Instr) (s t : State), exec i s = .next t →
    (i = .encode ∨ i = .decReset ∨ i = .csumClear ∨ (∃ b, i = .csumAcc b) ∨ (∃ b, i = .decPush b) →
      t.rx = s.rx ∧ t.tx = s.tx ∧ t.env = s.env ∧ t.ports = s.ports) ∧
    (i = .rxStep ∨ i = .rxReset → t.codec = s.codec ∧ t.tx = s.tx) ∧
    (i = .txRequestSend ∨ i = .txStep ∨ i = .txReset → t.codec = s.codec ∧ t.rx = s.rx)

/-- 60_exceptions.md section 6 (R147) with R18 and R67: what a unit's command does, and whether and how it stops, depends on
no other unit and on no other unit's configuration. For each unit: two states that agree on its registers, its
configuration record and what its commands read outside it (the payload and tick ports, the channels with their capacity
and draws) stop alike, or answer the same unit and the same channels. Both configurations are well formed, since one
ill-formed record stops every unit (log entry 11). -/
def Obligations.UnitsLearnNothingOfEachOther : Prop :=
  ∀ (i : Instr) (s s' : State), s.params.wellFormed = true → s'.params.wellFormed = true →
    (i = .encode ∨ i = .decReset ∨ i = .csumClear ∨ (∃ b, i = .csumAcc b) ∨ (∃ b, i = .decPush b) →
      s.codec = s'.codec → s.params.cfgCodec = s'.params.cfgCodec → s.ports.payload = s'.ports.payload →
      refusal? (exec i s) = refusal? (exec i s') ∧ fault? (exec i s) = fault? (exec i s') ∧
      ∀ t t', exec i s = .next t → exec i s' = .next t' → t.codec = t'.codec) ∧
    (i = .rxStep ∨ i = .rxReset →
      s.rx = s'.rx → s.params.cfgRx = s'.params.cfgRx → s.params.chanDepth = s'.params.chanDepth →
      s.env.fwd = s'.env.fwd → s.env.ret = s'.env.ret → s.ports.retDraws = s'.ports.retDraws →
      refusal? (exec i s) = refusal? (exec i s') ∧ fault? (exec i s) = fault? (exec i s') ∧
      ∀ t t', exec i s = .next t → exec i s' = .next t' →
        t.rx = t'.rx ∧ t.env.fwd = t'.env.fwd ∧ t.env.ret = t'.env.ret) ∧
    (i = .txRequestSend ∨ i = .txStep ∨ i = .txReset →
      s.tx = s'.tx → s.params.cfgTx = s'.params.cfgTx → s.params.chanDepth = s'.params.chanDepth →
      s.env.fwd = s'.env.fwd → s.env.ret = s'.env.ret → s.ports.fwdDraws = s'.ports.fwdDraws →
      s.ports.payload = s'.ports.payload → s.ports.tick = s'.ports.tick →
      refusal? (exec i s) = refusal? (exec i s') ∧ fault? (exec i s) = fault? (exec i s') ∧
      ∀ t t', exec i s = .next t → exec i s' = .next t' →
        t.tx = t'.tx ∧ t.env.fwd = t'.env.fwd ∧ t.env.ret = t'.env.ret)

/-- R62, R63: who writes and who reads each channel. Only TX_STEP appends to `FWD` and only RX_STEP pops it; only RX_STEP
appends to `RET` and only TX_STEP, in AWAITING_ACK, pops it, one byte at most. SYS_TICK runs both, and SYS_RESET empties
both (R135). -/
def Obligations.ChannelsHaveOneWriterAndOneReader : Prop :=
  ∀ (i : Instr) (s t : State), exec i s = .next t → i ≠ .sysTick → i ≠ .sysReset →
    (i ≠ .txStep → i ≠ .rxStep → t.env.fwd = s.env.fwd ∧ t.env.ret = s.env.ret) ∧
    (i = .txStep → (∃ sent, t.env.fwd = s.env.fwd ++ sent ∧ (sent ≠ [] → s.tx.tState = .sending)) ∧
      (t.env.ret = s.env.ret ∨ (s.tx.tState = .awaitingAck ∧ ∃ b, s.env.ret = b :: t.env.ret))) ∧
    (i = .rxStep → (∃ taken, s.env.fwd = taken ++ t.env.fwd) ∧ ∃ written, t.env.ret = s.env.ret ++ written)

/-- The invariant holds right after reset, under every well-formed configuration (R150, R17). -/
def Obligations.ResetStateIsGood : Prop :=
  State.reset.Inv ∧ ∀ p : Params, p.wellFormed = true → (State.afterReset p).Inv

/-- 10_state.md R32, R35, R36, R37, R40, R41, R42, R47, R50, R52 and 70_reset_and_hazards.md R166: the invariants of the
registers, "true between commands": every step keeps them, from every state that meets them. Of `rx_ready` they say only
that while it is set the port holds the latched payload; the other direction is the model's choice (log entry 4), in
`Obligations.ResetsLeaveTheModelsOwnFields`. -/
def Obligations.EveryStepKeepsTheRegisterInvariants : Prop :=
  ∀ s t : State, s.Inv → step s = .next t → t.Inv
end

