-- ==== Sys2Proof/Laws/State.lean ====
section
/-! SUPPORT. One lemma per field per update of `State`, each true by rfl, so that no later proof unfolds a record update. -/

namespace Sys2Proof.Machine

/-! ## `setCodec` -/

@[simp] theorem State.setCodec_codec (s : State) (c : Codec) : (s.setCodec c).codec = c := rfl
@[simp] theorem State.setCodec_rx (s : State) (c : Codec) : (s.setCodec c).rx = s.rx := rfl
@[simp] theorem State.setCodec_tx (s : State) (c : Codec) : (s.setCodec c).tx = s.tx := rfl
@[simp] theorem State.setCodec_env (s : State) (c : Codec) : (s.setCodec c).env = s.env := rfl
@[simp] theorem State.setCodec_params (s : State) (c : Codec) : (s.setCodec c).params = s.params := rfl
@[simp] theorem State.setCodec_ports (s : State) (c : Codec) : (s.setCodec c).ports = s.ports := rfl
@[simp] theorem State.setCodec_bus (s : State) (c : Codec) : (s.setCodec c).bus = s.bus := rfl

/-! ## `setRx` -/

@[simp] theorem State.setRx_codec (s : State) (r : RxUnit) : (s.setRx r).codec = s.codec := rfl
@[simp] theorem State.setRx_rx (s : State) (r : RxUnit) : (s.setRx r).rx = r := rfl
@[simp] theorem State.setRx_tx (s : State) (r : RxUnit) : (s.setRx r).tx = s.tx := rfl
@[simp] theorem State.setRx_env (s : State) (r : RxUnit) : (s.setRx r).env = s.env := rfl
@[simp] theorem State.setRx_params (s : State) (r : RxUnit) : (s.setRx r).params = s.params := rfl
@[simp] theorem State.setRx_ports (s : State) (r : RxUnit) : (s.setRx r).ports = s.ports := rfl
@[simp] theorem State.setRx_bus (s : State) (r : RxUnit) : (s.setRx r).bus = s.bus := rfl

/-! ## `setTx` -/

@[simp] theorem State.setTx_codec (s : State) (t : TxUnit) : (s.setTx t).codec = s.codec := rfl
@[simp] theorem State.setTx_rx (s : State) (t : TxUnit) : (s.setTx t).rx = s.rx := rfl
@[simp] theorem State.setTx_tx (s : State) (t : TxUnit) : (s.setTx t).tx = t := rfl
@[simp] theorem State.setTx_env (s : State) (t : TxUnit) : (s.setTx t).env = s.env := rfl
@[simp] theorem State.setTx_params (s : State) (t : TxUnit) : (s.setTx t).params = s.params := rfl
@[simp] theorem State.setTx_ports (s : State) (t : TxUnit) : (s.setTx t).ports = s.ports := rfl
@[simp] theorem State.setTx_bus (s : State) (t : TxUnit) : (s.setTx t).bus = s.bus := rfl

/-! ## `setEnv` -/

@[simp] theorem State.setEnv_codec (s : State) (e : Env) : (s.setEnv e).codec = s.codec := rfl
@[simp] theorem State.setEnv_rx (s : State) (e : Env) : (s.setEnv e).rx = s.rx := rfl
@[simp] theorem State.setEnv_tx (s : State) (e : Env) : (s.setEnv e).tx = s.tx := rfl
@[simp] theorem State.setEnv_env (s : State) (e : Env) : (s.setEnv e).env = e := rfl
@[simp] theorem State.setEnv_params (s : State) (e : Env) : (s.setEnv e).params = s.params := rfl
@[simp] theorem State.setEnv_ports (s : State) (e : Env) : (s.setEnv e).ports = s.ports := rfl
@[simp] theorem State.setEnv_bus (s : State) (e : Env) : (s.setEnv e).bus = s.bus := rfl

/-! ## `setPorts` -/

@[simp] theorem State.setPorts_codec (s : State) (p : Ports) : (s.setPorts p).codec = s.codec := rfl
@[simp] theorem State.setPorts_rx (s : State) (p : Ports) : (s.setPorts p).rx = s.rx := rfl
@[simp] theorem State.setPorts_tx (s : State) (p : Ports) : (s.setPorts p).tx = s.tx := rfl
@[simp] theorem State.setPorts_env (s : State) (p : Ports) : (s.setPorts p).env = s.env := rfl
@[simp] theorem State.setPorts_params (s : State) (p : Ports) : (s.setPorts p).params = s.params := rfl
@[simp] theorem State.setPorts_ports (s : State) (p : Ports) : (s.setPorts p).ports = p := rfl
@[simp] theorem State.setPorts_bus (s : State) (p : Ports) : (s.setPorts p).bus = s.bus := rfl

/-! ## `setBus` -/

@[simp] theorem State.setBus_codec (s : State) (b : List Issue) : (s.setBus b).codec = s.codec := rfl
@[simp] theorem State.setBus_rx (s : State) (b : List Issue) : (s.setBus b).rx = s.rx := rfl
@[simp] theorem State.setBus_tx (s : State) (b : List Issue) : (s.setBus b).tx = s.tx := rfl
@[simp] theorem State.setBus_env (s : State) (b : List Issue) : (s.setBus b).env = s.env := rfl
@[simp] theorem State.setBus_params (s : State) (b : List Issue) : (s.setBus b).params = s.params := rfl
@[simp] theorem State.setBus_ports (s : State) (b : List Issue) : (s.setBus b).ports = s.ports := rfl
@[simp] theorem State.setBus_bus (s : State) (b : List Issue) : (s.setBus b).bus = b := rfl

/-! ## `setFwd` -/

@[simp] theorem State.setFwd_codec (s : State) (q : List Byte) : (s.setFwd q).codec = s.codec := rfl
@[simp] theorem State.setFwd_rx (s : State) (q : List Byte) : (s.setFwd q).rx = s.rx := rfl
@[simp] theorem State.setFwd_tx (s : State) (q : List Byte) : (s.setFwd q).tx = s.tx := rfl
@[simp] theorem State.setFwd_params (s : State) (q : List Byte) : (s.setFwd q).params = s.params := rfl
@[simp] theorem State.setFwd_ports (s : State) (q : List Byte) : (s.setFwd q).ports = s.ports := rfl
@[simp] theorem State.setFwd_bus (s : State) (q : List Byte) : (s.setFwd q).bus = s.bus := rfl
@[simp] theorem State.setFwd_env (s : State) (q : List Byte) : (s.setFwd q).env = { s.env with fwd := q } := rfl

/-! ## `setRet` -/

@[simp] theorem State.setRet_codec (s : State) (q : List Byte) : (s.setRet q).codec = s.codec := rfl
@[simp] theorem State.setRet_rx (s : State) (q : List Byte) : (s.setRet q).rx = s.rx := rfl
@[simp] theorem State.setRet_tx (s : State) (q : List Byte) : (s.setRet q).tx = s.tx := rfl
@[simp] theorem State.setRet_params (s : State) (q : List Byte) : (s.setRet q).params = s.params := rfl
@[simp] theorem State.setRet_ports (s : State) (q : List Byte) : (s.setRet q).ports = s.ports := rfl
@[simp] theorem State.setRet_bus (s : State) (q : List Byte) : (s.setRet q).bus = s.bus := rfl
@[simp] theorem State.setRet_env (s : State) (q : List Byte) : (s.setRet q).env = { s.env with ret := q } := rfl

/-! ## `respondCodec` -/

@[simp] theorem State.respondCodec_codec (s : State) (r : Option CodecResult) : (s.respondCodec r).codec = { s.codec with resp := r } := rfl
@[simp] theorem State.respondCodec_rx (s : State) (r : Option CodecResult) : (s.respondCodec r).rx = s.rx := rfl
@[simp] theorem State.respondCodec_tx (s : State) (r : Option CodecResult) : (s.respondCodec r).tx = s.tx := rfl
@[simp] theorem State.respondCodec_env (s : State) (r : Option CodecResult) : (s.respondCodec r).env = s.env := rfl
@[simp] theorem State.respondCodec_params (s : State) (r : Option CodecResult) : (s.respondCodec r).params = s.params := rfl
@[simp] theorem State.respondCodec_ports (s : State) (r : Option CodecResult) : (s.respondCodec r).ports = s.ports := rfl
@[simp] theorem State.respondCodec_bus (s : State) (r : Option CodecResult) : (s.respondCodec r).bus = s.bus := rfl

/-! ## `respondRx` -/

@[simp] theorem State.respondRx_codec (s : State) (r : Option RxResult) : (s.respondRx r).codec = s.codec := rfl
@[simp] theorem State.respondRx_rx (s : State) (r : Option RxResult) : (s.respondRx r).rx = { s.rx with resp := r } := rfl
@[simp] theorem State.respondRx_tx (s : State) (r : Option RxResult) : (s.respondRx r).tx = s.tx := rfl
@[simp] theorem State.respondRx_env (s : State) (r : Option RxResult) : (s.respondRx r).env = s.env := rfl
@[simp] theorem State.respondRx_params (s : State) (r : Option RxResult) : (s.respondRx r).params = s.params := rfl
@[simp] theorem State.respondRx_ports (s : State) (r : Option RxResult) : (s.respondRx r).ports = s.ports := rfl
@[simp] theorem State.respondRx_bus (s : State) (r : Option RxResult) : (s.respondRx r).bus = s.bus := rfl

/-! ## `respondTx` -/

@[simp] theorem State.respondTx_codec (s : State) (r : Option TxResult) : (s.respondTx r).codec = s.codec := rfl
@[simp] theorem State.respondTx_rx (s : State) (r : Option TxResult) : (s.respondTx r).rx = s.rx := rfl
@[simp] theorem State.respondTx_tx (s : State) (r : Option TxResult) : (s.respondTx r).tx = { s.tx with resp := r } := rfl
@[simp] theorem State.respondTx_env (s : State) (r : Option TxResult) : (s.respondTx r).env = s.env := rfl
@[simp] theorem State.respondTx_params (s : State) (r : Option TxResult) : (s.respondTx r).params = s.params := rfl
@[simp] theorem State.respondTx_ports (s : State) (r : Option TxResult) : (s.respondTx r).ports = s.ports := rfl
@[simp] theorem State.respondTx_bus (s : State) (r : Option TxResult) : (s.respondTx r).bus = s.bus := rfl

/-! ## The reset state -/

@[simp] theorem State.afterReset_codec (p : Params) : (State.afterReset p).codec = Codec.atReset p.cfgCodec.maxLen := rfl
@[simp] theorem State.afterReset_rx (p : Params) : (State.afterReset p).rx = RxUnit.atReset p.cfgRx.maxLen := rfl
@[simp] theorem State.afterReset_tx (p : Params) : (State.afterReset p).tx = TxUnit.atReset p.cfgTx.maxLen := rfl
@[simp] theorem State.afterReset_env (p : Params) : (State.afterReset p).env = Env.atReset p.t0 := rfl
@[simp] theorem State.afterReset_params (p : Params) : (State.afterReset p).params = p := rfl
@[simp] theorem State.afterReset_ports (p : Params) : (State.afterReset p).ports = Ports.idle := rfl
@[simp] theorem State.afterReset_bus (p : Params) : (State.afterReset p).bus = [] := rfl

end Sys2Proof.Machine
end

