-- ==== Sys2Proof/Laws/Decode.lean ====
section
/-! SUPPORT. The fields of a command word as arithmetic on its value, the command that an opcode names, and the decoder's
outcome by field. -/

namespace Sys2Proof

theorem opField_toNat (w : Word) : (opField w).toNat = w.toNat / 4096 := by
  have := w.isLt
  simp [opField, BitVec.extractLsb'_toNat, Nat.shiftRight_eq_div_pow]; omega

theorem rsvField_toNat (w : Word) : (rsvField w).toNat = w.toNat / 256 % 16 := by
  simp [rsvField, BitVec.extractLsb'_toNat, Nat.shiftRight_eq_div_pow]

theorem imm8Field_toNat (w : Word) : (imm8Field w).toNat = w.toNat % 256 := by
  simp [imm8Field, BitVec.extractLsb'_toNat]

theorem encode_toNat (i : Instr) : (encode i).toNat = i.opcode.toNat * 4096 + i.imm8.toNat := by
  have h1 := i.opcode.isLt
  have h2 := i.imm8.isLt
  simp only [encode, BitVec.toNat_append]
  rw [← Nat.shiftLeft_add_eq_or_of_lt h2]
  simp [Nat.shiftLeft_eq]; omega

/-- A word is determined by its value in its three fields. -/
theorem word_toNat_fields (w : Word) :
    w.toNat = (opField w).toNat * 4096 + (rsvField w).toNat * 256 + (imm8Field w).toNat := by
  rw [opField_toNat, rsvField_toNat, imm8Field_toNat]; omega

/-- An opcode names no command exactly when it is reserved (R80). -/
theorem commandOf_eq_none (op : BitVec 4) (b : Byte) : commandOf op b = none ↔ 13 ≤ op.toNat := by
  have := op.isLt
  unfold commandOf
  generalize op.toNat = n at *
  interval_cases n <;> simp

/-- The command an opcode names: its opcode is that one, and its byte operand is the word's where it takes one. -/
theorem commandOf_eq_some (op : BitVec 4) (b : Byte) (i : Instr) (takes : Bool) :
    commandOf op b = some (i, takes) ↔
      i.opcode = op ∧ takes = (i.opcode == 0x2 || i.opcode == 0x4) ∧ (takes = true → i.imm8 = b) := by
  have hlt := op.isLt
  have hop : op = BitVec.ofNat 4 op.toNat := by simp
  rw [hop]
  generalize op.toNat = n at hlt
  interval_cases n <;> cases i <;> cases takes <;>
    simp +decide only [commandOf, Instr.opcode, Instr.imm8, Option.some.injEq, Prod.mk.injEq, Instr.csumAcc.injEq,
      Instr.decPush.injEq, BitVec.toNat_ofNat, and_self, true_and, and_true, false_and, and_false, forall_const,
      reduceCtorEq, IsEmpty.forall_iff, eq_comm (a := b)]

/-- The decoder's three rejections and its acceptance, by field (R81). -/
theorem decode_cases (w : Word) :
    (13 ≤ (opField w).toNat ∧ decode w = .illegal .reservedOpcode) ∨
    (∃ i takes, commandOf (opField w) (imm8Field w) = some (i, takes) ∧
      decode w = if rsvField w ≠ 0 then .illegal .reservedField
        else if !takes && imm8Field w != 0 then .illegal .strayOperand else .command i) := by
  unfold decode
  cases h : commandOf (opField w) (imm8Field w) with
  | none => exact .inl ⟨(commandOf_eq_none _ _).mp h, rfl⟩
  | some r => exact .inr ⟨r.1, r.2, rfl, rfl⟩

end Sys2Proof
end

