-- ==== Sys2Proof/Laws/Ops.lean ====
section
/-! SUPPORT. One lemma, or one small group, per shared operation of Machine/Ops.lean, saying once what it can do. -/

namespace Sys2Proof.Machine

/-! ## Sequencing -/

@[simp] theorem andThen_next (s : State) (k : State → StepOutcome) : andThen (.next s) k = k s := rfl
@[simp] theorem andThen_fault (f : Fault) (k : State → StepOutcome) : andThen (.fault f) k = .fault f := rfl
@[simp] theorem andThen_refused (r : Refusal) (k : State → StepOutcome) : andThen (.refused r) k = .refused r := rfl

/-- A sequence answers a next state only through one of its first part. -/
theorem andThen_eq_next {o : StepOutcome} {k : State → StepOutcome} {t : State} :
    andThen o k = .next t ↔ ∃ s, o = .next s ∧ k s = .next t := by
  cases o <;> simp

theorem andThen_assoc (o : StepOutcome) (k l : State → StepOutcome) :
    andThen (andThen o k) l = andThen o fun s => andThen (k s) l := by
  cases o <;> rfl

theorem whenConfigured_of_wellFormed {s : State} (h : s.params.wellFormed = true) (o : StepOutcome) :
    whenConfigured s o = o := by simp [whenConfigured, h]

theorem whenConfigured_of_illFormed {s : State} (h : s.params.wellFormed = false) (o : StepOutcome) :
    whenConfigured s o = .refused .invalidConfig := by simp [whenConfigured, h]

/-- A command answers a next state only under well-formed configurations. -/
theorem whenConfigured_eq_next {s t : State} {o : StepOutcome} :
    whenConfigured s o = .next t ↔ s.params.wellFormed = true ∧ o = .next t := by
  unfold whenConfigured; split <;> simp_all

/-! ## Checksum accumulator -/

theorem foldl_accCombine (a : Byte) (bs : List Byte) : bs.foldl accCombine a = a ^^^ checksumOver bs := by
  induction bs generalizing a with
  | nil => simp [checksumOver, accClear]
  | cons b bs ih =>
    have hb : checksumOver (b :: bs) = accCombine accClear b ^^^ checksumOver bs := ih _
    rw [List.foldl_cons, ih, hb]
    simp [accCombine, accClear, BitVec.xor_assoc]

@[simp] theorem checksumOver_nil : checksumOver [] = 0x00 := rfl

@[simp] theorem checksumOver_cons (b : Byte) (bs : List Byte) : checksumOver (b :: bs) = b ^^^ checksumOver bs := by
  rw [checksumOver, List.foldl_cons, foldl_accCombine]; simp [accCombine, accClear]

@[simp] theorem checksumOver_append (as bs : List Byte) :
    checksumOver (as ++ bs) = checksumOver as ^^^ checksumOver bs := by
  induction as with
  | nil => simp
  | cons a as ih => simp [ih, BitVec.xor_assoc]

theorem csum_eq (p : List Byte) : csum p = lengthByte p.length ^^^ checksumOver p := by simp [csum]

/-! ## Encoder function -/

theorem frameBytes_length (cfg : UnitConfig) (p : List Byte) : (frameBytes cfg p).length = p.length + 4 := by
  simp [frameBytes]

theorem encodeFrame_of_le {cfg : UnitConfig} {p : List Byte} (h : p.length ≤ cfg.maxLen) :
    encodeFrame cfg p = .frame (frameBytes cfg p) := by simp [encodeFrame]; omega

theorem encodeFrame_of_gt {cfg : UnitConfig} {p : List Byte} (h : cfg.maxLen < p.length) :
    encodeFrame cfg p = .payloadTooLarge := by simp [encodeFrame, h]

/-! ## Buffers -/

@[simp] theorem writePrefix_length (buf p : List Byte) : (writePrefix buf p).length = buf.length := by
  simp [writePrefix]; omega

/-- What fits in the buffer is read back whole. -/
theorem take_writePrefix {buf p : List Byte} (h : p.length ≤ buf.length) :
    (writePrefix buf p).take p.length = p := by
  simp [writePrefix, List.take_take, Nat.min_eq_left h]

/-! ## Decoder transition function -/

@[simp] theorem Decoder.reset_dState (d : Decoder) : d.reset.dState = .awaitStart := rfl
@[simp] theorem Decoder.reset_dLen (d : Decoder) : d.reset.dLen = 0 := rfl
@[simp] theorem Decoder.reset_dIdx (d : Decoder) : d.reset.dIdx = 0 := rfl
@[simp] theorem Decoder.reset_dCsum (d : Decoder) : d.reset.dCsum = 0 := rfl
@[simp] theorem Decoder.reset_dRxcsum (d : Decoder) : d.reset.dRxcsum = 0 := rfl
@[simp] theorem Decoder.reset_dErr (d : Decoder) : d.reset.dErr = .none := rfl
@[simp] theorem Decoder.reset_dBuf (d : Decoder) : d.reset.dBuf = d.dBuf := rfl

/-- A pushed byte never changes the size of the payload buffer (R36). -/
theorem Decoder.push_dBuf_length (cfg : UnitConfig) (d : Decoder) (b : Byte) :
    (d.push cfg b).1.dBuf.length = d.dBuf.length := by
  unfold Decoder.push
  split <;> simp only [Decoder.pushAwaitStart, Decoder.pushAwaitLength, Decoder.pushAwaitPayload,
    Decoder.pushAwaitChecksum, Decoder.pushAwaitEnd, Decoder.pushTerminal, Decoder.enterError] <;>
    (repeat' split) <;> simp

theorem Decoder.pushAll_append (cfg : UnitConfig) (d : Decoder) (as bs : List Byte) :
    d.pushAll cfg (as ++ bs) =
      (((d.pushAll cfg as).1.pushAll cfg bs).1, (d.pushAll cfg as).2 ++ ((d.pushAll cfg as).1.pushAll cfg bs).2) := by
  induction as generalizing d with
  | nil => rfl
  | cons a as ih => simp [Decoder.pushAll, ih]

theorem Decoder.pushAll_verdicts_length (cfg : UnitConfig) (d : Decoder) (bs : List Byte) :
    (d.pushAll cfg bs).2.length = bs.length := by
  induction bs generalizing d with
  | nil => rfl
  | cons b bs ih => simp [Decoder.pushAll, ih]

/-! ## Channels -/

@[simp] theorem chanFull_unbounded (ch : List Byte) : chanFull none ch = false := rfl

/-- A channel is full exactly when it is bounded and holds `CHAN_DEPTH` bytes or more. -/
theorem chanFull_eq_true {depth : Option Nat} {ch : List Byte} :
    chanFull depth ch = true ↔ ∃ n, depth = some n ∧ n ≤ ch.length := by
  cases depth <;> simp [chanFull]

@[simp] theorem drawn_none (b : Byte) : drawn [] b = [b] := rfl

theorem drawn_length_le (ds : List Draw) (b : Byte) : (drawn ds b).length ≤ 1 := by
  unfold drawn; split <;> simp

@[simp] theorem perturb_none (bs : List Byte) : perturb [] bs = bs := by
  induction bs with
  | nil => rfl
  | cons b bs ih => simp [perturb, ih]

theorem perturb_length_le (ds : List Draw) (bs : List Byte) : (perturb ds bs).length ≤ bs.length := by
  induction bs generalizing ds with
  | nil => simp [perturb]
  | cons b bs ih =>
    have := drawn_length_le ds b
    have := ih ds.tail
    simp [perturb]; omega

theorem State.pushFwd_of_room {s : State} (h : chanFull s.params.chanDepth s.env.fwd = false) (b : Byte) :
    s.pushFwd b = .next { s with
      env := { s.env with fwd := s.env.fwd ++ drawn s.ports.fwdDraws b }
      ports := { s.ports with fwdDraws := s.ports.fwdDraws.tail } } := by
  simp [State.pushFwd, h]; rfl

theorem State.pushRet_of_room {s : State} (h : chanFull s.params.chanDepth s.env.ret = false) (b : Byte) :
    s.pushRet b = .next { s with
      env := { s.env with ret := s.env.ret ++ drawn s.ports.retDraws b }
      ports := { s.ports with retDraws := s.ports.retDraws.tail } } := by
  simp [State.pushRet, h]; rfl

/-- A push into `FWD` faults on a full channel and otherwise appends what the draw leaves of the byte. -/
theorem State.pushFwd_eq_next {s t : State} {b : Byte} : s.pushFwd b = .next t ↔
    chanFull s.params.chanDepth s.env.fwd = false ∧
    t = { s with
      env := { s.env with fwd := s.env.fwd ++ drawn s.ports.fwdDraws b }
      ports := { s.ports with fwdDraws := s.ports.fwdDraws.tail } } := by
  cases h : chanFull s.params.chanDepth s.env.fwd
  · rw [State.pushFwd_of_room h]; simp [eq_comm]
  · simp [State.pushFwd, h]

/-- A push into `RET` faults on a full channel and otherwise appends what the draw leaves of the byte. -/
theorem State.pushRet_eq_next {s t : State} {b : Byte} : s.pushRet b = .next t ↔
    chanFull s.params.chanDepth s.env.ret = false ∧
    t = { s with
      env := { s.env with ret := s.env.ret ++ drawn s.ports.retDraws b }
      ports := { s.ports with retDraws := s.ports.retDraws.tail } } := by
  cases h : chanFull s.params.chanDepth s.env.ret
  · rw [State.pushRet_of_room h]; simp [eq_comm]
  · simp [State.pushRet, h]

/-- A run of pushes into `FWD` appends what the draws leave of the run, whenever it answers a next state. -/
theorem State.pushFwdAll_next {s t : State} {bs : List Byte} (h : s.pushFwdAll bs = .next t) :
    t = { s with
      env := { s.env with fwd := s.env.fwd ++ perturb s.ports.fwdDraws bs }
      ports := { s.ports with fwdDraws := s.ports.fwdDraws.drop bs.length } } := by
  induction bs generalizing s with
  | nil => simp only [State.pushFwdAll, Host.Outcome.next.injEq] at h; subst h; simp [perturb]
  | cons b bs ih =>
    obtain ⟨u, hu, h⟩ := andThen_eq_next.mp h
    obtain ⟨-, rfl⟩ := State.pushFwd_eq_next.mp hu
    rw [ih h]
    simp [perturb, List.drop_tail]

/-- A run of pushes into a channel with room for all of it completes. -/
theorem State.pushFwdAll_of_room {s : State} {bs : List Byte}
    (h : ∀ n, s.params.chanDepth = some n → s.env.fwd.length + bs.length ≤ n) :
    s.pushFwdAll bs = .next { s with
      env := { s.env with fwd := s.env.fwd ++ perturb s.ports.fwdDraws bs }
      ports := { s.ports with fwdDraws := s.ports.fwdDraws.drop bs.length } } := by
  suffices ∃ t, s.pushFwdAll bs = .next t by
    obtain ⟨t, ht⟩ := this
    rw [ht, State.pushFwdAll_next ht]
  induction bs generalizing s with
  | nil => exact ⟨s, rfl⟩
  | cons b bs ih =>
    have hroom : chanFull s.params.chanDepth s.env.fwd = false := by
      cases hf : chanFull s.params.chanDepth s.env.fwd
      · rfl
      · obtain ⟨n, hn, hle⟩ := chanFull_eq_true.mp hf
        have := h n hn
        simp at this; omega
    rw [State.pushFwdAll, State.pushFwd_of_room hroom, andThen_next]
    apply ih
    intro n hn
    have h1 := h n hn
    have h2 := drawn_length_le s.ports.fwdDraws b
    simp at h1 ⊢; omega

/-! ## Issuing a command -/

@[simp] theorem State.fetchWord_idle {s : State} (h : s.bus = []) : s.fetchWord = 0 := by simp [State.fetchWord, h]
@[simp] theorem State.takeIssue_idle {s : State} (h : s.bus = []) : s.takeIssue = s := by simp [State.takeIssue, h]

theorem State.fetchWord_cons {s : State} {i : Issue} {rest : List Issue} (h : s.bus = i :: rest) :
    s.fetchWord = i.word := by simp [State.fetchWord, h]

theorem State.takeIssue_cons {s : State} {i : Issue} {rest : List Issue} (h : s.bus = i :: rest) :
    s.takeIssue = { s with bus := rest, ports := i.ports } := by simp [State.takeIssue, h]; rfl

/-- Taking a command from the bus touches the bus and the ports only. -/
theorem State.takeIssue_frame (s : State) : s.takeIssue.codec = s.codec ∧ s.takeIssue.rx = s.rx ∧
    s.takeIssue.tx = s.tx ∧ s.takeIssue.env = s.env ∧ s.takeIssue.params = s.params := by
  unfold State.takeIssue; split <;> simp

end Sys2Proof.Machine
end

