-- ==== Sys2Proof/Laws/Decoder.lean ====
section
/-! SUPPORT. What runs of bytes do to a decoder: the payload bytes of a frame (R106), and the bytes of a frame up to its
CHECKSUM byte (R104 to R106), whatever the payload bytes are. -/

namespace Sys2Proof.Machine

/-- One payload byte, at an index that the buffer has, when the declared count is not wrapped (R32). -/
theorem Decoder.push_awaitPayload (cfg : UnitConfig) {d : Decoder} (hs : d.dState = .awaitPayload) (b : Byte) :
    d.push cfg b = ({ d with
      dBuf := d.dBuf.set d.dIdx.toNat b, dCsum := d.dCsum ^^^ b, dIdx := d.dIdx + 1,
      dState := if d.dIdx + 1 = d.dLen then .awaitChecksum else .awaitPayload }, .pending) := by
  simp only [Decoder.push, hs, Decoder.pushAwaitPayload, accCombine]
  split <;> simp_all

/-- The payload index does not wrap below the declared length (R32). -/
theorem index_succ_toNat {i l : Byte} (h : i.toNat < l.toNat) : (i + 1).toNat = i.toNat + 1 := by
  have := l.isLt
  simp [BitVec.toNat_add]; omega

/-- The remaining payload bytes of a frame, pushed in order. -/
theorem Decoder.pushAll_payload (cfg : UnitConfig) (qs : List Byte) (d : Decoder) (hs : d.dState = .awaitPayload)
    (hn : qs ≠ []) (hl : d.dIdx.toNat + qs.length = d.dLen.toNat) (hb : d.dLen.toNat ≤ d.dBuf.length) :
    d.pushAll cfg qs = ({ d with
      dState := .awaitChecksum, dIdx := d.dLen, dCsum := d.dCsum ^^^ checksumOver qs,
      dBuf := d.dBuf.take d.dIdx.toNat ++ qs ++ d.dBuf.drop d.dLen.toNat },
      List.replicate qs.length .pending) := by
  induction qs generalizing d with
  | nil => exact absurd rfl hn
  | cons q qs ih =>
    simp only [List.length_cons] at hl
    have hi := index_succ_toNat (i := d.dIdx) (l := d.dLen) (by omega)
    have hset : d.dBuf.set d.dIdx.toNat q =
        d.dBuf.take d.dIdx.toNat ++ q :: d.dBuf.drop (d.dIdx.toNat + 1) := by
      rw [List.set_eq_take_append_cons_drop, if_pos (by omega)]
    rw [Decoder.pushAll, Decoder.push_awaitPayload cfg hs]
    cases qs with
    | nil =>
      have he : d.dIdx + 1#8 = d.dLen := by
        apply BitVec.eq_of_toNat_eq; rw [show (1#8 : Byte) = 1 from rfl, hi]; simpa using hl
      have hd : d.dIdx.toNat + 1 = d.dLen.toNat := by simpa using hl
      simp [Decoder.pushAll, he, hset, hd]
    | cons q' qs =>
      have hne : ¬ d.dIdx + 1#8 = d.dLen := fun he => by
        have := congrArg BitVec.toNat he
        rw [show (1#8 : Byte) = 1 from rfl, hi] at this; simp at hl; omega
      rw [ih _ (by simp [hne]) (by simp) (by simp only [hi]; simp at hl ⊢; omega) (by simpa using hb)]
      have htl : (d.dBuf.take d.dIdx.toNat).length = d.dIdx.toNat := by simp; omega
      simp only [hi, hset, checksumOver_cons, List.length_cons, List.replicate_succ, BitVec.xor_assoc]
      have h1 : d.dIdx.toNat + 1 - d.dIdx.toNat = 1 := by omega
      have h2 : d.dLen.toNat - d.dIdx.toNat = (d.dLen.toNat - d.dIdx.toNat - 1) + 1 := by simp at hl; omega
      have h3 : (d.dBuf.take d.dIdx.toNat).take (d.dIdx.toNat + 1) = d.dBuf.take d.dIdx.toNat := by
        apply List.take_of_length_le; omega
      have h4 : (d.dBuf.take d.dIdx.toNat).drop d.dLen.toNat = [] := by
        apply List.drop_of_length_le; omega
      have h5 : d.dIdx.toNat + 1 + (d.dLen.toNat - d.dIdx.toNat - 1) = d.dLen.toNat := by simp at hl; omega
      have hbuf : (d.dBuf.take d.dIdx.toNat ++ q :: d.dBuf.drop (d.dIdx.toNat + 1)).take (d.dIdx.toNat + 1) ++
          q' :: qs ++ (d.dBuf.take d.dIdx.toNat ++ q :: d.dBuf.drop (d.dIdx.toNat + 1)).drop d.dLen.toNat =
          d.dBuf.take d.dIdx.toNat ++ q :: q' :: qs ++ d.dBuf.drop d.dLen.toNat := by
        rw [List.take_append, List.drop_append, htl, h1, h2, h3, h4]
        simp [h5]
      rw [hbuf]

/-- The bytes of a frame up to its CHECKSUM byte, from AWAIT_START: START, LENGTH, and as many payload bytes as LENGTH
declares. Every verdict is PENDING. -/
theorem Decoder.pushAll_body (cfg : UnitConfig) (d : Decoder) (qs : List Byte) (hm : cfg.maxLen ≤ 255)
    (hs : d.dState = .awaitStart) (hb : d.dBuf.length = cfg.maxLen) (hq : qs.length ≤ cfg.maxLen) :
    d.pushAll cfg (cfg.startByte :: lengthByte qs.length :: qs) = ({ d with
      dState := .awaitChecksum, dLen := lengthByte qs.length, dIdx := lengthByte qs.length
      dCsum := lengthByte qs.length ^^^ checksumOver qs, dBuf := qs ++ d.dBuf.drop qs.length },
      List.replicate (qs.length + 2) .pending) := by
  have hL := lengthByte_toNat (n := qs.length) (by omega)
  have h1 : d.push cfg cfg.startByte =
      ({ d with dCsum := 0, dIdx := 0, dState := .awaitLength }, .pending) := by
    simp [Decoder.push, hs, Decoder.pushAwaitStart, accClear]
  rw [Decoder.pushAll, h1, Decoder.pushAll]
  have hgt : ¬ cfg.maxLen < (lengthByte qs.length).toNat := by omega
  simp only [Decoder.push, Decoder.pushAwaitLength, hgt, if_false, accCombine]
  cases qs with
  | nil => simp [lengthByte, Decoder.pushAll, List.replicate]
  | cons q qs =>
    have hne : lengthByte (q :: qs).length ≠ 0 := fun h => by
      have := congrArg BitVec.toNat h
      rw [hL] at this; simp at this
    rw [if_neg hne]
    dsimp only
    rw [Decoder.pushAll_payload cfg (q :: qs) _ rfl (by simp) (by simp only [hL]; simp) (by simp only [hL]; omega)]
    simp only [hL]
    simp [List.replicate_succ]

/-! ## The decoder invariants -/

/-- A reset decoder meets the decoder invariants. -/
theorem Decoder.reset_ok {m : Nat} {d : Decoder} (h : d.dBuf.length = m) : d.reset.Ok m := by
  simp [Decoder.Ok, h]

theorem Decoder.pushAwaitStart_ok {cfg : UnitConfig} {d : Decoder} (h : d.Ok cfg.maxLen)
    (hs : d.dState = .awaitStart) (b : Byte) :
    (d.pushAwaitStart cfg b).1.Ok cfg.maxLen := by
  unfold Decoder.pushAwaitStart
  split
  · obtain ⟨h1, h2, h3, _⟩ := h
    simp [hs] at h3
    simp [Decoder.Ok, h1, h3, accClear]
  · exact h

/-- A pushed byte keeps the decoder invariants (R32, R35, R36, R37). -/
theorem Decoder.push_ok {cfg : UnitConfig} {d : Decoder} (h : d.Ok cfg.maxLen) (b : Byte) :
    (d.push cfg b).1.Ok cfg.maxLen := by
  have hh := h
  obtain ⟨h1, h2, h3, h4, h5, h6, h7, h8⟩ := h
  cases hs : d.dState <;> simp only [hs, reduceCtorEq, false_iff, true_iff, ne_eq, not_not, or_false, or_true,
    forall_const, IsEmpty.forall_iff] at h3 h4 h5 h6 h7 h8
  · simp only [Decoder.push, hs]; exact Decoder.pushAwaitStart_ok hh hs b
  · simp only [Decoder.push, hs, Decoder.pushAwaitLength, Decoder.enterError, accCombine]
    split
    · simp [Decoder.Ok, h1, h8.2]
    · split <;> simp_all [Decoder.Ok]
      by_contra hc
      rename_i hb
      apply hb
      apply BitVec.eq_of_toNat_eq; simp; omega
  · rw [Decoder.push_awaitPayload cfg hs]
    have hi := index_succ_toNat h5
    by_cases he : d.dIdx + 1 = d.dLen
    · have hlen : d.dIdx.toNat + 1 = d.dLen.toNat := by rw [← hi, he]
      rw [if_pos he]
      simp only [Decoder.Ok, he, List.length_set, h1]
      simp [h3, h4, h7, BitVec.xor_assoc]
      rw [← hlen, List.take_add_one]
      simp
      have : d.dIdx.toNat < d.dBuf.length := by omega
      simp [this, List.take_set_of_le]
    · have hlt : d.dIdx.toNat + 1 < d.dLen.toNat := by
        have : (d.dIdx+1).toNat ≠ d.dLen.toNat := fun h => he (BitVec.eq_of_toNat_eq h)
        omega
      rw [if_neg he]
      simp only [Decoder.Ok, List.length_set, h1, hi]
      simp [h3, h4, h7, BitVec.xor_assoc]
      refine ⟨by omega, by omega, ?_⟩
      rw [List.take_add_one]
      have : d.dIdx.toNat < d.dBuf.length := by omega
      simp [this, List.take_set_of_le]
  · simp only [Decoder.push, hs, Decoder.pushAwaitChecksum, Decoder.enterError]
    split <;> simp_all [Decoder.Ok]
  · simp only [Decoder.push, hs, Decoder.pushAwaitEnd, Decoder.enterError]
    split <;> simp_all [Decoder.Ok]
  all_goals
    simp only [Decoder.push, hs, Decoder.pushTerminal]
    split
    · exact hh
    · exact Decoder.pushAwaitStart_ok (Decoder.reset_ok h1) rfl b

end Sys2Proof.Machine
end

