-- ==== Sys2Proof/Laws/PerInstr.lean ====
section
/-! SUPPORT. The families of statements about commands as syntax, one lemma per constructor of `Instr`. `EncodedFields`: the
three fields of a command's word are its opcode, zero and its byte operand (R78, R80). -/

namespace Sys2Proof.Laws.EncodedFields

/-- The fields of the command's word (R78). -/
def Statement (i : Instr) : Prop :=
  opField (Sys2Proof.encode i) = i.opcode ∧ rsvField (Sys2Proof.encode i) = 0 ∧ imm8Field (Sys2Proof.encode i) = i.imm8

/-- The fields of a word are read back by value. -/
theorem of_value (i : Instr) : Statement i := by
  have h := encode_toNat i
  have h1 := i.opcode.isLt
  have h2 := i.imm8.isLt
  refine ⟨?_, ?_, ?_⟩ <;> apply BitVec.eq_of_toNat_eq
  · rw [opField_toNat]; omega
  · rw [rsvField_toNat]; simp; omega
  · rw [imm8Field_toNat]; omega

theorem nop : Statement .nop := of_value _
theorem csumClear : Statement .csumClear := of_value _
theorem csumAcc (b : Byte) : Statement (.csumAcc b) := of_value _
theorem encode : Statement .encode := of_value _
theorem decPush (b : Byte) : Statement (.decPush b) := of_value _
theorem decReset : Statement .decReset := of_value _
theorem rxStep : Statement .rxStep := of_value _
theorem rxReset : Statement .rxReset := of_value _
theorem txRequestSend : Statement .txRequestSend := of_value _
theorem txStep : Statement .txStep := of_value _
theorem txReset : Statement .txReset := of_value _
theorem sysReset : Statement .sysReset := of_value _
theorem sysTick : Statement .sysTick := of_value _

end Sys2Proof.Laws.EncodedFields
end

