-- ==== Sys2Proof/Laws/Receiver.lean ====
section
/-! SUPPORT. What the receiver's operations can do: the two verdict handlings exactly, and the loop of RX_STEP by one
case per byte. -/

namespace Sys2Proof.Machine

/-- The state after the handling of a Valid verdict (R119), when `RET` has room. -/
def rxValidState (p : List Byte) (s : State) : State :=
  { s with
    rx := { s.rx with
      rxOutBuf := writePrefix s.rx.rxOutBuf p, rxOutLen := lengthByte p.length, rxReady := true
      dec := s.rx.dec.reset }
    env := { s.env with ret := s.env.ret ++ drawn s.ports.retDraws s.params.cfgRx.ackByte }
    ports := { s.ports with retDraws := s.ports.retDraws.tail } }

theorem rxValid_of_room {s : State} (p : List Byte) (h : chanFull s.params.chanDepth s.env.ret = false) :
    rxValid p s = .next (rxValidState p s) := by
  unfold rxValid
  dsimp only
  rw [State.pushRet_of_room (by simpa using h)]; rfl

theorem rxValid_eq_next {s t : State} {p : List Byte} : rxValid p s = .next t ↔
    chanFull s.params.chanDepth s.env.ret = false ∧ t = rxValidState p s := by
  cases h : chanFull s.params.chanDepth s.env.ret
  · rw [rxValid_of_room p h]; simp [eq_comm]
  · simp [rxValid, State.pushRet, h]

/-- The state after the handling of an Invalid verdict (R120), when `RET` has room for the NACK. -/
def rxInvalidState (r : Reason) (s : State) : State :=
  let s' := { s with rx := { s.rx with rxLastErr := r, dec := s.rx.dec.reset } }
  if s.params.cfgRx.nackEnable then
    { s' with
      env := { s.env with ret := s.env.ret ++ drawn s.ports.retDraws s.params.cfgRx.nackByte }
      ports := { s.ports with retDraws := s.ports.retDraws.tail } }
  else s'

theorem rxInvalid_of_room {s : State} (r : Reason)
    (h : s.params.cfgRx.nackEnable = true → chanFull s.params.chanDepth s.env.ret = false) :
    rxInvalid r s = .next (rxInvalidState r s) := by
  unfold rxInvalid rxInvalidState
  cases hn : s.params.cfgRx.nackEnable
  · simp only [State.setRx_params, hn, Bool.false_eq_true, if_false]; rfl
  · simp only [State.setRx_params, hn, if_true]
    rw [State.pushRet_of_room (by simpa using h hn)]; rfl

theorem rxInvalid_eq_next {s t : State} {r : Reason} : rxInvalid r s = .next t ↔
    (s.params.cfgRx.nackEnable = true → chanFull s.params.chanDepth s.env.ret = false) ∧
    t = rxInvalidState r s := by
  by_cases h : s.params.cfgRx.nackEnable = true → chanFull s.params.chanDepth s.env.ret = false
  · rw [rxInvalid_of_room r h, Host.Outcome.next.injEq]
    exact ⟨fun e => ⟨h, e.symm⟩, fun e => e.2.symm⟩
  · simp only [h, false_and, iff_false]
    simp only [Classical.not_imp, Bool.not_eq_false] at h
    simp [rxInvalid, State.pushRet, h]

@[simp] theorem rxInvalidState_rx (r : Reason) (s : State) :
    (rxInvalidState r s).rx = { s.rx with rxLastErr := r, dec := s.rx.dec.reset } := by
  unfold rxInvalidState; dsimp only; split <;> rfl
@[simp] theorem rxInvalidState_codec (r : Reason) (s : State) : (rxInvalidState r s).codec = s.codec := by
  unfold rxInvalidState; dsimp only; split <;> rfl
@[simp] theorem rxInvalidState_tx (r : Reason) (s : State) : (rxInvalidState r s).tx = s.tx := by
  unfold rxInvalidState; dsimp only; split <;> rfl
@[simp] theorem rxInvalidState_params (r : Reason) (s : State) : (rxInvalidState r s).params = s.params := by
  unfold rxInvalidState; dsimp only; split <;> rfl
@[simp] theorem rxInvalidState_bus (r : Reason) (s : State) : (rxInvalidState r s).bus = s.bus := by
  unfold rxInvalidState; dsimp only; split <;> rfl
@[simp] theorem rxInvalidState_env (r : Reason) (s : State) : (rxInvalidState r s).env =
    { s.env with ret := s.env.ret ++
        (if s.params.cfgRx.nackEnable then drawn s.ports.retDraws s.params.cfgRx.nackByte else []) } := by
  unfold rxInvalidState; dsimp only; split <;> simp
@[simp] theorem rxInvalidState_ports (r : Reason) (s : State) : (rxInvalidState r s).ports =
    { s.ports with retDraws := if s.params.cfgRx.nackEnable then s.ports.retDraws.tail else s.ports.retDraws } := by
  unfold rxInvalidState; dsimp only; split <;> simp

/-- The state in which the verdict of a taken byte is handled (R121). -/
def rxTaken (b : Byte) (rest : List Byte) (s : State) : State :=
  { s with env := { s.env with fwd := rest }, rx := { s.rx with dec := (s.rx.dec.push s.params.cfgRx b).1 } }

/-- One byte of the loop, by verdict and policy. -/
theorem rxLoop_cons (b : Byte) (rest : List Byte) (s : State) : rxLoop (b :: rest) s =
    match (s.rx.dec.push s.params.cfgRx b).2, s.params.cfgRx.rxPolicy with
    | .valid p, _ => rxValid p (rxTaken b rest s)
    | .invalid e, .one => rxInvalid e (rxTaken b rest s)
    | .invalid e, .all => andThen (rxInvalid e (rxTaken b rest s)) (rxLoop rest)
    | .pending, .one => .next (rxTaken b rest s)
    | .pending, .all => rxLoop rest (rxTaken b rest s) := by
  rw [rxLoop]
  have : (s.setFwd rest).setRx { s.rx with dec := (s.rx.dec.push s.params.cfgRx b).1 } = rxTaken b rest s := rfl
  simp only [this]
  cases (s.rx.dec.push s.params.cfgRx b).2 <;> cases h : s.params.cfgRx.rxPolicy <;> simp [rxTaken, h]

/-- To show a property of the state that the loop of RX_STEP answers, show that each of its moves gives it: a taken byte
with a PENDING verdict, the handling of an Invalid verdict, and that of a Valid one. -/
theorem rxLoop_induction {P Q : State → Prop}
    (stop : ∀ s, P s → Q s)
    (take : ∀ b rest s, P s → s.env.fwd = b :: rest → (s.rx.dec.push s.params.cfgRx b).2 = .pending →
      P (rxTaken b rest s))
    (drop : ∀ b rest s e, P s → s.env.fwd = b :: rest → (s.rx.dec.push s.params.cfgRx b).2 = .invalid e →
      P (rxInvalidState e (rxTaken b rest s)))
    (done : ∀ b rest s p, P s → s.env.fwd = b :: rest → (s.rx.dec.push s.params.cfgRx b).2 = .valid p →
      Q (rxValidState p (rxTaken b rest s)))
    {bs : List Byte} {s t : State} (hb : s.env.fwd = bs) (hP : P s) (h : rxLoop bs s = .next t) : Q t := by
  induction bs generalizing s with
  | nil => simp only [rxLoop, Host.Outcome.next.injEq] at h; exact h ▸ stop s hP
  | cons b rest ih =>
    rw [rxLoop_cons] at h
    cases hv : (s.rx.dec.push s.params.cfgRx b).2 with
    | pending =>
      have hP' := take b rest s hP hb hv
      cases hp : s.params.cfgRx.rxPolicy <;> simp only [hv, hp] at h
      · cases h; exact stop _ hP'
      · exact ih rfl hP' h
    | invalid e =>
      have hP' := drop b rest s e hP hb hv
      cases hp : s.params.cfgRx.rxPolicy <;> simp only [hv, hp] at h
      · obtain ⟨-, rfl⟩ := rxInvalid_eq_next.mp h; exact stop _ hP'
      · obtain ⟨u, hu, h⟩ := andThen_eq_next.mp h
        obtain ⟨-, rfl⟩ := rxInvalid_eq_next.mp hu
        refine ih ?_ hP' h
        simp only [rxInvalidState]; split <;> rfl
    | valid p =>
      simp only [hv] at h
      obtain ⟨-, rfl⟩ := rxValid_eq_next.mp h
      exact done b rest s p hP hb hv

/-- RX_STEP answers a next state exactly through its loop, and only the response port is added. -/
theorem stepReceiver_eq_next {s t : State} : stepReceiver s = .next t ↔
    ∃ u, rxLoop s.env.fwd (s.setRx { s.rx with rxReady := false }) = .next u ∧
      t = { u with rx := { u.rx with resp := some u.rx.result } } := by
  unfold stepReceiver
  rw [andThen_eq_next]
  constructor
  · rintro ⟨u, h1, h2⟩; cases h2; exact ⟨u, h1, rfl⟩
  · rintro ⟨u, h1, rfl⟩; exact ⟨u, h1, rfl⟩

/-- The loop of RX_STEP completes when `RET` has room for one byte per byte of `FWD` (R121, R64). -/
theorem rxLoop_completes {bs : List Byte} {s : State}
    (h : ∀ n, s.params.chanDepth = some n → s.env.ret.length + bs.length ≤ n) : ∃ t, rxLoop bs s = .next t := by
  induction bs generalizing s with
  | nil => exact ⟨s, rfl⟩
  | cons b rest ih =>
    have hroom : chanFull (rxTaken b rest s).params.chanDepth (rxTaken b rest s).env.ret = false := by
      cases hf : chanFull (rxTaken b rest s).params.chanDepth (rxTaken b rest s).env.ret
      · rfl
      · obtain ⟨n, hn, hle⟩ := chanFull_eq_true.mp hf
        have := h n hn; simp [rxTaken] at this hle; omega
    rw [rxLoop_cons]
    split
    · exact ⟨_, rxValid_of_room _ hroom⟩
    · exact ⟨_, rxInvalid_of_room _ fun _ => hroom⟩
    · rw [rxInvalid_of_room _ fun _ => hroom]
      refine ih fun n hn => ?_
      have h1 := h n (by simpa [rxTaken] using hn)
      have h2 := drawn_length_le s.ports.retDraws s.params.cfgRx.nackByte
      simp only [rxInvalidState_env, rxTaken, List.length_append]
      simp at h1
      split
      · omega
      · simp; omega
    · exact ⟨_, rfl⟩
    · refine ih fun n hn => ?_
      have := h n hn; simp [rxTaken] at this ⊢; omega

/-- A step of the receiver completes when `RET` has room for one byte per byte of `FWD` (R121, R64). -/
theorem stepReceiver_completes {s : State}
    (h : ∀ n, s.params.chanDepth = some n → s.env.ret.length + s.env.fwd.length ≤ n) :
    ∃ t, stepReceiver s = .next t := by
  obtain ⟨u, hu⟩ := rxLoop_completes (s := s.setRx { s.rx with rxReady := false }) (bs := s.env.fwd) h
  exact ⟨_, stepReceiver_eq_next.mpr ⟨u, hu, rfl⟩⟩

end Sys2Proof.Machine
end

