-- ==== Sys2Proof/Laws/Transmitter.lean ====
section
/-! SUPPORT. What the transmitter's operations can do: a send request in its three cases, a transmission, the wait for an
acknowledgment in its five, and one step of the transmitter by state. -/

namespace Sys2Proof.Machine

/-- A send request answers NOT_IDLE, PAYLOAD_TOO_LARGE or ACCEPTED (R128). -/
theorem requestSend_cases (p : List Byte) (s : State) :
    (s.tx.tState ≠ .idle ∧ requestSend p s =
      { s with tx := { s.tx with tReqResult := .notIdle, resp := some (.request .notIdle) } }) ∨
    (s.tx.tState = .idle ∧ s.params.cfgTx.maxLen < p.length ∧ requestSend p s =
      { s with tx := { s.tx with tReqResult := .payloadTooLarge, resp := some (.request .payloadTooLarge) } }) ∨
    (s.tx.tState = .idle ∧ p.length ≤ s.params.cfgTx.maxLen ∧ requestSend p s =
      { s with tx := { s.tx with
          tFrame := writePrefix s.tx.tFrame (frameBytes s.params.cfgTx p)
          tLen := lengthByte p.length
          tAttempts := s.tx.tAttempts + 1
          tState := .sending
          tReqResult := .accepted
          resp := some (.request .accepted) } }) := by
  by_cases hs : s.tx.tState = .idle
  · rcases Nat.lt_or_ge s.params.cfgTx.maxLen p.length with hl | hl
    · refine .inr (.inl ⟨hs, hl, ?_⟩)
      unfold requestSend; rw [if_neg (by simp [hs]), encodeFrame_of_gt hl]; rfl
    · refine .inr (.inr ⟨hs, hl, ?_⟩)
      unfold requestSend; rw [if_neg (by simp [hs]), encodeFrame_of_le hl]; rfl
  · refine .inl ⟨hs, ?_⟩
    simp only [requestSend, ne_eq, hs, not_false_eq_true, if_true]; rfl

/-- A request touches the transmitter unit only. -/
theorem requestSend_frame (p : List Byte) (s : State) :
    (requestSend p s).codec = s.codec ∧ (requestSend p s).rx = s.rx ∧ (requestSend p s).env = s.env ∧
    (requestSend p s).params = s.params ∧ (requestSend p s).ports = s.ports ∧ (requestSend p s).bus = s.bus ∧
    (requestSend p s).tx.tLastNow = s.tx.tLastNow ∧ (requestSend p s).tx.tDeadline = s.tx.tDeadline := by
  obtain ⟨-, h⟩ | ⟨-, -, h⟩ | ⟨-, -, h⟩ := requestSend_cases p s <;> rw [h] <;> simp

/-- The state after a transmission (R126). -/
def txTransmitState (now : Nat) (s : State) : State :=
  { s with
    tx := { s.tx with tDeadline := now + s.params.cfgTx.timeoutTicks, tState := .awaitingAck }
    env := { s.env with fwd := s.env.fwd ++ perturb s.ports.fwdDraws s.tx.wire }
    ports := { s.ports with fwdDraws := s.ports.fwdDraws.drop s.tx.wire.length } }

theorem txTransmit_next {now : Nat} {s t : State} (h : txTransmit now s = .next t) :
    tickFits s.params.cfgTx.tickBits (now + s.params.cfgTx.timeoutTicks) = true ∧ t = txTransmitState now s := by
  obtain ⟨u, hu, h⟩ := andThen_eq_next.mp h
  have := State.pushFwdAll_next hu
  subst this
  dsimp only at h
  split at h
  · next hf => cases h; exact ⟨hf, rfl⟩
  · cases h

theorem txTransmit_of_room {now : Nat} {s : State}
    (hr : ∀ n, s.params.chanDepth = some n → s.env.fwd.length + s.tx.wire.length ≤ n) :
    txTransmit now s = if tickFits s.params.cfgTx.tickBits (now + s.params.cfgTx.timeoutTicks) then
      .next (txTransmitState now s) else .refused .tickOverflow := by
  unfold txTransmit
  rw [State.pushFwdAll_of_room hr]
  rfl

/-- A reached deadline (R127). -/
theorem txTimeout_cases (s : State) :
    (s.tx.tAttempts < s.params.cfgTx.maxAttempts ∧ txTimeout s =
      { s with tx := { s.tx with tAttempts := s.tx.tAttempts + 1, tState := .sending } }) ∨
    (s.params.cfgTx.maxAttempts ≤ s.tx.tAttempts ∧ txTimeout s = { s with tx := { s.tx with tState := .failed } }) := by
  unfold txTimeout
  split
  · next h => exact .inl ⟨h, rfl⟩
  · next h => exact .inr ⟨Nat.le_of_not_lt h, rfl⟩

/-- What a reached deadline leaves in the transmitter unit (R127). -/
theorem txTimeout_tx (s : State) : (txTimeout s).tx =
    if s.tx.tAttempts < s.params.cfgTx.maxAttempts then
      { s.tx with tAttempts := s.tx.tAttempts + 1, tState := .sending }
    else { s.tx with tState := .failed } := by
  unfold txTimeout; split <;> rfl

/-- The wait for an acknowledgment (R127): nothing to read, an ACK, a NACK or a reached deadline, or another byte. -/
theorem txAwait_cases (now : Nat) (s : State) :
    (s.env.ret = [] ∧ now < s.tx.tDeadline ∧ txAwait now s = s) ∨
    (s.env.ret = [] ∧ s.tx.tDeadline ≤ now ∧ txAwait now s = txTimeout s) ∨
    (∃ rest, s.env.ret = s.params.cfgTx.ackByte :: rest ∧
      txAwait now s = { s with env := { s.env with ret := rest }, tx := { s.tx with tState := .succeeded } }) ∨
    (∃ b rest, s.env.ret = b :: rest ∧ b ≠ s.params.cfgTx.ackByte ∧
      (isNack s.params.cfgTx b = true ∨ s.tx.tDeadline ≤ now) ∧
      txAwait now s = txTimeout { s with env := { s.env with ret := rest } }) ∨
    (∃ b rest, s.env.ret = b :: rest ∧ b ≠ s.params.cfgTx.ackByte ∧ isNack s.params.cfgTx b = false ∧
      now < s.tx.tDeadline ∧ txAwait now s = { s with env := { s.env with ret := rest } }) := by
  cases hr : s.env.ret with
  | nil =>
    rcases Nat.lt_or_ge now s.tx.tDeadline with h | h
    · exact .inl ⟨rfl, h, by simp [txAwait, hr, Nat.not_le.mpr h]⟩
    · exact .inr (.inl ⟨rfl, h, by simp [txAwait, hr, h]⟩)
  | cons b rest =>
    right; right
    by_cases hb : b = s.params.cfgTx.ackByte
    · refine .inl ⟨rest, by rw [hb], ?_⟩
      unfold txAwait; rw [hr]; exact if_pos hb
    · right
      by_cases hn : isNack s.params.cfgTx b = true ∨ s.tx.tDeadline ≤ now
      · refine .inl ⟨b, rest, rfl, hb, hn, ?_⟩
        unfold txAwait; rw [hr]; exact (if_neg hb).trans (if_pos hn)
      · refine .inr ⟨b, rest, rfl, hb, ?_, ?_, ?_⟩
        · simp only [not_or, Bool.not_eq_true] at hn; exact hn.1
        · omega
        · unfold txAwait; rw [hr]; exact (if_neg hb).trans (if_neg hn)

/-- One step of the transmitter, by state (R129). -/
theorem stepTransmitter_next {now : Nat} {s t : State} (h : stepTransmitter now s = .next t) :
    s.tx.tLastNow ≤ now ∧ ∃ u, t = u.respondTx (some (.status u.tx.tState.status)) ∧
    ((s.tx.tState ≠ .sending ∧ s.tx.tState ≠ .awaitingAck ∧ u = { s with tx := { s.tx with tLastNow := now } }) ∨
     (s.tx.tState = .sending ∧ tickFits s.params.cfgTx.tickBits (now + s.params.cfgTx.timeoutTicks) = true ∧
        u = txTransmitState now { s with tx := { s.tx with tLastNow := now } }) ∨
     (s.tx.tState = .awaitingAck ∧ u = txAwait now { s with tx := { s.tx with tLastNow := now } })) := by
  unfold stepTransmitter at h
  split at h
  · cases h
  · next hn =>
    obtain ⟨u, hu, h⟩ := andThen_eq_next.mp h
    cases h
    refine ⟨Nat.le_of_not_lt hn, u, rfl, ?_⟩
    obtain ⟨v, hv⟩ : ∃ v, s.setTx { s.tx with tLastNow := now } = v := ⟨_, rfl⟩
    have hv' : v = { s with tx := { s.tx with tLastNow := now } } := hv.symm
    have ht : v.tx.tState = s.tx.tState := by rw [hv']
    have hp : v.params = s.params := by rw [hv']
    rw [hv, txByState, ht] at hu
    rw [← hv']
    cases hs : s.tx.tState <;> simp only [hs] at hu
    · cases hu; exact .inl ⟨by simp, by simp, rfl⟩
    · obtain ⟨hf, rfl⟩ := txTransmit_next hu; exact .inr (.inl ⟨rfl, hp ▸ hf, rfl⟩)
    · cases hu; exact .inr (.inr ⟨rfl, rfl⟩)
    · cases hu; exact .inl ⟨by simp, by simp, rfl⟩
    · cases hu; exact .inl ⟨by simp, by simp, rfl⟩

/-- What the wait for an acknowledgment does to a session: it goes on, succeeds, is retried or fails (R127). -/
theorem txAwait_session (now : Nat) (s : State) :
    (txAwait now s).tx = s.tx ∨ (txAwait now s).tx = { s.tx with tState := .succeeded } ∨
    (s.tx.tAttempts < s.params.cfgTx.maxAttempts ∧
      (txAwait now s).tx = { s.tx with tAttempts := s.tx.tAttempts + 1, tState := .sending }) ∨
    (s.params.cfgTx.maxAttempts ≤ s.tx.tAttempts ∧ (txAwait now s).tx = { s.tx with tState := .failed }) := by
  have key : ∀ v : State, v.tx = s.tx → v.params = s.params → txAwait now s = txTimeout v →
      (s.tx.tAttempts < s.params.cfgTx.maxAttempts ∧
        (txAwait now s).tx = { s.tx with tAttempts := s.tx.tAttempts + 1, tState := .sending }) ∨
      (s.params.cfgTx.maxAttempts ≤ s.tx.tAttempts ∧ (txAwait now s).tx = { s.tx with tState := .failed }) := by
    intro v ht hp hv
    rw [hv, txTimeout_tx, ht, hp]
    split
    · next h => exact .inl ⟨h, rfl⟩
    · next h => exact .inr ⟨Nat.le_of_not_lt h, rfl⟩
  obtain ⟨-, -, h⟩ | ⟨-, -, h⟩ | ⟨r, -, h⟩ | ⟨b, r, -, -, -, h⟩ | ⟨b, r, -, -, -, -, h⟩ := txAwait_cases now s
  · exact .inl (by rw [h])
  · exact .inr (.inr (key _ rfl rfl h))
  · exact .inr (.inl (by rw [h]))
  · exact .inr (.inr (key { s with env := { s.env with ret := r } } rfl rfl h))
  · exact .inl (by rw [h])

/-- What a step of the transmitter does to a session, whatever it does to the channels (R129). -/
theorem stepTransmitter_session {now : Nat} {s t : State} (h : stepTransmitter now s = .next t) :
    t.tx.tFrame = s.tx.tFrame ∧ t.tx.tLen = s.tx.tLen ∧ t.tx.tReqResult = s.tx.tReqResult ∧ t.tx.tLastNow = now ∧
    ((t.tx.tState = s.tx.tState ∧ s.tx.tState ≠ .sending ∧ t.tx.tAttempts = s.tx.tAttempts ∧
        t.tx.tDeadline = s.tx.tDeadline) ∨
     (s.tx.tState = .sending ∧ t.tx.tState = .awaitingAck ∧ t.tx.tAttempts = s.tx.tAttempts ∧
        t.tx.tDeadline = now + s.params.cfgTx.timeoutTicks ∧ tickFits s.params.cfgTx.tickBits t.tx.tDeadline = true) ∨
     (s.tx.tState = .awaitingAck ∧ t.tx.tState = .succeeded ∧ t.tx.tAttempts = s.tx.tAttempts ∧
        t.tx.tDeadline = s.tx.tDeadline) ∨
     (s.tx.tState = .awaitingAck ∧ t.tx.tState = .sending ∧ t.tx.tAttempts = s.tx.tAttempts + 1 ∧
        s.tx.tAttempts < s.params.cfgTx.maxAttempts ∧ t.tx.tDeadline = s.tx.tDeadline) ∨
     (s.tx.tState = .awaitingAck ∧ t.tx.tState = .failed ∧ t.tx.tAttempts = s.tx.tAttempts ∧
        s.params.cfgTx.maxAttempts ≤ s.tx.tAttempts ∧ t.tx.tDeadline = s.tx.tDeadline)) := by
  obtain ⟨-, u, rfl, ⟨h1, -, rfl⟩ | ⟨hs, hf, rfl⟩ | ⟨hs, rfl⟩⟩ := stepTransmitter_next h
  · simp [h1]
  · simp only [State.respondTx_tx, txTransmitState, hs]; simp [hf]
  · simp only [State.respondTx_tx]
    obtain h | h | ⟨hn, h⟩ | ⟨hn, h⟩ :=
      txAwait_session now { s with tx := { s.tx with tLastNow := now } } <;> rw [h] <;> simp [hs] <;> exact hn

/-- A step of the transmitter completes when the tick does not go backwards and, in SENDING, the deadline fits and `FWD`
has room (R129, R126). -/
theorem stepTransmitter_completes {now : Nat} {s : State} (hn : s.tx.tLastNow ≤ now)
    (hf : tickFits s.params.cfgTx.tickBits (now + s.params.cfgTx.timeoutTicks) = true)
    (hr : ∀ n, s.params.chanDepth = some n → s.env.fwd.length + s.tx.wire.length ≤ n) :
    ∃ t, stepTransmitter now s = .next t := by
  unfold stepTransmitter
  rw [if_neg (Nat.not_lt.mpr hn)]
  unfold txByState
  cases hs : s.tx.tState <;> simp only [State.setTx_tx, hs, andThen_next] <;> try exact ⟨_, rfl⟩
  rw [txTransmit_of_room (by simpa [TxUnit.wire] using hr)]
  simp [hf]

end Sys2Proof.Machine
end

