-- ==== Sys2Proof/Laws/System.lean ====
section
/-! SUPPORT. What a command, a harness tick and a step can do: one inversion lemma per command, one for SYS_TICK, one for
`step`, the frames that follow, and the equations of a harness run. -/

namespace Sys2Proof.Machine

/-! ## The receiver's frame -/

/-- The loop of RX_STEP touches the receiver, the two channels and the draws of `RET` only. -/
theorem rxLoop_frame {bs : List Byte} {s t : State} (hb : s.env.fwd = bs) (h : rxLoop bs s = .next t) :
    t.codec = s.codec ∧ t.tx = s.tx ∧ t.params = s.params ∧ t.bus = s.bus ∧ t.env.now = s.env.now ∧
    t.env.delivered = s.env.delivered ∧ t.ports.payload = s.ports.payload ∧ t.ports.tick = s.ports.tick ∧
    t.ports.req = s.ports.req ∧ t.ports.fwdDraws = s.ports.fwdDraws := by
  refine rxLoop_induction (P := fun u => u.codec = s.codec ∧ u.tx = s.tx ∧ u.params = s.params ∧ u.bus = s.bus ∧
    u.env.now = s.env.now ∧ u.env.delivered = s.env.delivered ∧ u.ports.payload = s.ports.payload ∧
    u.ports.tick = s.ports.tick ∧ u.ports.req = s.ports.req ∧ u.ports.fwdDraws = s.ports.fwdDraws)
    (fun _ h => h) (fun _ _ _ hP _ _ => hP) ?_ (fun _ _ _ _ hP _ _ => hP) hb
    ⟨rfl, rfl, rfl, rfl, rfl, rfl, rfl, rfl, rfl, rfl⟩ h
  intro b rest u e hP _ _
  simpa [rxTaken] using hP

/-- One step of the receiver touches the receiver, the two channels and the draws of `RET` only. -/
theorem stepReceiver_frame {s t : State} (h : stepReceiver s = .next t) :
    t.codec = s.codec ∧ t.tx = s.tx ∧ t.params = s.params ∧ t.bus = s.bus ∧ t.env.now = s.env.now ∧
    t.env.delivered = s.env.delivered ∧ t.ports.payload = s.ports.payload ∧ t.ports.tick = s.ports.tick ∧
    t.ports.req = s.ports.req ∧ t.ports.fwdDraws = s.ports.fwdDraws := by
  obtain ⟨u, hu, rfl⟩ := stepReceiver_eq_next.mp h
  have := rxLoop_frame (s := s.setRx { s.rx with rxReady := false }) (t := u) rfl hu
  simpa using this

/-! ## The transmitter's frame -/

/-- A reached deadline touches the transmitter unit only. -/
theorem txTimeout_frame (s : State) : (txTimeout s).codec = s.codec ∧ (txTimeout s).rx = s.rx ∧
    (txTimeout s).env = s.env ∧ (txTimeout s).params = s.params ∧ (txTimeout s).ports = s.ports ∧
    (txTimeout s).bus = s.bus := by
  obtain ⟨-, h⟩ | ⟨-, h⟩ := txTimeout_cases s <;> rw [h] <;> simp

/-- The wait for an acknowledgment touches the transmitter unit and `RET` only. -/
theorem txAwait_frame (now : Nat) (s : State) : (txAwait now s).codec = s.codec ∧ (txAwait now s).rx = s.rx ∧
    (txAwait now s).params = s.params ∧ (txAwait now s).ports = s.ports ∧ (txAwait now s).bus = s.bus ∧
    (txAwait now s).env.fwd = s.env.fwd ∧ (txAwait now s).env.now = s.env.now ∧
    (txAwait now s).env.delivered = s.env.delivered := by
  obtain ⟨-, -, h⟩ | ⟨-, -, h⟩ | ⟨r, -, h⟩ | ⟨b, r, -, -, -, h⟩ | ⟨b, r, -, -, -, -, h⟩ := txAwait_cases now s <;>
    rw [h] <;> simp [txTimeout_frame]

/-- One step of the transmitter touches the transmitter, the two channels and the draws of `FWD` only. -/
theorem stepTransmitter_frame {now : Nat} {s t : State} (h : stepTransmitter now s = .next t) :
    t.codec = s.codec ∧ t.rx = s.rx ∧ t.params = s.params ∧ t.bus = s.bus ∧ t.env.now = s.env.now ∧
    t.env.delivered = s.env.delivered ∧ t.ports.payload = s.ports.payload ∧ t.ports.tick = s.ports.tick ∧
    t.ports.req = s.ports.req ∧ t.ports.retDraws = s.ports.retDraws := by
  obtain ⟨-, u, rfl, ⟨-, -, rfl⟩ | ⟨-, -, rfl⟩ | ⟨-, rfl⟩⟩ := stepTransmitter_next h <;>
    simp [txTransmitState, txAwait_frame]

/-! ## A harness tick -/

/-- Step (a) of SYS_TICK makes the request in IDLE, and nothing else (R136). -/
theorem tickRequest_cases (s : State) :
    (∃ p, s.ports.req = some p ∧ s.tx.tState = .idle ∧ tickRequest s = requestSend p s) ∨
    ((s.ports.req = none ∨ s.tx.tState ≠ .idle) ∧ tickRequest s = s) := by
  unfold tickRequest State.requestOperand
  split
  · next h => exact .inr ⟨.inl h, rfl⟩
  · next p h =>
    split
    · next hi => exact .inl ⟨p, h, hi, rfl⟩
    · next hi => exact .inr ⟨.inr hi, rfl⟩

/-- Step (a) of SYS_TICK touches the transmitter unit only. -/
theorem tickRequest_frame (s : State) :
    (tickRequest s).codec = s.codec ∧ (tickRequest s).rx = s.rx ∧ (tickRequest s).env = s.env ∧
    (tickRequest s).params = s.params ∧ (tickRequest s).ports = s.ports ∧ (tickRequest s).bus = s.bus ∧
    (tickRequest s).tx.tLastNow = s.tx.tLastNow ∧ (tickRequest s).tx.tDeadline = s.tx.tDeadline := by
  obtain ⟨p, -, -, h⟩ | ⟨-, h⟩ := tickRequest_cases s
  · rw [h]; exact requestSend_frame p s
  · rw [h]; simp

/-- A result of the receiver shows a payload exactly when the ready flag is set. -/
theorem RxUnit.result_eq_payload {r : RxUnit} {p : List Byte} :
    r.result = .payload p ↔ r.rxReady = true ∧ r.outPayload = p := by
  unfold RxUnit.result; split <;> simp_all

/-- Step (d) of SYS_TICK after a step of the receiver (R136). -/
theorem tickDeliver_eq {s : State} (h : s.rx.resp = some s.rx.result) : tickDeliver s =
    { s with env := { s.env with
        delivered := s.env.delivered ++ (if s.rx.rxReady then [s.rx.outPayload] else []) } } := by
  unfold tickDeliver
  rw [h]
  unfold RxUnit.result
  cases s.rx.rxReady
  · simp
  · simp; rfl

/-- SYS_TICK, taken apart into its steps (R136). -/
theorem execSysTick_next {s t : State} (h : execSysTick s = .next t) :
    s.params.wellFormed = true ∧ ∃ u v, stepTransmitter s.env.now (tickRequest s) = .next u ∧
      stepReceiver u = .next v ∧
      t = { v with env := { v.env with
        now := v.env.now + 1
        delivered := v.env.delivered ++ (if v.rx.rxReady then [v.rx.outPayload] else []) } } := by
  obtain ⟨hw, h⟩ := whenConfigured_eq_next.mp h
  obtain ⟨u, hu, h⟩ := andThen_eq_next.mp h
  obtain ⟨v, hv, h⟩ := andThen_eq_next.mp h
  refine ⟨hw, u, v, hu, hv, ?_⟩
  cases h
  have hr : v.rx.resp = some v.rx.result := by
    obtain ⟨w, -, rfl⟩ := stepReceiver_eq_next.mp hv; rfl
  rw [tickDeliver_eq hr]; rfl

/-! ## Commands and steps -/

/-- Every command answers a next state only under well-formed configurations (R17), and none writes one (R19). -/
theorem exec_next_params {i : Instr} {s t : State} (h : exec i s = .next t) :
    s.params.wellFormed = true ∧ t.params = s.params := by
  cases i
  case rxStep =>
    obtain ⟨hw, h⟩ := whenConfigured_eq_next.mp h
    exact ⟨hw, (stepReceiver_frame h).2.2.1⟩
  case txRequestSend =>
    obtain ⟨hw, h⟩ := whenConfigured_eq_next.mp h
    cases h
    exact ⟨hw, (requestSend_frame _ s).2.2.2.1⟩
  case txStep =>
    obtain ⟨hw, h⟩ := whenConfigured_eq_next.mp h
    exact ⟨hw, (stepTransmitter_frame h).2.2.1⟩
  case sysTick =>
    obtain ⟨hw, u, v, hu, hv, rfl⟩ := execSysTick_next h
    refine ⟨hw, ?_⟩
    rw [(stepReceiver_frame hv).2.2.1, (stepTransmitter_frame hu).2.2.1, (tickRequest_frame s).2.2.2.1]
  all_goals
    obtain ⟨hw, h⟩ := whenConfigured_eq_next.mp h
    cases h
    exact ⟨hw, rfl⟩

/-- A step answers a next state only through the command that the word on the bus encodes. -/
theorem step_next {s t : State} (h : step s = .next t) :
    ∃ i, decode s.fetchWord = .command i ∧ exec i s.takeIssue = .next t := by
  unfold step at h
  split at h
  · cases h
  · next i hi => exact ⟨i, hi, h⟩

/-! ## Harness runs (R137) -/

/-- A command on the bus is a harness tick exactly when its word is SYS_TICK's. -/
theorem State.ticksNext_eq_true {s : State} : s.ticksNext = true ↔ decode s.fetchWord = .command .sysTick := by
  simp [State.ticksNext]

theorem becomesTerminal_eq_true {s t : State} :
    becomesTerminal s t = true ↔ s.tx.tState.terminal = false ∧ t.tx.tState.terminal = true := by
  simp [becomesTerminal]

@[simp] theorem runCommands_none (budget : Nat) (s : State) : runCommands 0 budget s = .next s := rfl

@[simp] theorem runCommands_spent (commands : Nat) (s : State) : runCommands commands 0 s = .next s := by
  cases commands <;> rfl

/-- A tick runs whole and takes one of the budget, and the run ends with it if the session becomes terminal in it. -/
theorem runCommands_tick {s : State} (h : s.ticksNext = true) (commands budget : Nat) :
    runCommands (commands + 1) (budget + 1) s =
      andThen (step s) fun t => if becomesTerminal s t then .next t else runCommands commands budget t := by
  simp [runCommands, h]

/-- A command that is no tick runs, takes nothing of the budget and ends nothing. -/
theorem runCommands_other {s : State} (h : s.ticksNext = false) (commands budget : Nat) :
    runCommands (commands + 1) (budget + 1) s = andThen (step s) (runCommands commands (budget + 1)) := by
  simp [runCommands, h]

end Sys2Proof.Machine
end

