-- ==== Sys2Proof/Tests/Slice0.lean ====
section
/-! SUPPORT. Tests and witnesses. Every expected result is copied from the spec: the encodings of 30_encoding.md and the
vectors of 95_test_vectors.md, named by their ids. A `test_witness_X` shows values that meet the hypotheses of
`Obligations.X` together, at a boundary of each clause where the statement has several. -/

open Sys2Proof Sys2Proof.Machine

namespace Sys2Proof.Tests

/-! ## Small states -/

/-- `"OLA"` (R91). -/
def ola : List Byte := [0x4F, 0x4C, 0x41]

/-- The frame of `"OLA"` under REF (W3). -/
def olaFrame : List Byte := [0x02, 0x03, 0x4F, 0x4C, 0x41, 0x41, 0x03]

/-- A block right after reset with the same record in its three units, `T0 = 0`, unbounded channels. -/
def under (c : UnitConfig) : State := State.afterReset { Params.ref with cfgCodec := c, cfgRx := c, cfgTx := c }

/-- A decoder from reset that has taken some bytes. -/
def decoderAfter (c : UnitConfig) (bs : List Byte) : Decoder := ((Decoder.atReset c.maxLen).pushAll c bs).1

def withDecoder (d : Decoder) (s : State) : State := s.setCodec { s.codec with dec := d }

def withAcc (a : Byte) (s : State) : State := s.setCodec { s.codec with acc := a }

def withChannels (fwd ret : List Byte) (s : State) : State := s.setEnv { s.env with fwd := fwd, ret := ret }

/-- A session for `"OLA"` under `MAX_LEN = 16`, in a given state with its count and deadline. -/
def session (t : TxState) (attempts deadline : Nat) (s : State) : State :=
  s.setTx { s.tx with
    tState := t, tAttempts := attempts, tDeadline := deadline, tLen := 3, tFrame := olaFrame ++ List.replicate 13 0 }

def atTick (now : Nat) (s : State) : State := s.setPorts { s.ports with tick := now }

def offering (p : List Byte) (s : State) : State := s.setPorts { s.ports with payload := p }

def bounded (depth : Nat) (s : State) : State := { s with params := { s.params with chanDepth := some depth } }

/-- One value read from the next state of an outcome. -/
def after {α : Type} (o : StepOutcome) (f : State → α) : Option α := (nextState? o).map f

/-- The registers of a decoder in the order of the vectors of 95_test_vectors.md section 4. -/
def decoderRegisters (d : Decoder) : DecState × Byte × Byte × Byte × Byte × Reason :=
  (d.dState, d.dLen, d.dIdx, d.dCsum, d.dRxcsum, d.dErr)

/-- The "session" of 95_test_vectors.md section 6. -/
def sessionOf (s : State) : TxState × Nat × Nat := (s.tx.tState, s.tx.tAttempts, s.tx.tDeadline)

/-! ## WellFormed refuses each ill-formed record -/

/-- R17: `MAX_LEN <= 255`. -/
theorem test_wellFormed_maxLen : { UnitConfig.ref with maxLen := 256 }.wellFormed = false ∧
    { UnitConfig.ref with maxLen := 255 }.wellFormed = true := by decide

/-- R17: `MAX_ATTEMPTS >= 1`. -/
theorem test_wellFormed_maxAttempts : { UnitConfig.ref with maxAttempts := 0 }.wellFormed = false ∧
    { UnitConfig.ref with maxAttempts := 1 }.wellFormed = true := by decide

/-- R17: ACK and NACK differ when NACK is enabled, and only then. -/
theorem test_wellFormed_nack :
    { UnitConfig.ref with nackEnable := true, nackByte := 0x06 }.wellFormed = false ∧
    { UnitConfig.ref with nackEnable := true }.wellFormed = true ∧
    { UnitConfig.ref with nackByte := 0x06 }.wellFormed = true := by decide

/-- R142: every command under an ill-formed record is refused `INVALID_CONFIG`. -/
theorem test_wellFormed_refusal :
    refusal? (exec .nop (under { UnitConfig.ref with maxLen := 256 })) = some .invalidConfig := by decide

/-- R81, vectors S6 to S8: the three kinds of illegal word. -/
theorem test_illegal_words :
    [0xD000, 0xE123, 0xF0FF].map decode = List.replicate 3 (.illegal .reservedOpcode) ∧
    [0x0100, 0x2100, 0x4F02].map decode = List.replicate 3 (.illegal .reservedField) ∧
    [0x0001, 0x6001, 0x9005, 0xB0FF].map decode = List.replicate 4 (.illegal .strayOperand) := by decide

/-! ## Decoding: the word of every command, written out from the fields of R78 and R80 -/

/-- `op`, then `rsv = 0000`, then `imm8`. -/
theorem test_decode_plain :
    [0b0000000000000000, 0b0001000000000000, 0b0011000000000000, 0b0101000000000000, 0b0110000000000000,
      0b0111000000000000, 0b1000000000000000, 0b1001000000000000, 0b1010000000000000, 0b1011000000000000,
      0b1100000000000000].map decode =
    [.command .nop, .command .csumClear, .command .encode, .command .decReset, .command .rxStep,
      .command .rxReset, .command .txRequestSend, .command .txStep, .command .txReset, .command .sysReset,
      .command .sysTick] := by decide

/-- Vectors S4, S5 and program P5: the two commands with a byte operand. -/
theorem test_decode_operand :
    decode 0b0010000011111111 = .command (.csumAcc 0xFF) ∧ decode 0b0100000000000000 = .command (.decPush 0x00) ∧
    decode 0x404F = .command (.decPush 0x4F) := by decide

/-- The word of every command, from R80's patterns. -/
theorem test_encode :
    [Instr.nop, .csumClear, .csumAcc 0x4F, .encode, .decPush 0x4F, .decReset, .rxStep, .rxReset, .txRequestSend, .txStep,
      .txReset, .sysReset, .sysTick].map encode =
    [0x0000, 0x1000, 0x204F, 0x3000, 0x404F, 0x5000, 0x6000, 0x7000, 0x8000, 0x9000, 0xA000, 0xB000, 0xC000] := by decide

/-- The host's reading of a table row is the decoder's. -/
theorem test_decodeTableWord :
    decodeTableWord 16 0xC000 = some .sysTick ∧ decodeTableWord 16 0xD000 = none := by decide

/-- The textual form of R91. -/
theorem test_text :
    Instr.text (.csumAcc 0x4F) .idle = "CSUM_ACC 0x4F" ∧
    Instr.text .encode { Ports.idle with payload := ola } = "ENCODE [0x4F, 0x4C, 0x41]" ∧
    Instr.text .txStep { Ports.idle with tick := 110 } = "TX_STEP @110" ∧ asciiPayload "OLA" = ola := by decide

/-! ## Codes (R83 to R90) -/

/-- R83, R85, R86. -/
theorem test_codes_of_states :
    [DecState.awaitStart, .awaitLength, .awaitPayload, .awaitChecksum, .awaitEnd, .done, .error].map DecState.code =
      [0, 1, 2, 3, 4, 5, 6] ∧
    [Reason.none, .lengthExceedsLimit, .checksumMismatch, .unexpectedEnd].map Reason.code = [0, 1, 2, 3] ∧
    [TxState.idle, .sending, .awaitingAck, .succeeded, .failed].map TxState.code = [0, 1, 2, 3, 4] := by decide

/-- R84, R87, R88, R89, R90. -/
theorem test_codes_of_results :
    [Verdict.pending, .valid [], .invalid .unexpectedEnd].map Verdict.code = [0, 1, 2] ∧
    [TxStatus.idle, .pending, .succeeded, .failed].map TxStatus.code = [0, 1, 2, 3] ∧
    [EncodeResult.frame olaFrame, .payloadTooLarge].map EncodeResult.code = [0, 1] ∧
    [EncodeResult.frame olaFrame, .payloadTooLarge].map EncodeResult.count = [7, 0] ∧
    [ReqResult.none, .accepted, .payloadTooLarge, .notIdle].map ReqResult.code = [0, 1, 2, 3] ∧
    [RxPolicy.one, .all].map rxPolicyCode = [0, 1] ∧
    [DecTerminalPolicy.discard, .autoReset].map decTerminalPolicyCode = [0, 1] := by decide

/-- R51. -/
theorem test_status :
    [TxState.idle, .sending, .awaitingAck, .succeeded, .failed].map TxState.status =
      [.idle, .pending, .pending, .succeeded, .failed] := by decide

/-! ## One step of each command -/

/-- S1. -/
theorem test_nop : nextState? (exec .nop (withAcc 0x5A State.reset)) = some (withAcc 0x5A State.reset) := by decide

/-- K1. -/
theorem test_csumClear : after (exec .csumClear (withAcc 0x4C State.reset)) (·.codec.acc) = some 0x00 := by decide

/-- K2, its second command. -/
theorem test_csumAcc : after (exec (.csumAcc 0x4F) (withAcc 0x03 State.reset)) (·.codec.acc) = some 0x4C := by decide

/-- K5. -/
theorem test_csumAcc_inverts : after (exec (.csumAcc 0xFF) (withAcc 0x5A State.reset)) (·.codec.acc) = some 0xA5 := by
  decide

/-- The `Csum` table of 95_test_vectors.md section 2. -/
theorem test_csum :
    [[], [0x01], [0x02], [0xFF, 0xFF], ola, [0x4E, 0x4D, 0x41], List.replicate 16 0x00].map csum =
      [0x00, 0x00, 0x03, 0x02, 0x41, 0x41, 0x10] := by decide

/-- E1. -/
theorem test_encode_frame :
    after (exec .encode (offering ola State.reset)) (·.codec.resp) = some (some (.encoded (.frame olaFrame))) := by decide

/-- E6. -/
theorem test_encode_too_large :
    after (exec .encode (offering (List.replicate 17 0x00) State.reset)) (·.codec.resp) =
      some (some (.encoded .payloadTooLarge)) := by decide

/-- DC1, its last byte. -/
theorem test_decPush_valid :
    after (exec (.decPush 0x03) (withDecoder (decoderAfter .ref [0x02, 0x03, 0x4F, 0x4C, 0x41, 0x41]) State.reset))
      (·.codec.resp) = some (some (.verdict (.valid ola))) ∧
    after (exec (.decPush 0x03) (withDecoder (decoderAfter .ref [0x02, 0x03, 0x4F, 0x4C, 0x41, 0x41]) State.reset))
      (fun s => decoderRegisters s.codec.dec) = some (.done, 3, 3, 0x41, 0x41, .none) := by decide

/-- DC15: the byte that causes an error is consumed, here a START byte under AUTO_RESET. -/
theorem test_decPush_consumes_the_bad_byte :
    after (exec (.decPush 0x02) (withDecoder (decoderAfter { UnitConfig.ref with decTerminalPolicy := .autoReset }
        [0x02, 0x03, 0x4F, 0x4C, 0x41, 0x41]) (under { UnitConfig.ref with decTerminalPolicy := .autoReset })))
      (fun s => (s.codec.resp, s.codec.dec.dState)) =
    some (some (.verdict (.invalid .unexpectedEnd)), .error) := by decide

/-- DC17. -/
theorem test_decReset :
    after (exec .decReset (withDecoder (decoderAfter .ref [0x02, 0x11, 0x01]) State.reset))
      (fun s => decoderRegisters s.codec.dec) = some (.awaitStart, 0, 0, 0x00, 0x00, .none) := by decide

/-- X1. -/
theorem test_rxStep :
    after (exec .rxStep (withChannels ([0x02, 0x20] ++ olaFrame) [] State.reset))
      (fun s => (s.rx.resp, s.rx.rxLastErr, s.env.fwd, s.env.ret)) =
    some (some (.payload ola), .lengthExceedsLimit, [], [0x06]) ∧
    after (exec .rxStep (withChannels ([0x02, 0x20] ++ olaFrame) [] State.reset))
      (fun s => (s.rx.rxReady, s.rx.dec.dState)) = some (true, .awaitStart) := by decide

/-- X2, its first command: ALL stops at a Valid verdict. -/
theorem test_rxStep_stops_at_a_frame :
    after (exec .rxStep (withChannels (olaFrame ++ [0x02, 0x00, 0x00, 0x03]) [] State.reset))
      (fun s => (s.rx.resp, s.env.fwd)) = some (some (.payload ola), [0x02, 0x00, 0x00, 0x03]) := by decide

/-- X6, its fourth command: the partial frame is dropped, the channels stay. -/
theorem test_rxReset :
    after (exec .rxReset ((withChannels [0x4C] [0x06] State.reset).setRx
        { State.reset.rx with dec := decoderAfter .ref [0x02, 0x03, 0x4F], rxReady := true }))
      (fun s => (s.rx.dec.dState, s.rx.rxReady, s.rx.rxLastErr, s.env.fwd, s.env.ret)) =
    some (.awaitStart, false, .none, [0x4C], [0x06]) := by decide

/-- T1. -/
theorem test_txRequestSend :
    after (exec .txRequestSend (offering ola State.reset))
      (fun s => (s.tx.resp, sessionOf s, s.tx.tLen, s.tx.tFrame.take 7, s.env.fwd)) =
    some (some (.request .accepted), (.sending, 1, 0), 3, olaFrame, []) := by decide

/-- T3. -/
theorem test_txRequestSend_not_idle :
    after (exec .txRequestSend (offering (List.replicate 17 0x00) (session .awaitingAck 1 110 State.reset)))
      (fun s => (s.tx.resp, sessionOf s)) = some (some (.request .notIdle), .awaitingAck, 1, 110) := by decide

/-- T6. -/
theorem test_txStep_transmits :
    after (exec .txStep (atTick 10 (session .sending 1 0 State.reset)))
      (fun s => (s.tx.resp, s.env.fwd, sessionOf s)) =
    some (some (.status .pending), olaFrame, .awaitingAck, 1, 110) := by decide

/-- T8: an ACK wins over a reached deadline. -/
theorem test_txStep_ack_wins :
    after (exec .txStep (atTick 110 (withChannels [] [0x06] (session .awaitingAck 1 110 State.reset))))
      (fun s => (s.tx.resp, s.env.ret, sessionOf s)) =
    some (some (.status .succeeded), [], .succeeded, 1, 110) := by decide

/-- T19. -/
theorem test_txReset :
    after (exec .txReset (withChannels olaFrame [0x06] (session .failed 3 312 State.reset)))
      (fun s => (sessionOf s, s.tx.tLen, s.tx.tFrame, s.env.fwd, s.env.ret)) =
    some ((.idle, 0, 0), 0, List.replicate 20 0x00, olaFrame, [0x06]) := by decide

/-- S2. -/
theorem test_sysReset :
    nextState? (exec .sysReset (withChannels olaFrame [0x06] (session .failed 3 312 State.reset))) =
      some State.reset := by decide

/-- P1, tick 10. -/
theorem test_sysTick :
    after (exec .sysTick { State.reset with
        env := { State.reset.env with now := 10 }, ports := { Ports.idle with req := some ola } })
      (fun s => (sessionOf s, s.rx.resp, s.env)) =
    some ((.awaitingAck, 1, 110), some (.payload ola), { fwd := [], ret := [0x06], now := 11, delivered := [ola] }) := by
  decide

/-- P2, tick 10: the ACK pushed in this tick is dropped. -/
theorem test_sysTick_drops_the_ack :
    after (exec .sysTick { State.reset with
        env := { State.reset.env with now := 10 }, ports := { Ports.idle with req := some ola, retDraws := [.drop] } })
      (fun s => (sessionOf s, s.env.ret)) = some ((.awaitingAck, 1, 110), []) := by decide

/-- R137: a scenario ends with the tick in which the session becomes terminal, before its budget is spent. -/
theorem test_scenario_ends :
    after (runScenario 3 { withChannels [] [0x06] (session .awaitingAck 1 110 State.reset) with
        bus := List.replicate 3 plainTick })
      (fun s => (s.tx.tState, s.env.now, s.bus.length)) = some (.succeeded, 1, 2) := by decide

/-- R137: a NOP takes no tick of the budget, a TX_STEP that succeeds ends nothing, and a budget of two ticks is then spent
on a session that was terminal before them. -/
theorem test_scenario_counts_ticks :
    after (runScenario 2 { withChannels [] [0x06] (session .awaitingAck 1 110 State.reset) with
        bus := [{ word := 0x0000, ports := .idle }, { word := 0x9000, ports := .idle }] ++ List.replicate 3 plainTick })
      (fun s => (s.tx.tState, s.env.now, s.bus.length)) = some (.succeeded, 2, 1) := by decide

/-- The host's word is run by the very next step. -/
theorem test_withFetchWord :
    nextState? (step (State.reset.withFetchWord 16 0x20FF)) = nextState? (exec (.csumAcc 0xFF) State.reset) := by decide

/-! ## Refusals and the fault (R142) -/

/-- T16. -/
theorem test_nonMonotoneTick :
    refusal? (exec .txStep (atTick 9 (State.reset.setTx { State.reset.tx with tLastNow := 10 }))) =
      some .nonMonotoneTick := by decide

/-- T17. -/
theorem test_tickOverflow :
    refusal? (exec .txStep (atTick 200 (session .sending 1 0
      (under { UnitConfig.ref with tickBits := .finite 8 (by decide) })))) = some .tickOverflow := by decide

/-- R64: a push into a full channel of a bounded realization is a fault. -/
theorem test_channelOverflow :
    fault? (exec .txStep (bounded 6 (session .sending 1 0 State.reset))) = some .channelOverflow := by decide

/-- S6: `ILLEGAL_COMMAND`. -/
theorem test_illegalCommand :
    refusal? (step (State.reset.withFetchWord 16 0xD000)) = some (.illegalCommand .reservedOpcode) := by decide

/-! ## Witnesses: configuration, words, steps -/

theorem test_witness_ConfigurationCheckRefusesExactlyIllFormed :
    (under { UnitConfig.ref with maxLen := 256 }).params.cfgCodec.wellFormed = false ∧
    { State.reset.params with cfgRx := { UnitConfig.ref with maxAttempts := 0 } }.cfgRx.wellFormed = false ∧
    { State.reset.params with cfgTx := { UnitConfig.ref with nackEnable := true, ackByte := 0x15 } }.cfgTx.wellFormed =
      false := by decide

theorem test_witness_StepKeepsTheConfiguration :
    nextState? (step State.reset) = some State.reset := by decide

theorem test_witness_OpcodeTableIsDecoded : 0xD000 ≤ (0xD000 : Word).toNat ∧ 0xD000 ≤ (0xFFFF : Word).toNat := by decide

theorem test_witness_IllegalWordsAreRefused :
    (State.reset.withFetchWord 16 0xD000).params.wellFormed = true ∧
    (State.reset.withFetchWord 16 0xD000).bus = [{ word := 0xD000, ports := Ports.idle }] ∧
    13 ≤ (0xD000 : Word).toNat / 4096 ∧ (0x0100 : Word).toNat / 256 % 16 ≠ 0 ∧
    ((0x0001 : Word).toNat % 256 ≠ 0 ∧ (0x0001 : Word).toNat / 4096 ≠ 2 ∧ (0x0001 : Word).toNat / 4096 ≠ 4) := by decide

theorem test_witness_StepRunsTheIssuedCommand :
    (State.reset.withFetchWord 16 0xC000).bus = [{ word := 0xC000, ports := Ports.idle }] ∧
    Instr.sysTick.wellFormed = true ∧ decode 0xC000 = .command .sysTick ∧ State.reset.bus = [] := by decide

/-- Meets the only hypothesis, well-formed parameters, of every statement that has no other. -/
theorem test_witness_NopChangesNothing : State.reset.params.wellFormed = true := by decide

theorem test_witness_CsumClearClearsTheAccumulator : (withAcc 0x4C State.reset).params.wellFormed = true := by decide

theorem test_witness_CsumAccCombinesTheByte :
    (withAcc 0x5A State.reset).params.wellFormed = true ∧
    (nextState? (exec (.csumAcc 0x00) (withAcc 0x5A State.reset))).isSome = true ∧
    (nextState? (exec (.csumAcc 0xFF) (withAcc 0x5A State.reset))).isSome = true ∧
    ((nextState? (exec (.csumAcc 0x41) (withAcc 0x5A State.reset))).bind
      fun t => nextState? (exec (.csumAcc 0x41) t)).isSome = true := by decide

theorem test_witness_ChecksumIsRunningXor : (List.replicate 255 (0x00 : Byte)).length ≤ 255 :=
  Nat.le_of_eq List.length_replicate

theorem test_witness_ChecksumLaws :
    [0x4F, 0x4C, 0x41].Perm ([0x4C, 0x4F, 0x41] : List Byte) ∧
    olaFrame[6]? = some 0x03 ∧ (0x03 : Byte) ≠ 0x04 ∧ 0 ≠ 6 ∧ olaFrame[0]? = some 0x02 ∧ 7 < 8 := by decide

/-! ## Witnesses: encoder and decoder -/

theorem test_witness_EncodeFunctionFollowsItsRule :
    { UnitConfig.ref with maxLen := 255 }.wellFormed = true ∧
    ({ UnitConfig.ref with maxLen := 255 } : UnitConfig).maxLen < (List.replicate 256 (0x00 : Byte)).length ∧
    (List.replicate 255 (0x00 : Byte)).length ≤ ({ UnitConfig.ref with maxLen := 255 } : UnitConfig).maxLen :=
  ⟨by decide, Nat.lt_of_lt_of_eq (by decide : 255 < 256) List.length_replicate.symm,
    Nat.le_of_eq List.length_replicate⟩

theorem test_witness_EncodeReturnsTheFrameOnly :
    (offering (List.replicate 17 0x00) State.reset).params.wellFormed = true ∧
    State.reset.params.cfgCodec.maxLen < (offering (List.replicate 17 0x00) State.reset).ports.payload.length ∧
    (offering (List.replicate 16 0x00) State.reset).ports.payload.length ≤ State.reset.params.cfgCodec.maxLen := by decide

theorem test_witness_FrameHasTheWireFormat :
    UnitConfig.ref.wellFormed = true ∧ encodeFrame .ref ola = .frame olaFrame ∧ 2 < ola.length := by decide

theorem test_witness_DecoderAwaitStartRule :
    (decoderAfter .ref []).dState = .awaitStart ∧ (0x02 : Byte) = UnitConfig.ref.startByte ∧
    (0x03 : Byte) ≠ UnitConfig.ref.startByte := by decide

theorem test_witness_DecoderAwaitLengthRule :
    (decoderAfter .ref [0x02]).dState = .awaitLength ∧ UnitConfig.ref.maxLen < (0x11 : Byte).toNat ∧
    (0x00 : Byte).toNat ≤ UnitConfig.ref.maxLen ∧
    (0x10 : Byte).toNat ≤ UnitConfig.ref.maxLen ∧ (0x10 : Byte) ≠ 0x00 := by decide

/-- Both clauses: before the last payload byte, and at it. -/
theorem test_witness_DecoderAwaitPayloadRule :
    (decoderAfter .ref [0x02, 0x03, 0x4F]).dState = .awaitPayload ∧ (decoderAfter .ref [0x02, 0x03, 0x4F]).Ok 16 ∧
    (decoderAfter .ref [0x02, 0x03, 0x4F]).dIdx + 1 ≠ (decoderAfter .ref [0x02, 0x03, 0x4F]).dLen ∧
    (decoderAfter .ref [0x02, 0x03, 0x4F, 0x4C]).dState = .awaitPayload ∧
    (decoderAfter .ref [0x02, 0x03, 0x4F, 0x4C]).Ok 16 ∧
    (decoderAfter .ref [0x02, 0x03, 0x4F, 0x4C]).dIdx + 1 = (decoderAfter .ref [0x02, 0x03, 0x4F, 0x4C]).dLen := by decide

theorem test_witness_DecoderAwaitChecksumRule :
    (decoderAfter .ref [0x02, 0x00]).dState = .awaitChecksum ∧ (0x01 : Byte) ≠ (decoderAfter .ref [0x02, 0x00]).dCsum ∧
    (0x00 : Byte) = (decoderAfter .ref [0x02, 0x00]).dCsum := by decide

theorem test_witness_DecoderAwaitEndRule :
    (decoderAfter .ref [0x02, 0x00, 0x00]).dState = .awaitEnd ∧ (0x03 : Byte) = UnitConfig.ref.endByte ∧
    (0x02 : Byte) ≠ UnitConfig.ref.endByte := by decide

theorem test_witness_DecoderTerminalRule :
    (decoderAfter .ref [0x02, 0x00, 0x00, 0x03]).dState = .done ∧ (decoderAfter .ref [0x02, 0xFF]).dState = .error ∧
    UnitConfig.ref.decTerminalPolicy = .discard ∧
    { UnitConfig.ref with decTerminalPolicy := .autoReset }.decTerminalPolicy = .autoReset := by decide

theorem test_witness_DecPushAppliesTheTransition :
    State.reset.params.wellFormed = true ∧
    (State.reset.codec.dec.push State.reset.params.cfgCodec 0x02).2 = .pending := by decide

theorem test_witness_DecResetResetsTheDecoder :
    (withDecoder (decoderAfter .ref [0x02, 0x11]) State.reset).params.wellFormed = true ∧
    (decoderAfter .ref [0x02, 0x11]).dState = .error := by decide

/-- The empty payload and one of `MAX_LEN` bytes. -/
theorem test_witness_DecodingAnEncodedFrameGivesThePayload :
    UnitConfig.ref.wellFormed = true ∧ (Decoder.atReset 16).dState = .awaitStart ∧
    (Decoder.atReset 16).dBuf.length = UnitConfig.ref.maxLen ∧
    encodeFrame .ref [] = .frame [0x02, 0x00, 0x00, 0x03] ∧
    encodeFrame .ref (List.replicate 16 0x00) =
      .frame ([0x02, 0x10] ++ List.replicate 16 0x00 ++ [0x10, 0x03]) := by decide

theorem test_witness_TruncatedFrameStaysPending :
    UnitConfig.ref.wellFormed = true ∧ (Decoder.atReset 16).dState = .awaitStart ∧
    (Decoder.atReset 16).dBuf.length = UnitConfig.ref.maxLen ∧ encodeFrame .ref ola = .frame olaFrame ∧
    (0x02 : Byte) ≠ UnitConfig.ref.endByte := by decide

theorem test_witness_NoiseBeforeStartIsIgnored :
    (Decoder.atReset 16).dState = .awaitStart ∧ UnitConfig.ref.startByte ∉ ([0x55, 0xFF, 0x03] : List Byte) := by decide

/-- The first payload byte, and the CHECKSUM byte. -/
theorem test_witness_PayloadCorruptionIsDetected :
    UnitConfig.ref.wellFormed = true ∧ (Decoder.atReset 16).dState = .awaitStart ∧
    (Decoder.atReset 16).dBuf.length = UnitConfig.ref.maxLen ∧ encodeFrame .ref ola = .frame olaFrame ∧
    0 ≤ ola.length ∧ olaFrame[2 + 0]? = some 0x4F ∧ (0x4F : Byte) ≠ 0x4E ∧
    3 ≤ ola.length ∧ olaFrame[2 + 3]? = some 0x41 ∧ (0x41 : Byte) ≠ 0x40 := by decide

theorem test_witness_DecoderReachesAVerdictInBoundedTime :
    UnitConfig.ref.wellFormed = true ∧ (decoderAfter .ref [0x02]).Ok UnitConfig.ref.maxLen ∧
    (decoderAfter .ref [0x02]).dState = .awaitLength ∧ UnitConfig.ref.maxLen < (0x11 : Byte).toNat ∧
    UnitConfig.ref.maxLen + 3 ≤ (List.replicate 19 (0x55 : Byte)).length := by decide

/-! ## Witnesses: receiver -/

/-- Unbounded, and bounded with room for one byte. -/
theorem test_witness_ValidVerdictIsLatchedAndAcknowledged :
    ola.length ≤ State.reset.rx.rxOutBuf.length ∧ State.reset.rx.rxOutBuf.length ≤ 255 ∧
    State.reset.params.chanDepth = none ∧
    (bounded 1 State.reset).params.chanDepth = some 1 ∧ (bounded 1 State.reset).env.ret.length < 1 := by decide

theorem test_witness_InvalidVerdictIsRecordedAndResynchronised :
    State.reset.params.cfgRx.nackEnable = false ∧
    (under { UnitConfig.ref with nackEnable := true }).params.cfgRx.nackEnable = true ∧
    (under { UnitConfig.ref with nackEnable := true }).params.chanDepth = none := by decide

/-- `FWD` empty; a PENDING byte, an Invalid and a Valid verdict under both policies. -/
theorem test_witness_RxStepTakesBytesInOrder :
    State.reset.params.wellFormed = true ∧ State.reset.env.fwd = [] ∧
    (under { UnitConfig.ref with rxPolicy := .one }).params.wellFormed = true ∧
    ((decoderAfter .ref []).push .ref 0x02).2 = .pending ∧
    ((decoderAfter .ref [0x02]).push .ref 0xFF).2 = .invalid .lengthExceedsLimit ∧
    ((decoderAfter .ref [0x02, 0x00, 0x00]).push .ref 0x03).2 = .valid [] ∧
    State.reset.params.cfgRx.rxPolicy = .all := by decide

/-- Unbounded, and bounded with just enough room. -/
theorem test_witness_RxStepCompletesAndTouchesOnlyTheReceiver :
    (withChannels olaFrame [] (bounded 7 State.reset)).params.wellFormed = true ∧
    (withChannels olaFrame [] (bounded 7 State.reset)).env.ret.length +
      (withChannels olaFrame [] (bounded 7 State.reset)).env.fwd.length ≤ 7 := by decide

/-- Under ONE, and under ALL without a Valid verdict. -/
theorem test_witness_RxPolicyBoundsTheBytesTaken :
    after (exec .rxStep (withChannels olaFrame [] (under { UnitConfig.ref with rxPolicy := .one }))) (·.env.fwd) =
      some (olaFrame.drop 1) ∧
    after (exec .rxStep (withChannels [0x02, 0x03] [] State.reset)) (·.rx.rxReady) = some false := by decide

theorem test_witness_OneAckPerValidFrame :
    (nextState? (exec .rxStep (withChannels olaFrame [] State.reset))).isSome = true ∧
    State.reset.ports.retDraws = [] ∧ State.reset.params.cfgRx.nackEnable = false ∧
    (nextState? (exec .rxStep (withChannels olaFrame []
      (under { UnitConfig.ref with nackEnable := true })))).isSome = true := by decide

theorem test_witness_ReceiverDeliversTheFrame :
    (withChannels ([0x55, 0x03] ++ olaFrame ++ [0x02]) [] State.reset).Inv ∧
    State.reset.params.cfgRx.rxPolicy = .all ∧ State.reset.params.chanDepth = none ∧ State.reset.ports.retDraws = [] ∧
    State.reset.rx.dec.dState = .awaitStart ∧ State.reset.params.cfgRx.startByte ∉ ([0x55, 0x03] : List Byte) ∧
    encodeFrame State.reset.params.cfgRx ola = .frame olaFrame :=
  ⟨⟨by decide, by decide, by decide, by decide⟩, by decide⟩

theorem test_witness_RxResetDropsThePartialFrame : State.reset.params.wellFormed = true := by decide

/-! ## Witnesses: transmitter -/

/-- NOT_IDLE, a payload of `MAX_LEN + 1` bytes, and one of `MAX_LEN` bytes. -/
theorem test_witness_RequestSendAcceptsOnlyFromIdle :
    State.reset.params.wellFormed = true ∧ (session .succeeded 1 110 State.reset).tx.tState ≠ .idle ∧
    State.reset.tx.tState = .idle ∧
    State.reset.params.cfgTx.maxLen < (offering (List.replicate 17 0x00) State.reset).ports.payload.length ∧
    (offering (List.replicate 16 0x00) State.reset).ports.payload.length ≤ State.reset.params.cfgTx.maxLen ∧
    State.reset.tx.tFrame.length = State.reset.params.cfgTx.maxLen + 4 := by decide

/-- A session at the last tick whose deadline fits 7 bits, with just enough room in `FWD`; one tick later it does not. -/
def edgeOfSending : State :=
  bounded 7 (atTick 27 (session .sending 1 0 (under { UnitConfig.ref with tickBits := .finite 7 (by decide) })))

theorem test_witness_TxStepTransmitsTheWholeFrame :
    edgeOfSending.params.wellFormed = true ∧ edgeOfSending.tx.tState = .sending ∧
    edgeOfSending.tx.tLastNow ≤ edgeOfSending.ports.tick ∧ edgeOfSending.params.chanDepth = some 7 ∧
    edgeOfSending.env.fwd.length + (edgeOfSending.tx.tLen.toNat + 4) ≤ 7 ∧
    edgeOfSending.params.cfgTx.tickBits = .finite 7 (by decide) ∧
    edgeOfSending.ports.tick + edgeOfSending.params.cfgTx.timeoutTicks < 2 ^ 7 ∧
    2 ^ 7 ≤ (atTick 28 edgeOfSending).ports.tick + edgeOfSending.params.cfgTx.timeoutTicks ∧
    edgeOfSending.tx.tFrame.length = edgeOfSending.params.cfgTx.maxLen + 4 ∧
    edgeOfSending.tx.tLen.toNat ≤ edgeOfSending.params.cfgTx.maxLen := by decide

/-- Each clause at the tick, or the count, where it begins. -/
theorem test_witness_TxStepAwaitsTheAcknowledgment :
    (session .awaitingAck 1 110 State.reset).params.wellFormed = true ∧
    (session .awaitingAck 1 110 State.reset).tx.tState = .awaitingAck ∧
    State.reset.tx.tLastNow ≤ (atTick 109 State.reset).ports.tick ∧
    (atTick 109 State.reset).ports.tick < (session .awaitingAck 1 110 State.reset).tx.tDeadline ∧
    (session .awaitingAck 1 110 State.reset).tx.tDeadline ≤ (atTick 110 State.reset).ports.tick ∧
    (session .awaitingAck 2 211 State.reset).tx.tAttempts < State.reset.params.cfgTx.maxAttempts ∧
    State.reset.params.cfgTx.maxAttempts ≤ (session .awaitingAck 3 312 State.reset).tx.tAttempts ∧
    State.reset.params.cfgTx.ackByte = 0x06 ∧ (0x15 : Byte) ≠ State.reset.params.cfgTx.ackByte ∧
    (under { UnitConfig.ref with nackEnable := true }).params.cfgTx.nackEnable = true ∧
    (under { UnitConfig.ref with nackEnable := true }).params.cfgTx.nackByte = 0x15 ∧
    State.reset.params.cfgTx.nackEnable = false := by decide

theorem test_witness_TxStepIsPassiveWithoutASession :
    State.reset.params.wellFormed = true ∧ State.reset.tx.tLastNow ≤ (atTick 5 State.reset).ports.tick ∧
    State.reset.tx.tState = .idle ∧ (session .succeeded 1 110 State.reset).tx.tState = .succeeded ∧
    (session .failed 3 312 State.reset).tx.tState = .failed := by decide

theorem test_witness_DecreasingTickIsRefused :
    State.reset.params.wellFormed = true ∧
    (atTick 9 (State.reset.setTx { State.reset.tx with tLastNow := 10 })).ports.tick < 10 ∧
    (State.reset.setTx { State.reset.tx with tLastNow := 1 }).env.now < 1 := by decide

/-- REF with `TICK_BITS = 8` (T17). -/
def eightBits : UnitConfig := { UnitConfig.ref with tickBits := .finite 8 (by decide) }

/-- The last deadline that fits 8 bits, and the first that does not. -/
theorem test_witness_DeadlineOverflowIsRefused :
    (under eightBits).params.wellFormed = true ∧ (under eightBits).params.cfgTx.tickBits = .finite 8 (by decide) ∧
    (session .sending 1 0 (under eightBits)).tx.tState = .sending ∧
    (under eightBits).tx.tLastNow ≤ (atTick 155 (under eightBits)).ports.tick ∧ (under eightBits).params.chanDepth = none ∧
    (session .sending 1 0 (bounded 7 (under eightBits))).env.fwd.length +
      ((session .sending 1 0 (bounded 7 (under eightBits))).tx.tLen.toNat + 4) ≤ 7 ∧
    155 + eightBits.timeoutTicks < 2 ^ 8 ∧ 2 ^ 8 ≤ 156 + eightBits.timeoutTicks := by decide

theorem test_witness_FullChannelFaults :
    State.reset.params.chanDepth = none ∧ (bounded 1 State.reset).params.chanDepth = some 1 ∧
    1 ≤ (withChannels [0x02] [0x06] (bounded 1 State.reset)).env.fwd.length ∧
    1 ≤ (withChannels [0x02] [0x06] (bounded 1 State.reset)).env.ret.length ∧
    (bounded 1 State.reset).env.fwd.length < 1 ∧ (bounded 1 State.reset).env.ret.length < 1 := by decide

theorem test_witness_DrawsDeliverDropOrReplace :
    ∀ d ∈ [Draw.deliver, Draw.drop], d = .deliver ∨ d = .drop := by decide

theorem test_witness_TxResetForcesIdle : (session .failed 3 312 State.reset).params.wellFormed = true := by decide

/-- An entry to SENDING by a request, one by a retry, a reset to 0, and an entry to FAILED. -/
theorem test_witness_AttemptsCountEntriesToSending :
    (session .awaitingAck 3 0 State.reset).Inv ∧
    after (exec .txRequestSend (offering ola State.reset)) (·.tx.tState) = some .sending ∧
    after (exec .txStep (session .awaitingAck 1 0 State.reset)) (·.tx.tState) = some .sending ∧
    after (exec .txReset (session .awaitingAck 3 0 State.reset)) (·.tx.tAttempts) = some 0 ∧
    after (exec .txStep (session .awaitingAck 3 0 State.reset)) (·.tx.tState) = some .failed :=
  ⟨⟨by decide, by decide, by decide, by decide⟩, by decide⟩

theorem test_witness_OutstandingFrameIsNeverChanged :
    (session .sending 1 0 State.reset).tx.tState ≠ .idle ∧
    (nextState? (exec .sysTick (session .sending 1 0 State.reset))).isSome = true := by decide

theorem test_witness_TerminalSessionNeedsAReset :
    (session .succeeded 1 110 State.reset).tx.tState = .succeeded ∧
    (session .failed 3 312 State.reset).tx.tState = .failed ∧
    (nextState? (exec .sysTick (session .failed 3 312 State.reset))).isSome = true := by decide

/-- `TIMEOUT_TICKS = 0` (log entry 9) and two attempts, with a bus that loses every acknowledgment and disturbs one frame. -/
def unacknowledged : State :=
  { under { UnitConfig.ref with timeoutTicks := 0, maxAttempts := 2 } with
    bus := tickIssue (some ola) [] [.drop] :: [[], [.drop], []].map fun f => tickIssue none f [.drop] }

theorem test_witness_UnacknowledgedSessionFailsOnTime :
    unacknowledged.Inv ∧ unacknowledged.tx.tState = .idle ∧ unacknowledged.env.ret = [] ∧
    unacknowledged.tx.tLastNow ≤ unacknowledged.env.now ∧ ola.length ≤ unacknowledged.params.cfgTx.maxLen ∧
    unacknowledged.params.cfgRx.nackEnable = false ∧ unacknowledged.params.chanDepth = none ∧
    unacknowledged.params.cfgTx.tickBits = .unbounded ∧
    ([[], [.drop], []] : List (List Draw)).length =
      unacknowledged.params.cfgTx.maxAttempts * max 1 unacknowledged.params.cfgTx.timeoutTicks +
        (unacknowledged.params.cfgTx.maxAttempts - 1) ∧
    unacknowledged.bus = tickIssue (some ola) [] [.drop] ::
      ([[], [.drop], []] : List (List Draw)).map fun f => tickIssue none f [.drop] :=
  ⟨⟨by decide, by decide, by decide, by decide⟩, by decide⟩

/-- The ticks of `Obligations.SessionSucceedsAfterLosses` for one lost acknowledgment and one lost frame of `"OLA"`. -/
def lossyTicks (timeout wait : Nat) : List Issue :=
  ([true, false].flatMap fun ackLost =>
    if ackLost then List.replicate (max 1 timeout + 1) (tickIssue none [] [.drop])
    else tickIssue none (List.replicate (ola.length + 4) .drop) [] :: List.replicate (max 1 timeout) plainTick) ++
  List.replicate (wait + 1) plainTick

def lossy (policy : RxPolicy) (timeout wait : Nat) : State :=
  { under { UnitConfig.ref with rxPolicy := policy, timeoutTicks := timeout } with
    bus := (lossyTicks timeout wait).modifyHead (fun i => { i with ports := { i.ports with req := some ola } }) }

/-- The premises that the two policies share. -/
abbrev LossyPremises (s : State) : Prop :=
  s.tx.tState = .idle ∧ s.env.fwd = [] ∧ s.env.ret = [] ∧ s.rx.dec.dState = .awaitStart ∧
  s.tx.tLastNow ≤ s.env.now ∧ s.params.chanDepth = none ∧ s.params.cfgTx.tickBits = .unbounded ∧
  s.params.cfgRx.nackEnable = false ∧ s.params.cfgRx = s.params.cfgTx ∧ ola.length ≤ s.params.cfgTx.maxLen ∧
  [true, false].length < s.params.cfgTx.maxAttempts

/-- ALL, with `TIMEOUT_TICKS = 0` (log entry 9). -/
theorem test_witness_SessionSucceedsAfterLosses :
    (lossy .all 0 1).Inv ∧ LossyPremises (lossy .all 0 1) ∧ (lossy .all 0 1).params.cfgRx.rxPolicy = .all :=
  ⟨⟨by decide, by decide, by decide, by decide⟩, by decide, by decide⟩

/-- ONE, with the shortest timeout that R133 allows there, `L + 4` ticks. -/
theorem test_witness_SessionSucceedsAfterLosses_one :
    (lossy .one 7 7).Inv ∧ LossyPremises (lossy .one 7 7) ∧ (lossy .one 7 7).params.cfgRx.rxPolicy = .one ∧
    7 = ola.length + 4 ∧ ola.length + 4 ≤ (lossy .one 7 7).params.cfgTx.timeoutTicks :=
  ⟨⟨by decide, by decide, by decide, by decide⟩, by decide, by decide⟩

/-! ## Witnesses: system and whole machine -/

theorem test_witness_SysResetGivesEveryResetValue :
    (withChannels olaFrame [0x06] (session .failed 3 312 State.reset)).params.wellFormed = true := by decide

/-- The reset commands run; and a payload stands on the RX port of a state with `rx_ready` set, from which a step goes
on. -/
theorem test_witness_ResetsLeaveTheModelsOwnFields :
    ([Instr.decReset, .rxReset, .txReset, .sysReset].map fun i => (nextState? (exec i State.reset)).isSome) =
      [true, true, true, true] ∧
    after (exec .rxStep (withChannels olaFrame [] State.reset))
      (fun s => (s.rx.resp, s.rx.rxReady, (nextState? (step s)).isSome)) = some (some (.payload ola), true, true) := by
  decide

/-- With a request in IDLE, with none, and with one in another state. -/
theorem test_witness_SysTickRunsItsStepsInOrder :
    State.reset.params.wellFormed = true ∧ State.reset.tx.tState = .idle ∧ State.reset.ports.req = none ∧
    (session .sending 1 0 State.reset).tx.tState ≠ .idle := by decide

/-- Bounded with just enough room. -/
theorem test_witness_SysTickCompletes :
    (bounded 21 (withChannels [0x55] [] State.reset)).Inv ∧ State.reset.tx.tLastNow ≤ State.reset.env.now ∧
    tickFits State.reset.params.cfgTx.tickBits (State.reset.env.now + State.reset.params.cfgTx.timeoutTicks) = true ∧
    (bounded 21 (withChannels [0x55] [] State.reset)).env.ret.length +
      (bounded 21 (withChannels [0x55] [] State.reset)).env.fwd.length + State.reset.params.cfgTx.maxLen + 4 ≤ 21 :=
  ⟨⟨by decide, by decide, by decide, by decide⟩, by decide⟩

theorem test_witness_AcknowledgmentIsSeenOneTickLater :
    State.reset.env.ret = [] ∧ State.reset.tx.tState ≠ .succeeded ∧
    (nextState? (exec .sysTick State.reset)).isSome = true := by decide

theorem test_witness_UnitsShareNoRegister :
    (nextState? (exec .encode State.reset)).isSome = true ∧ (nextState? (exec .rxStep State.reset)).isSome = true ∧
    (nextState? (exec .txStep State.reset)).isSome = true := by decide

/-- Another codec under another record. -/
def otherCodec (s : State) : State :=
  withAcc 0x5A { s with params := { s.params with cfgCodec := { UnitConfig.ref with maxLen := 3 } } }

/-- Another receiver under another record. -/
def otherRx (s : State) : State :=
  State.setRx { s with params := { s.params with cfgRx := { UnitConfig.ref with rxPolicy := .one } } }
    { s.rx with rxReady := true }

/-- Another transmitter under another record. -/
def otherTx (s : State) : State :=
  session .failed 1 312 { s with params := { s.params with cfgTx := { UnitConfig.ref with maxAttempts := 1 } } }

/-- For each unit, two states that agree on it and differ in the two others, and a command of it that runs. -/
theorem test_witness_UnitsLearnNothingOfEachOther :
    State.reset.params.wellFormed = true ∧
    (otherRx (otherTx State.reset)).params.wellFormed = true ∧
    (otherRx (otherTx State.reset)).codec = State.reset.codec ∧
    (otherRx (otherTx State.reset)).params.cfgCodec = State.reset.params.cfgCodec ∧
    (nextState? (exec (.decPush 0x02) (otherRx (otherTx State.reset)))).isSome = true ∧
    (otherCodec (otherTx State.reset)).params.wellFormed = true ∧
    (otherCodec (otherTx State.reset)).rx = State.reset.rx ∧
    (otherCodec (otherTx State.reset)).params.cfgRx = State.reset.params.cfgRx ∧
    (nextState? (exec .rxStep (otherCodec (otherTx State.reset)))).isSome = true ∧
    (otherCodec (otherRx State.reset)).params.wellFormed = true ∧
    (otherCodec (otherRx State.reset)).tx = State.reset.tx ∧
    (otherCodec (otherRx State.reset)).params.cfgTx = State.reset.params.cfgTx ∧
    (nextState? (exec .txStep (otherCodec (otherRx State.reset)))).isSome = true := by decide

/-- A transmission, a pop of `RET`, and a receiver that takes bytes. -/
theorem test_witness_ChannelsHaveOneWriterAndOneReader :
    after (exec .txStep (session .sending 1 0 State.reset)) (·.env.fwd) = some olaFrame ∧
    after (exec .txStep (withChannels [] [0x55] (session .awaitingAck 1 110 State.reset))) (·.env.ret) = some [] ∧
    after (exec .rxStep (withChannels olaFrame [] State.reset)) (·.env.ret) = some [0x06] ∧
    (nextState? (exec .txReset State.reset)).isSome = true := by decide

theorem test_witness_ResetStateIsGood : Params.ref.wellFormed = true := by decide

/-- A good state with a session, a partial frame and bytes in flight, from which a step goes on. -/
theorem test_witness_EveryStepKeepsTheRegisterInvariants :
    (withDecoder (decoderAfter .ref [0x02, 0x03, 0x4F])
      (withChannels olaFrame [0x06] (session .awaitingAck 1 110 State.reset))).Inv ∧
    (nextState? (step (withDecoder (decoderAfter .ref [0x02, 0x03, 0x4F])
      (withChannels olaFrame [0x06] (session .awaitingAck 1 110 State.reset))))).isSome = true :=
  ⟨⟨by decide, by decide, by decide, by decide⟩, by decide⟩

end Sys2Proof.Tests
end

section
/-! PROOFS. The configuration check (00_scope.md R17, 70_reset_and_hazards.md R152): what it tests in one record and in
the three records of a block, and that every command stands behind it. -/

namespace Sys2Proof

theorem UnitConfig.wellFormed_iff (c : UnitConfig) :
    c.wellFormed = true ↔
      c.maxLen ≤ 255 ∧ 1 ≤ c.maxAttempts ∧ (c.nackEnable = true → c.ackByte ≠ c.nackByte) := by
  simp only [UnitConfig.wellFormed, Bool.and_eq_true, decide_eq_true_eq, and_assoc]
  cases c.nackEnable <;> simp

/-- One ill-formed record makes the block's parameters ill formed, whichever unit it belongs to (log entry 11). -/
theorem Params.wellFormed_eq_false_iff (p : Params) :
    p.wellFormed = false ↔
      p.cfgCodec.wellFormed = false ∨ p.cfgRx.wellFormed = false ∨ p.cfgTx.wellFormed = false := by
  simp only [Params.wellFormed, Bool.and_eq_false_iff, or_assoc]

namespace Machine

/-- Every command's meaning is a `whenConfigured`, so the configuration check comes before its other refusals. -/
theorem exec_of_illFormed {s : State} (h : s.params.wellFormed = false) (i : Instr) :
    exec i s = .refused .invalidConfig := by
  cases i <;> exact whenConfigured_of_illFormed h _

/-- Settles O1: the record's check by its three tests (`0 ≤ TIMEOUT_TICKS` holds of every natural number), the refusal
by the check that every command begins with. -/
theorem configurationCheckRefusesExactlyIllFormed : Obligations.ConfigurationCheckRefusesExactlyIllFormed := by
  unfold Obligations.ConfigurationCheckRefusesExactlyIllFormed
  refine ⟨fun c => ?_, fun i s hill => ?_⟩
  · rw [c.wellFormed_iff]
    simp only [Nat.zero_le, true_and]
  · exact exec_of_illFormed (s.params.wellFormed_eq_false_iff.mpr hill) i

end Machine
end Sys2Proof
end

section
/-! PROOFS. The outstanding frame (20_memory.md R71, 10_state.md R47): once a session exists, a send request, the
request of a harness tick and every command but the two resets keep its captured bytes and its length. -/

namespace Sys2Proof.Machine

/-- The bytes that a transmission sends are those of `t_frame` and `t_len` (R47). -/
theorem TxUnit.wire_congr {t u : TxUnit} (hframe : t.tFrame = u.tFrame) (hlen : t.tLen = u.tLen) :
    t.wire = u.wire := by
  unfold TxUnit.wire
  rw [hframe, hlen]

/-- A send request outside IDLE answers NOT_IDLE, whatever its payload (R128, R141 (a)). -/
theorem requestSend_of_session {s : State} (hs : s.tx.tState ≠ .idle) (p : List Byte) :
    requestSend p s =
      { s with tx := { s.tx with tReqResult := .notIdle, resp := some (.request .notIdle) } } := by
  obtain ⟨-, h⟩ | ⟨hidle, -⟩ | ⟨hidle, -⟩ := requestSend_cases p s
  · exact h
  · exact absurd hidle hs
  · exact absurd hidle hs

/-- Step (a) of SYS_TICK makes no request outside IDLE (R136). -/
theorem tickRequest_of_session {s : State} (hs : s.tx.tState ≠ .idle) : tickRequest s = s := by
  obtain ⟨p, -, hidle, -⟩ | ⟨-, h⟩ := tickRequest_cases s
  · exact absurd hidle hs
  · exact h

/-- SYS_TICK in a session keeps its frame: step (a) makes no request, step (b) is a step of the transmitter, and the rest
touches no register of the transmitter. -/
theorem execSysTick_keepsOutstandingFrame {s t : State} (hs : s.tx.tState ≠ .idle) (h : execSysTick s = .next t) :
    t.tx.tFrame = s.tx.tFrame ∧ t.tx.tLen = s.tx.tLen := by
  obtain ⟨-, u, v, hu, hv, rfl⟩ := execSysTick_next h
  rw [tickRequest_of_session hs] at hu
  obtain ⟨hframe, hlen, -⟩ := stepTransmitter_session hu
  obtain ⟨-, htx, -⟩ := stepReceiver_frame hv
  exact ⟨htx ▸ hframe, htx ▸ hlen⟩

/-- No command but the two resets writes `t_frame` or `t_len` in a session. -/
theorem exec_keepsOutstandingFrame {i : Instr} {s t : State} (hs : s.tx.tState ≠ .idle) (htxReset : i ≠ .txReset)
    (hsysReset : i ≠ .sysReset) (h : exec i s = .next t) : t.tx.tFrame = s.tx.tFrame ∧ t.tx.tLen = s.tx.tLen := by
  cases i
  case txReset => exact absurd rfl htxReset
  case sysReset => exact absurd rfl hsysReset
  case sysTick => exact execSysTick_keepsOutstandingFrame hs h
  case rxStep =>
    obtain ⟨-, h⟩ := whenConfigured_eq_next.mp h
    obtain ⟨-, htx, -⟩ := stepReceiver_frame h
    simp [htx]
  case txRequestSend =>
    obtain ⟨-, h⟩ := whenConfigured_eq_next.mp h
    cases h
    simp [requestSend_of_session hs]
  case txStep =>
    obtain ⟨-, h⟩ := whenConfigured_eq_next.mp h
    obtain ⟨hframe, hlen, -⟩ := stepTransmitter_session h
    exact ⟨hframe, hlen⟩
  -- The remaining commands write registers of the codec or the receiver only.
  all_goals
    obtain ⟨-, h⟩ := whenConfigured_eq_next.mp h
    cases h
    exact ⟨rfl, rfl⟩

/-- Settles O46, by the commands' effect on `t_frame` and `t_len`, which fix the bytes that a transmission sends. -/
theorem outstandingFrameIsNeverChanged : Obligations.OutstandingFrameIsNeverChanged := by
  unfold Obligations.OutstandingFrameIsNeverChanged
  intro i s t hs htxReset hsysReset h
  obtain ⟨hframe, hlen⟩ := exec_keepsOutstandingFrame hs htxReset hsysReset h
  exact ⟨hframe, hlen, TxUnit.wire_congr hframe hlen⟩

end Sys2Proof.Machine
end

section
/-! PROOFS. Command words that encode no command (30_encoding.md R81): the three reasons by the word's fields, and the
step that meets one (60_exceptions.md R142). -/

namespace Sys2Proof

/-- The opcodes that take a byte operand are those of CSUM_ACC and DEC_PUSH (R79, R80). -/
theorem takesByte_of_commandOf {op : BitVec 4} {b : Byte} {i : Instr} {takes : Bool}
    (h : commandOf op b = some (i, takes)) : takes = true ↔ op.toNat = 2 ∨ op.toNat = 4 := by
  obtain ⟨rfl, rfl, -⟩ := (commandOf_eq_some op b i takes).mp h
  simp [← BitVec.toNat_inj]

/-- The three reasons for which the decoder rejects a word, by field (R81). -/
theorem decode_illegal_iff_fields (w : Word) :
    (∃ e, decode w = .illegal e) ↔ 13 ≤ (opField w).toNat ∨ rsvField w ≠ 0 ∨
      (imm8Field w ≠ 0 ∧ (opField w).toNat ≠ 2 ∧ (opField w).toNat ≠ 4) := by
  obtain ⟨hop, hd⟩ | ⟨i, takes, hc, hd⟩ := decode_cases w
  · exact iff_of_true ⟨_, hd⟩ (.inl hop)
  · have hop : ¬ 13 ≤ (opField w).toNat := by simp [← commandOf_eq_none _ (imm8Field w), hc]
    have hstray : (!takes && imm8Field w != 0) = true ↔
        imm8Field w ≠ 0 ∧ (opField w).toNat ≠ 2 ∧ (opField w).toNat ≠ 4 := by
      simp [← Bool.not_eq_true, takesByte_of_commandOf hc, and_comm]
    rw [hd, ← hstray]
    split
    · next hrsv => exact iff_of_true ⟨_, rfl⟩ (.inr (.inl hrsv))
    · next hrsv =>
      split
      · next h => exact iff_of_true ⟨_, rfl⟩ (.inr (.inr h))
      · next h => exact iff_of_false (by simp) (not_or.mpr ⟨hop, not_or.mpr ⟨hrsv, h⟩⟩)

/-- The same three reasons as arithmetic on the word's value. -/
theorem decode_illegal_iff (w : Word) :
    (∃ e, decode w = .illegal e) ↔ 13 ≤ w.toNat / 4096 ∨ w.toNat / 256 % 16 ≠ 0 ∨
      (w.toNat % 256 ≠ 0 ∧ w.toNat / 4096 ≠ 2 ∧ w.toNat / 4096 ≠ 4) := by
  rw [decode_illegal_iff_fields, ← opField_toNat, ← rsvField_toNat, ← imm8Field_toNat]
  simp only [ne_eq, ← BitVec.toNat_inj, BitVec.ofNat_eq_ofNat, BitVec.toNat_ofNat, Nat.zero_mod]

namespace Machine

/-- A step that meets an illegal word is refused with the decoder's reason, whatever the state (R81). -/
theorem step_of_illegal {s : State} {e : IllegalWord} (h : decode s.fetchWord = .illegal e) :
    step s = .refused (.illegalCommand e) := by
  simp only [step, h]

/-- Settles O4, by the decoder's reasons read off the word's value and the refusal of a step that meets one. -/
theorem illegalWordsAreRefused : Obligations.IllegalWordsAreRefused := by
  unfold Obligations.IllegalWordsAreRefused
  refine fun w => ⟨decode_illegal_iff w, fun s p rest hbus hw => ?_⟩
  obtain ⟨e, he⟩ := (decode_illegal_iff w).mpr hw
  have hfetch : s.fetchWord = w := State.fetchWord_cons hbus
  exact ⟨.illegalCommand e, step_of_illegal (hfetch ▸ he), fun _ => ⟨e, rfl⟩⟩

end Machine
end Sys2Proof
end

section
/-! PROOFS. The wire format (30_encoding.md R73): the encoder's frames, and what stands at each offset of one. -/

namespace Sys2Proof.Machine

/-- The encoder answers a frame exactly for a payload within the limit, and then that payload's wire bytes (R100). -/
theorem encodeFrame_eq_frame {cfg : UnitConfig} {p f : List Byte} :
    encodeFrame cfg p = .frame f ↔ p.length ≤ cfg.maxLen ∧ frameBytes cfg p = f := by
  obtain hgt | hle := Nat.lt_or_ge cfg.maxLen p.length
  · simp [encodeFrame_of_gt hgt, hgt]
  · simp [encodeFrame_of_le hle, hle]

/-- The checksum as the running XOR that starts from the LENGTH byte (R95). -/
theorem csum_eq_foldl (p : List Byte) : csum p = p.foldl (fun a b => a ^^^ b) (lengthByte p.length) :=
  (csum_eq p).trans (foldl_accCombine (lengthByte p.length) p).symm

/-- Offset 0. -/
theorem frameBytes_start (cfg : UnitConfig) (p : List Byte) : (frameBytes cfg p)[0]? = some cfg.startByte := rfl

/-- Offset 1. -/
theorem frameBytes_lengthField (cfg : UnitConfig) (p : List Byte) :
    (frameBytes cfg p)[1]? = some (lengthByte p.length) := rfl

/-- From offset 2 on, a frame is the payload, CHECKSUM and END. -/
theorem frameBytes_from_payload (cfg : UnitConfig) (p : List Byte) (k : Nat) :
    (frameBytes cfg p)[2 + k]? = (p ++ [csum p, cfg.endByte])[k]? := by
  rw [Nat.add_comm]; rfl

theorem frameBytes_payload (cfg : UnitConfig) {p : List Byte} {k : Nat} (h : k < p.length) :
    (frameBytes cfg p)[2 + k]? = p[k]? := by
  rw [frameBytes_from_payload, List.getElem?_append_left h]

theorem frameBytes_checksum (cfg : UnitConfig) (p : List Byte) :
    (frameBytes cfg p)[2 + p.length]? = some (csum p) := by
  simp [frameBytes_from_payload]

theorem frameBytes_end (cfg : UnitConfig) (p : List Byte) :
    (frameBytes cfg p)[3 + p.length]? = some cfg.endByte := by
  rw [show 3 + p.length = 2 + (p.length + 1) by omega, frameBytes_from_payload]
  simp

/-- Settles O14, by what stands at each offset of a frame; LENGTH reads back as L, since R17 bounds MAX_LEN by 255. -/
theorem frameHasTheWireFormat : Obligations.FrameHasTheWireFormat := by
  unfold Obligations.FrameHasTheWireFormat
  intro cfg p f hcfg hf
  obtain ⟨hle, rfl⟩ := encodeFrame_eq_frame.mp hf
  obtain ⟨hmax, -⟩ := cfg.wellFormed_iff.mp hcfg
  have hlen : (lengthByte p.length).toNat = p.length := lengthByte_toNat (hle.trans hmax)
  refine ⟨frameBytes_length cfg p, frameBytes_start cfg p,
    ⟨lengthByte p.length, frameBytes_lengthField cfg p, hlen, hlen.trans_le hle⟩,
    fun k hk => frameBytes_payload cfg hk, ?_, frameBytes_end cfg p⟩
  rw [frameBytes_checksum, csum_eq_foldl]
  rfl

end Sys2Proof.Machine
end

section
/-! PROOFS. The checksum (40_checksum.md R95) and the two commands of its accumulator (R98, R99): their words, their
whole next state, and the corner cases of a combined byte. -/

namespace Sys2Proof

/-- A command's word as the disjunction of its opcode, shifted to the top, and its byte operand (R78, R80). -/
theorem encode_eq_or (i : Instr) : encode i = i.opcode.setWidth 16 <<< 12 ||| i.imm8.setWidth 16 := by
  have h := BitVec.setWidth_append_append_eq_shiftLeft_setWidth_or (w''' := 16) (b := i.opcode) (b' := (0 : BitVec 4))
    (b'' := i.imm8)
  simpa [encode] using h

namespace Machine

/-! ## The accumulator's combination -/

theorem accCombine_zero (a : Byte) : accCombine a 0x00 = a := BitVec.xor_zero

/-- Combining the same byte twice restores the accumulator (R96 (c)). -/
theorem accCombine_accCombine_same (a b : Byte) : accCombine (accCombine a b) b = a := by
  simp only [accCombine, BitVec.xor_assoc, BitVec.xor_self, BitVec.xor_zero]

theorem accCombine_ones (a : Byte) : accCombine a 0xFF = ~~~a := BitVec.xor_allOnes

/-! ## The two commands -/

theorem execCsumClear_of_wellFormed {s : State} (h : s.params.wellFormed = true) :
    execCsumClear s = .next { s with codec := { s.codec with acc := 0x00, resp := some (.acc 0x00) } } :=
  whenConfigured_of_wellFormed h _

theorem execCsumAcc_of_wellFormed {s : State} (h : s.params.wellFormed = true) (b : Byte) :
    execCsumAcc b s =
      .next { s with codec := { s.codec with
        acc := accCombine s.codec.acc b, resp := some (.acc (accCombine s.codec.acc b)) } } :=
  whenConfigured_of_wellFormed h _

/-- Wherever CSUM_ACC answers a next state, it has combined the byte into the accumulator. -/
theorem execCsumAcc_acc {b : Byte} {s t : State} (h : execCsumAcc b s = .next t) :
    t.codec.acc = accCombine s.codec.acc b := by
  obtain ⟨-, h⟩ := whenConfigured_eq_next.mp h
  cases h
  rfl

/-! ## The obligations -/

/-- Settles O8, by the command's effect once the configuration check is passed. -/
theorem csumClearClearsTheAccumulator : Obligations.CsumClearClearsTheAccumulator := by
  unfold Obligations.CsumClearClearsTheAccumulator
  exact ⟨rfl, fun s hwf => execCsumClear_of_wellFormed hwf⟩

/-- Settles O9: the corner cases are laws of `accCombine`, carried over by what CSUM_ACC leaves in the accumulator. -/
theorem csumAccCombinesTheByte : Obligations.CsumAccCombinesTheByte := by
  unfold Obligations.CsumAccCombinesTheByte
  refine ⟨fun b => encode_eq_or (.csumAcc b), fun b s hwf => execCsumAcc_of_wellFormed hwf b, fun s t h => ?zero,
    fun b s t u ht hu => ?twice, fun s t h => ?ones⟩
  case zero => exact (execCsumAcc_acc h).trans (accCombine_zero _)
  case twice =>
    calc u.codec.acc
      _ = accCombine t.codec.acc b := execCsumAcc_acc hu
      _ = accCombine (accCombine s.codec.acc b) b := by rw [execCsumAcc_acc ht]
      _ = s.codec.acc := accCombine_accCombine_same _ _
  case ones => exact (execCsumAcc_acc h).trans (accCombine_ones _)

/-- Settles O10, by the running XOR from the LENGTH byte, which the cleared accumulator leaves as it is. -/
theorem checksumIsRunningXor : Obligations.ChecksumIsRunningXor := by
  unfold Obligations.ChecksumIsRunningXor
  refine ⟨fun p _ => ?_, rfl⟩
  have hclear : (0x00 : Byte) ^^^ BitVec.ofNat 8 p.length = lengthByte p.length := BitVec.zero_xor
  rw [hclear]
  exact csum_eq_foldl p

end Machine
end Sys2Proof
end

section
/-! PROOFS. The encoder (41_encode.md): the function in both cases (R100), the command ENCODE (R101), and the round trip
that gives the payload of every encoded frame back (R102). -/

namespace Sys2Proof.Machine

/-! ## The encoder function and the command -/

/-- Settles O12, by the two cases of the encoder function; CHECKSUM is the running XOR of R95, and LENGTH reads back as L,
since R17 bounds MAX_LEN by 255. -/
theorem encodeFunctionFollowsItsRule : Obligations.EncodeFunctionFollowsItsRule := by
  unfold Obligations.EncodeFunctionFollowsItsRule
  intro cfg p hcfg
  obtain ⟨hmax, -⟩ := cfg.wellFormed_iff.mp hcfg
  obtain ⟨hcsum, -⟩ := checksumIsRunningXor
  refine ⟨encodeFrame_of_gt, fun hle => ⟨?frame, lengthByte_toNat (hle.trans hmax), fun f hf => ?length⟩⟩
  case frame =>
    rw [encodeFrame_of_le hle, ← hcsum p (hle.trans hmax)]
    rfl
  case length =>
    obtain ⟨-, rfl⟩ := encodeFrame_eq_frame.mp hf
    exact frameBytes_length cfg p

theorem execEncode_of_wellFormed {s : State} (h : s.params.wellFormed = true) :
    execEncode s = .next { s with codec := { s.codec with
      resp := some (.encoded (encodeFrame s.params.cfgCodec s.ports.payload)) } } :=
  whenConfigured_of_wellFormed h _

/-- Settles O13, by the command's effect once the configuration check is passed and the encoder function's two cases. -/
theorem encodeReturnsTheFrameOnly : Obligations.EncodeReturnsTheFrameOnly := by
  unfold Obligations.EncodeReturnsTheFrameOnly
  refine ⟨rfl, fun s hwf => ⟨fun hgt => ?tooLarge, fun hle => ?frame⟩⟩
  case tooLarge =>
    rw [← encodeFrame_of_gt hgt]
    exact execEncode_of_wellFormed hwf
  case frame =>
    have hframe := encodeFrame_of_le hle
    refine ⟨frameBytes s.params.cfgCodec s.ports.payload, ?_, hframe, frameBytes_length _ _⟩
    rw [← hframe]
    exact execEncode_of_wellFormed hwf

/-! ## The round trip -/

/-- A CHECKSUM byte that matches the running checksum (R107). -/
theorem Decoder.push_awaitChecksum_of_eq (cfg : UnitConfig) {d : Decoder} {b : Byte} (hs : d.dState = .awaitChecksum)
    (hb : b = d.dCsum) : d.push cfg b = ({ d with dRxcsum := b, dState := .awaitEnd }, .pending) := by
  simp only [Decoder.push, hs, Decoder.pushAwaitChecksum, hb, ne_eq, not_true_eq_false, if_false]

/-- The END byte (R108). -/
theorem Decoder.push_awaitEnd_endByte (cfg : UnitConfig) {d : Decoder} (hs : d.dState = .awaitEnd) :
    d.push cfg cfg.endByte = ({ d with dState := .done }, .valid d.payload) := by
  simp only [Decoder.push, hs, Decoder.pushAwaitEnd, if_true]

/-- A frame is its bytes before END, and END. -/
theorem frameBytes_eq_append_endByte (cfg : UnitConfig) (p : List Byte) :
    frameBytes cfg p = (cfg.startByte :: lengthByte p.length :: p ++ [csum p]) ++ [cfg.endByte] := by
  simp [frameBytes]

/-- The bytes of a frame before END, from AWAIT_START: the decoder waits for END with the payload in its buffer, and every
verdict is PENDING. -/
theorem Decoder.pushAll_beforeEnd (cfg : UnitConfig) (d : Decoder) (p : List Byte) (hmax : cfg.maxLen ≤ 255)
    (hs : d.dState = .awaitStart) (hbuf : d.dBuf.length = cfg.maxLen) (hle : p.length ≤ cfg.maxLen) :
    d.pushAll cfg (cfg.startByte :: lengthByte p.length :: p ++ [csum p]) = ({ d with
      dState := .awaitEnd, dLen := lengthByte p.length, dIdx := lengthByte p.length, dCsum := csum p, dRxcsum := csum p
      dBuf := p ++ d.dBuf.drop p.length }, List.replicate (p.length + 3) .pending) := by
  rw [Decoder.pushAll_append, Decoder.pushAll_body cfg d p hmax hs hbuf hle, ← csum_eq]
  simp only [Decoder.pushAll, Decoder.push_awaitChecksum_of_eq, List.replicate_succ' (n := p.length + 2)]

/-- R102 for a payload within the limit: END makes the decoder read the payload back from its buffer. -/
theorem Decoder.pushAll_frameBytes (cfg : UnitConfig) (d : Decoder) (p : List Byte) (hmax : cfg.maxLen ≤ 255)
    (hs : d.dState = .awaitStart) (hbuf : d.dBuf.length = cfg.maxLen) (hle : p.length ≤ cfg.maxLen) :
    (d.pushAll cfg (frameBytes cfg p)).2 = List.replicate (p.length + 3) .pending ++ [.valid p] ∧
    (d.pushAll cfg (frameBytes cfg p)).1.dState = .done := by
  rw [frameBytes_eq_append_endByte, Decoder.pushAll_append, Decoder.pushAll_beforeEnd cfg d p hmax hs hbuf hle]
  simp only [Decoder.pushAll, Decoder.push_awaitEnd_endByte, Decoder.payload, lengthByte_toNat (hle.trans hmax),
    List.take_left, and_self]

/-- Settles O23, by the decoder's run over the bytes of a frame, whose payload the encoder has checked against the
limit. -/
theorem decodingAnEncodedFrameGivesThePayload : Obligations.DecodingAnEncodedFrameGivesThePayload := by
  unfold Obligations.DecodingAnEncodedFrameGivesThePayload
  intro cfg d p f hcfg hs hbuf hf
  obtain ⟨hle, rfl⟩ := encodeFrame_eq_frame.mp hf
  obtain ⟨hmax, -⟩ := cfg.wellFormed_iff.mp hcfg
  exact Decoder.pushAll_frameBytes cfg d p hmax hs hbuf hle

end Sys2Proof.Machine
end

section
/-! PROOFS. The decoder (42_decode.md): what one byte does in each state (R104 to R109), DEC_RESET (R113), and the frames
that fail: one without its END byte (R114), and one with a changed payload or CHECKSUM byte (R116). -/

namespace Sys2Proof.Machine

/-! ## One byte, by the state that takes it -/

theorem Decoder.push_awaitStart (cfg : UnitConfig) {d : Decoder} (hs : d.dState = .awaitStart) (b : Byte) :
    d.push cfg b = d.pushAwaitStart cfg b := by
  simp only [Decoder.push, hs]

/-- The START byte (R104). -/
theorem Decoder.push_awaitStart_startByte (cfg : UnitConfig) {d : Decoder} (hs : d.dState = .awaitStart) :
    d.push cfg cfg.startByte = ({ d with dCsum := 0x00, dIdx := 0x00, dState := .awaitLength }, .pending) := by
  rw [Decoder.push_awaitStart cfg hs]
  exact if_pos rfl

/-- Noise before START (R104). -/
theorem Decoder.push_awaitStart_of_ne {cfg : UnitConfig} {d : Decoder} {b : Byte} (hs : d.dState = .awaitStart)
    (hb : b ≠ cfg.startByte) : d.push cfg b = (d, .pending) := by
  rw [Decoder.push_awaitStart cfg hs]
  exact if_neg hb

theorem Decoder.push_awaitStart_verdict (cfg : UnitConfig) {d : Decoder} (hs : d.dState = .awaitStart) (b : Byte) :
    (d.push cfg b).2 = .pending := by
  by_cases hb : b = cfg.startByte
  · rw [hb, Decoder.push_awaitStart_startByte cfg hs]
  · rw [Decoder.push_awaitStart_of_ne hs hb]

/-- The LENGTH byte (R105). -/
theorem Decoder.push_awaitLength (cfg : UnitConfig) {d : Decoder} (hs : d.dState = .awaitLength) (b : Byte) :
    d.push cfg b =
      if cfg.maxLen < b.toNat then
        ({ d with dLen := b, dCsum := d.dCsum ^^^ b, dState := .error, dErr := .lengthExceedsLimit },
          .invalid .lengthExceedsLimit)
      else if b = 0x00 then
        ({ d with dLen := b, dCsum := d.dCsum ^^^ b, dState := .awaitChecksum }, .pending)
      else ({ d with dLen := b, dCsum := d.dCsum ^^^ b, dState := .awaitPayload }, .pending) := by
  simp only [Decoder.push, hs, Decoder.pushAwaitLength, Decoder.enterError, accCombine]

/-- A CHECKSUM byte that differs from the running checksum (R107). -/
theorem Decoder.push_awaitChecksum_of_ne (cfg : UnitConfig) {d : Decoder} {b : Byte} (hs : d.dState = .awaitChecksum)
    (hb : b ≠ d.dCsum) : d.push cfg b =
      ({ d with dRxcsum := b, dState := .error, dErr := .checksumMismatch }, .invalid .checksumMismatch) := by
  simp only [Decoder.push, hs, Decoder.pushAwaitChecksum]
  exact if_pos hb

/-- Another byte in the place of END (R108). -/
theorem Decoder.push_awaitEnd_of_ne {cfg : UnitConfig} {d : Decoder} {b : Byte} (hs : d.dState = .awaitEnd)
    (hb : b ≠ cfg.endByte) : d.push cfg b =
      ({ d with dState := .error, dErr := .unexpectedEnd }, .invalid .unexpectedEnd) := by
  simp only [Decoder.push, hs, Decoder.pushAwaitEnd]
  exact if_neg hb

theorem Decoder.push_terminal (cfg : UnitConfig) {d : Decoder} (hs : d.dState = .done ∨ d.dState = .error) (b : Byte) :
    d.push cfg b = d.pushTerminal cfg b := by
  obtain hs | hs := hs <;> simp only [Decoder.push, hs]

/-- The reference policy (R109). -/
theorem Decoder.push_terminal_of_discard {cfg : UnitConfig} {d : Decoder} (hs : d.dState = .done ∨ d.dState = .error)
    (hpol : cfg.decTerminalPolicy = .discard) (b : Byte) : d.push cfg b = (d, .pending) := by
  simp only [Decoder.push_terminal cfg hs, Decoder.pushTerminal, hpol]

/-- The implicit reset (R109), after which the byte meets a decoder that waits for START. -/
theorem Decoder.push_terminal_of_autoReset {cfg : UnitConfig} {d : Decoder} (hs : d.dState = .done ∨ d.dState = .error)
    (hpol : cfg.decTerminalPolicy = .autoReset) (b : Byte) : d.push cfg b = d.reset.push cfg b := by
  simp only [Decoder.push_terminal cfg hs, Decoder.pushTerminal, hpol,
    Decoder.push_awaitStart cfg (Decoder.reset_dState d)]

/-- No byte in a terminal state reaches a verdict, whichever the policy. -/
theorem Decoder.push_terminal_verdict (cfg : UnitConfig) {d : Decoder} (hs : d.dState = .done ∨ d.dState = .error)
    (b : Byte) : (d.push cfg b).2 = .pending := by
  cases hpol : cfg.decTerminalPolicy
  case discard => rw [Decoder.push_terminal_of_discard hs hpol]
  case autoReset => rw [Decoder.push_terminal_of_autoReset hs hpol, Decoder.push_awaitStart_verdict cfg d.reset_dState]

/-! ## The rules, state by state -/

/-- Settles O15, by the START byte and any other. -/
theorem decoderAwaitStartRule : Obligations.DecoderAwaitStartRule := by
  unfold Obligations.DecoderAwaitStartRule
  exact fun cfg d b hs =>
    ⟨fun hb => hb ▸ Decoder.push_awaitStart_startByte cfg hs, Decoder.push_awaitStart_of_ne hs⟩

/-- Settles O16, by the three branches of a LENGTH byte. -/
theorem decoderAwaitLengthRule : Obligations.DecoderAwaitLengthRule := by
  unfold Obligations.DecoderAwaitLengthRule
  intro cfg d b hs
  rw [Decoder.push_awaitLength cfg hs]
  refine ⟨fun hgt => if_pos hgt, fun hle hzero => ?_, fun hle hzero => ?_⟩
  · rw [if_neg hle.not_gt, if_pos hzero]
  · rw [if_neg hle.not_gt, if_neg hzero]

/-- Settles O17, by the effect of a payload byte: its index is in the buffer and below the declared length, so the byte is
stored and the index does not wrap. -/
theorem decoderAwaitPayloadRule : Obligations.DecoderAwaitPayloadRule := by
  unfold Obligations.DecoderAwaitPayloadRule
  intro cfg d b hs hok
  obtain ⟨hbuf, -, -, hlen, hidx, -⟩ := hok
  have hidx : d.dIdx.toNat < d.dLen.toNat := hidx hs
  have hstored : d.dIdx.toNat < d.dBuf.length := hbuf ▸ hidx.trans_le (hlen (.inl hs))
  exact ⟨_, Decoder.push_awaitPayload cfg hs b, List.getElem?_set_self hstored,
    fun k hk => List.getElem?_set_ne hk.symm, rfl, index_succ_toNat hidx, fun h => if_pos h, fun h => if_neg h,
    rfl, rfl, rfl⟩

/-- Settles O18, by a CHECKSUM byte that differs from the running checksum and one that is equal. -/
theorem decoderAwaitChecksumRule : Obligations.DecoderAwaitChecksumRule := by
  unfold Obligations.DecoderAwaitChecksumRule
  exact fun cfg d b hs => ⟨Decoder.push_awaitChecksum_of_ne cfg hs, Decoder.push_awaitChecksum_of_eq cfg hs⟩

/-- Settles O19, by the END byte and any other. -/
theorem decoderAwaitEndRule : Obligations.DecoderAwaitEndRule := by
  unfold Obligations.DecoderAwaitEndRule
  exact fun cfg d b hs => ⟨fun hb => hb ▸ Decoder.push_awaitEnd_endByte cfg hs, Decoder.push_awaitEnd_of_ne hs⟩

/-- Settles O20, by the two terminal policies. -/
theorem decoderTerminalRule : Obligations.DecoderTerminalRule := by
  unfold Obligations.DecoderTerminalRule
  exact fun cfg d b hs =>
    ⟨fun hpol => Decoder.push_terminal_of_discard hs hpol b, fun hpol => Decoder.push_terminal_of_autoReset hs hpol b⟩

/-! ## DEC_RESET -/

theorem execDecReset_of_wellFormed {s : State} (h : s.params.wellFormed = true) :
    execDecReset s = .next { s with codec := { s.codec with dec := s.codec.dec.reset, resp := none } } :=
  whenConfigured_of_wellFormed h _

/-- Settles O22, by the command's effect once the configuration check is passed; the model leaves the port empty (log
entry 4). -/
theorem decResetResetsTheDecoder : Obligations.DecResetResetsTheDecoder := by
  unfold Obligations.DecResetResetsTheDecoder
  exact ⟨rfl, fun s hwf => ⟨none, execDecReset_of_wellFormed hwf⟩⟩

/-! ## A frame without its END byte -/

theorem frameBytes_dropLast (cfg : UnitConfig) (p : List Byte) :
    (frameBytes cfg p).dropLast = cfg.startByte :: lengthByte p.length :: p ++ [csum p] := by
  rw [frameBytes_eq_append_endByte, List.dropLast_concat]

/-- Settles O24, by the decoder's run over the bytes before END, which leaves it waiting for END. -/
theorem truncatedFrameStaysPending : Obligations.TruncatedFrameStaysPending := by
  unfold Obligations.TruncatedFrameStaysPending
  intro cfg d p f hcfg hs hbuf hf
  obtain ⟨hle, rfl⟩ := encodeFrame_eq_frame.mp hf
  obtain ⟨hmax, -⟩ := cfg.wellFormed_iff.mp hcfg
  have hrun := Decoder.pushAll_beforeEnd cfg d p hmax hs hbuf hle
  rw [frameBytes_dropLast]
  refine ⟨by rw [hrun], by rw [hrun], fun b hb => ?_⟩
  rw [Decoder.pushAll_append, hrun]
  simp only [Decoder.pushAll, Decoder.push_awaitEnd_of_ne, hb, ne_eq, not_false_eq_true]

/-! ## A frame with one changed byte -/

/-- One changed byte changes the checksum of a region by the change (R96 (d)). -/
theorem checksumOver_set {bs : List Byte} {k : Nat} {x : Byte} (h : bs[k]? = some x) (y : Byte) :
    checksumOver (bs.set k y) = checksumOver bs ^^^ (x ^^^ y) := by
  induction bs generalizing k with
  | nil => simp at h
  | cons b bs ih =>
    cases k with
    | zero =>
      obtain rfl : b = x := by simpa using h
      rw [List.set_cons_zero, checksumOver_cons, checksumOver_cons]
      calc y ^^^ checksumOver bs
        _ = (b ^^^ b) ^^^ (y ^^^ checksumOver bs) := by rw [BitVec.xor_self, BitVec.zero_xor]
        _ = b ^^^ checksumOver bs ^^^ (b ^^^ y) := by ac_rfl
    | succ k =>
      rw [List.set_cons_succ, checksumOver_cons, checksumOver_cons, ih (by simpa using h), BitVec.xor_assoc]

/-- A changed payload byte changes `Csum(P)`. -/
theorem csum_set_ne {p : List Byte} {k : Nat} {x y : Byte} (h : p[k]? = some x) (hxy : x ≠ y) :
    csum (p.set k y) ≠ csum p := by
  rw [csum_eq, csum_eq, List.length_set, checksumOver_set h]
  simpa using hxy

/-- The wire bytes of payload `p` with `c` in the place of CHECKSUM. -/
def frameWithChecksum (cfg : UnitConfig) (p : List Byte) (c : Byte) : List Byte :=
  (cfg.startByte :: lengthByte p.length :: p) ++ [c, cfg.endByte]

theorem frameBytes_eq_frameWithChecksum (cfg : UnitConfig) (p : List Byte) :
    frameBytes cfg p = frameWithChecksum cfg p (csum p) := rfl

theorem frameWithChecksum_set_payload (cfg : UnitConfig) {p : List Byte} {k : Nat} (h : k < p.length) (c y : Byte) :
    (frameWithChecksum cfg p c).set (2 + k) y = frameWithChecksum cfg (p.set k y) c := by
  simp [frameWithChecksum, Nat.add_comm 2 k, h]

theorem frameWithChecksum_set_checksum (cfg : UnitConfig) (p : List Byte) (c y : Byte) :
    (frameWithChecksum cfg p c).set (2 + p.length) y = frameWithChecksum cfg p y := by
  simp [frameWithChecksum, Nat.add_comm 2 p.length]

/-- A wrong CHECKSUM byte is reported on that byte, and END then meets a decoder in ERROR. -/
theorem Decoder.pushAll_frameWithChecksum_of_ne (cfg : UnitConfig) (d : Decoder) (p : List Byte) {c : Byte}
    (hmax : cfg.maxLen ≤ 255) (hs : d.dState = .awaitStart) (hbuf : d.dBuf.length = cfg.maxLen)
    (hle : p.length ≤ cfg.maxLen) (hc : c ≠ csum p) :
    (d.pushAll cfg (frameWithChecksum cfg p c)).2 =
      List.replicate (p.length + 2) .pending ++ [.invalid .checksumMismatch, .pending] := by
  rw [frameWithChecksum, Decoder.pushAll_append, Decoder.pushAll_body cfg d p hmax hs hbuf hle, ← csum_eq]
  simp only [Decoder.pushAll, Decoder.push_awaitChecksum_of_ne, Decoder.push_terminal_verdict, hc, ne_eq, not_false_eq_true,
    or_true]

/-- Settles O26: a changed byte, in the payload or in CHECKSUM itself, makes the frame carry another checksum than that of
its payload. -/
theorem payloadCorruptionIsDetected : Obligations.PayloadCorruptionIsDetected := by
  unfold Obligations.PayloadCorruptionIsDetected
  intro cfg d p f k x y hcfg hs hbuf hf hk hx hxy
  obtain ⟨hle, rfl⟩ := encodeFrame_eq_frame.mp hf
  obtain ⟨hmax, -⟩ := cfg.wellFormed_iff.mp hcfg
  obtain hk | rfl := hk.lt_or_eq
  · have hx : p[k]? = some x := (frameBytes_payload cfg hk).symm.trans hx
    have hrun := Decoder.pushAll_frameWithChecksum_of_ne cfg d (p.set k y) hmax hs hbuf
      (List.length_set.trans_le hle) (csum_set_ne hx hxy).symm
    rwa [List.length_set, ← frameWithChecksum_set_payload cfg hk, ← frameBytes_eq_frameWithChecksum] at hrun
  · obtain rfl : csum p = x := by simpa [frameBytes_checksum] using hx
    rw [frameBytes_eq_frameWithChecksum, frameWithChecksum_set_checksum]
    exact Decoder.pushAll_frameWithChecksum_of_ne cfg d p hmax hs hbuf hle hxy.symm

end Sys2Proof.Machine
end

section
/-! PROOFS. The receiver's handling of a verdict (43_receiver.md R119, R120) where `RET` has room, with the whole next
state, and RX_RESET (R122). -/

namespace Sys2Proof.Machine

/-- A channel with room, in the form in which R64 states it. -/
theorem chanFull_eq_false_of_room {depth : Option Nat} {ch : List Byte}
    (hroom : ∀ n, depth = some n → ch.length < n) : chanFull depth ch = false := by
  rw [Bool.eq_false_iff, Ne, chanFull_eq_true]
  rintro ⟨n, hn, hfull⟩
  exact absurd (hroom n hn) hfull.not_gt

/-- Bytes that fit the buffer are written whole, and those beyond them stay (R57). -/
theorem writePrefix_of_le {buf p : List Byte} (h : p.length ≤ buf.length) :
    writePrefix buf p = p ++ buf.drop p.length := by
  have hlen : (p ++ buf.drop p.length).length = buf.length := by
    rw [List.length_append, List.length_drop, Nat.add_sub_cancel' h]
  exact List.take_of_length_le hlen.le

theorem rxInvalidState_of_nackDisabled {s : State} (h : s.params.cfgRx.nackEnable = false) (r : Reason) :
    rxInvalidState r s = { s with rx := { s.rx with rxLastErr := r, dec := s.rx.dec.reset } } := by
  simp [rxInvalidState, h]

theorem rxInvalidState_of_nackEnabled {s : State} (h : s.params.cfgRx.nackEnable = true) (r : Reason) :
    rxInvalidState r s = { s with
      rx := { s.rx with rxLastErr := r, dec := s.rx.dec.reset }
      env := { s.env with ret := s.env.ret ++ drawn s.ports.retDraws s.params.cfgRx.nackByte }
      ports := { s.ports with retDraws := s.ports.retDraws.tail } } := by
  simp [rxInvalidState, h]

/-- Settles O28: the payload fits, so the buffer holds it whole and `rx_out_len` its exact length; `RET` has room, so the
handling completes. -/
theorem validVerdictIsLatchedAndAcknowledged : Obligations.ValidVerdictIsLatchedAndAcknowledged := by
  unfold Obligations.ValidVerdictIsLatchedAndAcknowledged
  intro s p hfits hbuf hroom
  refine ⟨lengthByte_toNat (hfits.trans hbuf), ?_⟩
  rw [← writePrefix_of_le hfits]
  exact rxValid_of_room p (chanFull_eq_false_of_room hroom)

/-- Settles O29, by the handling's effect without and with a NACK, which alone needs room in `RET`. -/
theorem invalidVerdictIsRecordedAndResynchronised : Obligations.InvalidVerdictIsRecordedAndResynchronised := by
  unfold Obligations.InvalidVerdictIsRecordedAndResynchronised
  refine fun s r => ⟨fun hoff => ?nackDisabled, fun hon hroom => ?nackEnabled⟩
  case nackDisabled =>
    have hdone := rxInvalid_of_room (s := s) r fun hon => absurd hon (by simp [hoff])
    rw [hdone, rxInvalidState_of_nackDisabled hoff]
    rfl
  case nackEnabled =>
    have hdone := rxInvalid_of_room (s := s) r fun _ => chanFull_eq_false_of_room hroom
    rw [hdone, rxInvalidState_of_nackEnabled hon]
    rfl

theorem execRxReset_of_wellFormed {s : State} (h : s.params.wellFormed = true) :
    execRxReset s = .next { s with rx := { s.rx with
      dec := s.rx.dec.reset, rxReady := false, rxLastErr := .none, resp := none } } :=
  whenConfigured_of_wellFormed h _

/-- Settles O35, by the command's effect once the configuration check is passed; the model leaves the port empty (log
entry 4). -/
theorem rxResetDropsThePartialFrame : Obligations.RxResetDropsThePartialFrame := by
  unfold Obligations.RxResetDropsThePartialFrame
  exact ⟨rfl, fun s hwf => ⟨none, execRxReset_of_wellFormed hwf⟩⟩

end Sys2Proof.Machine
end

section
/-! PROOFS. The transmitter's commands (44_transmitter.md): a send request in its three cases (R128), TX_STEP in SENDING
(R126) and in AWAITING_ACK (R127), and TX_RESET (R130). -/

namespace Sys2Proof.Machine

/-! ## TX_STEP by state -/

/-- The state in which TX_STEP runs the rule of `t_state`: the tick on the port has become the ghost tick (R129). -/
def State.tickTaken (s : State) : State := s.setTx { s.tx with tLastNow := s.ports.tick }

/-- TX_STEP at a tick that does not go backwards runs the rule of `t_state` and returns the status that it leaves
(R129). -/
theorem execTxStep_of_wellFormed {s : State} (hwf : s.params.wellFormed = true) (htick : s.tx.tLastNow ≤ s.ports.tick) :
    execTxStep s = andThen (txByState s.ports.tick s.tickTaken) fun t =>
      .next (t.respondTx (some (.status t.tx.tState.status))) :=
  (whenConfigured_of_wellFormed hwf _).trans (if_neg htick.not_gt)

theorem txByState_of_sending {s : State} (hs : s.tx.tState = .sending) (now : Nat) :
    txByState now s = txTransmit now s := by
  simp only [txByState, hs]

theorem txByState_of_awaitingAck {s : State} (hs : s.tx.tState = .awaitingAck) (now : Nat) :
    txByState now s = .next (txAwait now s) := by
  simp only [txByState, hs]

/-! ## The wait for an acknowledgment (R127) -/

theorem isNack_eq_true {cfg : UnitConfig} {b : Byte} :
    isNack cfg b = true ↔ cfg.nackEnable = true ∧ b = cfg.nackByte := by
  simp only [isNack, Bool.and_eq_true, beq_iff_eq]

theorem txTimeout_of_attemptsLeft {s : State} (h : s.tx.tAttempts < s.params.cfgTx.maxAttempts) :
    txTimeout s = { s with tx := { s.tx with tAttempts := s.tx.tAttempts + 1, tState := .sending } } :=
  if_pos h

theorem txTimeout_of_attemptsSpent {s : State} (h : s.params.cfgTx.maxAttempts ≤ s.tx.tAttempts) :
    txTimeout s = { s with tx := { s.tx with tState := .failed } } :=
  if_neg h.not_gt

theorem txAwait_of_empty {s : State} (hr : s.env.ret = []) (now : Nat) :
    txAwait now s = if s.tx.tDeadline ≤ now then txTimeout s else s := by
  simp only [txAwait, hr]

theorem txAwait_of_byte {s : State} {b : Byte} {rest : List Byte} (hr : s.env.ret = b :: rest) (now : Nat) :
    txAwait now s =
      if b = s.params.cfgTx.ackByte then (s.setRet rest).setTx { s.tx with tState := .succeeded }
      else if isNack s.params.cfgTx b = true ∨ s.tx.tDeadline ≤ now then txTimeout (s.setRet rest)
      else s.setRet rest := by
  simp only [txAwait, hr]

/-- TX_STEP in AWAITING_ACK answers the state that the wait leaves, and its status. -/
theorem execTxStep_of_txAwait {s t : State} {st : TxStatus} (hwf : s.params.wellFormed = true)
    (hs : s.tx.tState = .awaitingAck) (htick : s.tx.tLastNow ≤ s.ports.tick)
    (h : txAwait s.ports.tick s.tickTaken = t) (hst : t.tx.tState.status = st) :
    execTxStep s = .next (t.respondTx (some (.status st))) := by
  rw [execTxStep_of_wellFormed hwf htick, txByState_of_awaitingAck (s := s.tickTaken) hs, h, andThen_next, hst]

/-- Settles O38, by the wait's branches: an empty `RET` before and at the deadline, an ACK, a NACK or a reached deadline
with another byte, and a byte that is discarded. -/
theorem txStepAwaitsTheAcknowledgment : Obligations.TxStepAwaitsTheAcknowledgment := by
  unfold Obligations.TxStepAwaitsTheAcknowledgment
  intro s retry fail stay hwf hs htick hretry hfail hstay
  have hstep {t st} := execTxStep_of_txAwait (t := t) (st := st) hwf hs htick
  have hpending : s.tickTaken.tx.tState.status = .pending := congrArg TxState.status hs
  refine ⟨fun hr => ?empty, fun b rest hr => ?byte⟩
  case empty =>
    have hwait := txAwait_of_empty (s := s.tickTaken) hr s.ports.tick
    rw [hstay, hretry, hfail, ← hr]
    exact ⟨fun hearly => hstep (hwait.trans (if_neg hearly.not_ge)) hpending,
      fun hdue hleft => hstep ((hwait.trans (if_pos hdue)).trans (txTimeout_of_attemptsLeft hleft)) rfl,
      fun hdue hspent => hstep ((hwait.trans (if_pos hdue)).trans (txTimeout_of_attemptsSpent hspent)) rfl⟩
  case byte =>
    have hwait := txAwait_of_byte (s := s.tickTaken) hr s.ports.tick
    rw [hstay, hretry, hfail]
    refine ⟨fun hack => hstep (hwait.trans (if_pos hack)) rfl, fun hack hend => ?attemptEnds,
      fun hack hnack hearly => ?other⟩
    case attemptEnds =>
      have htimeout := (hwait.trans (if_neg hack)).trans (if_pos (hend.imp_left isNack_eq_true.mpr))
      exact ⟨fun hleft => hstep (htimeout.trans (txTimeout_of_attemptsLeft hleft)) rfl,
        fun hspent => hstep (htimeout.trans (txTimeout_of_attemptsSpent hspent)) rfl⟩
    case other =>
      have hgoesOn : ¬ (isNack s.params.cfgTx b = true ∨ s.tx.tDeadline ≤ s.ports.tick) := by
        rw [isNack_eq_true, not_or, not_and_or, Bool.not_eq_true]
        exact ⟨hnack, hearly.not_ge⟩
      exact hstep ((hwait.trans (if_neg hack)).trans (if_neg hgoesOn)) hpending

/-! ## A send request (R128) -/

/-- A request in IDLE whose payload is above the limit. -/
theorem requestSend_of_gt {s : State} {p : List Byte} (hs : s.tx.tState = .idle)
    (hgt : s.params.cfgTx.maxLen < p.length) : requestSend p s =
      { s with tx := { s.tx with tReqResult := .payloadTooLarge, resp := some (.request .payloadTooLarge) } } := by
  obtain ⟨hsession, -⟩ | ⟨-, -, h⟩ | ⟨-, hle, -⟩ := requestSend_cases p s
  · exact absurd hs hsession
  · exact h
  · exact absurd hle hgt.not_ge

/-- A request in IDLE whose payload is within the limit. -/
theorem requestSend_of_le {s : State} {p : List Byte} (hs : s.tx.tState = .idle)
    (hle : p.length ≤ s.params.cfgTx.maxLen) : requestSend p s =
      { s with tx := { s.tx with
          tFrame := writePrefix s.tx.tFrame (frameBytes s.params.cfgTx p)
          tLen := lengthByte p.length
          tAttempts := s.tx.tAttempts + 1
          tState := .sending
          tReqResult := .accepted
          resp := some (.request .accepted) } } := by
  obtain ⟨hsession, -⟩ | ⟨-, hgt, -⟩ | ⟨-, -, h⟩ := requestSend_cases p s
  · exact absurd hs hsession
  · exact absurd hle hgt.not_ge
  · exact h

theorem execTxRequestSend_of_wellFormed {s : State} (h : s.params.wellFormed = true) :
    execTxRequestSend s = .next (requestSend s.ports.payload s) :=
  whenConfigured_of_wellFormed h _

/-- A written prefix leaves the bytes beyond it (R57). -/
theorem writePrefix_getElem?_of_ge {buf p : List Byte} {k : Nat} (hfits : p.length ≤ buf.length) (hk : p.length ≤ k) :
    (writePrefix buf p)[k]? = buf[k]? := by
  rw [writePrefix_of_le hfits, List.getElem?_append_right hk, List.getElem?_drop, Nat.add_sub_cancel' hk]

/-- R17's bound, for the transmitter's record (R18). -/
theorem cfgTx_maxLen_le {s : State} (h : s.params.wellFormed = true) : s.params.cfgTx.maxLen ≤ 255 := by
  simp only [Params.wellFormed, Bool.and_eq_true] at h
  obtain ⟨-, htx⟩ := h
  exact (s.params.cfgTx.wellFormed_iff.mp htx).1

/-- Settles O36, by the request's three cases; an accepted frame fits `t_frame`, and LENGTH reads back exactly, since R17
bounds MAX_LEN by 255. -/
theorem requestSendAcceptsOnlyFromIdle : Obligations.RequestSendAcceptsOnlyFromIdle := by
  unfold Obligations.RequestSendAcceptsOnlyFromIdle
  refine ⟨rfl, fun s hwf => ?_⟩
  have hexec : exec .txRequestSend s = _ := execTxRequestSend_of_wellFormed hwf
  rw [hexec]
  refine ⟨fun hs => ?notIdle, fun hs hgt => ?tooLarge, fun hs hle hframe => ?accepted⟩
  case notIdle => rw [requestSend_of_session hs]
  case tooLarge => rw [requestSend_of_gt hs hgt]
  case accepted =>
    have hlen := frameBytes_length s.params.cfgTx s.ports.payload
    have hfits : (frameBytes s.params.cfgTx s.ports.payload).length ≤ s.tx.tFrame.length := by omega
    refine ⟨_, congrArg _ (requestSend_of_le hs hle), ?captured, writePrefix_length _ _,
      fun k hk => writePrefix_getElem?_of_ge hfits (hlen.trans_le hk),
      lengthByte_toNat (hle.trans (cfgTx_maxLen_le hwf)), rfl, rfl, rfl, rfl, rfl, rfl, rfl, rfl, rfl, rfl, rfl, rfl⟩
    case captured => rw [← hlen, take_writePrefix hfits, encodeFrame_of_le hle]

/-! ## The transmission (R126) -/

@[simp] theorem tickFits_unbounded (t : Nat) : tickFits .unbounded t = true := rfl

@[simp] theorem tickFits_finite (n : Nat) (hn : 0 < n) (t : Nat) : tickFits (.finite n hn) t = decide (t < 2 ^ n) := rfl

theorem tickFits_eq_true {w : TickBits} {t : Nat} :
    tickFits w t = true ↔ w = .unbounded ∨ ∃ n hn, w = .finite n hn ∧ t < 2 ^ n := by
  cases w with
  | unbounded => simp
  | finite n hn => simp [hn]

theorem TxUnit.wire_length {t : TxUnit} (h : t.tLen.toNat + 4 ≤ t.tFrame.length) :
    t.wire.length = t.tLen.toNat + 4 :=
  List.length_take_of_le h

/-- TX_STEP in SENDING with room in `FWD` for the whole frame: the transmission, where its deadline fits (R126, R166). -/
theorem execTxStep_of_sending {s : State} (hwf : s.params.wellFormed = true) (hs : s.tx.tState = .sending)
    (htick : s.tx.tLastNow ≤ s.ports.tick)
    (hroom : ∀ n, s.params.chanDepth = some n → s.env.fwd.length + s.tx.wire.length ≤ n) :
    execTxStep s =
      if tickFits s.params.cfgTx.tickBits (s.ports.tick + s.params.cfgTx.timeoutTicks) then
        .next ((txTransmitState s.ports.tick s.tickTaken).respondTx (some (.status .pending)))
      else .refused .tickOverflow := by
  have htransmit : txTransmit s.ports.tick s.tickTaken =
      if tickFits s.params.cfgTx.tickBits (s.ports.tick + s.params.cfgTx.timeoutTicks) then
        .next (txTransmitState s.ports.tick s.tickTaken)
      else .refused .tickOverflow := txTransmit_of_room hroom
  rw [execTxStep_of_wellFormed hwf htick, txByState_of_sending (s := s.tickTaken) hs, htransmit]
  split <;> rfl

/-- Settles O37, by the transmission of the `t_len + 4` bytes of the outstanding frame, whose deadline fits or not. -/
theorem txStepTransmitsTheWholeFrame : Obligations.TxStepTransmitsTheWholeFrame := by
  unfold Obligations.TxStepTransmitsTheWholeFrame
  intro s hwf hs htick hroom hframe hle
  have hwire : s.tx.wire.length = s.tx.tLen.toNat + 4 := TxUnit.wire_length (by omega)
  have hstep : exec .txStep s = _ := execTxStep_of_sending hwf hs htick (hwire ▸ hroom)
  rw [hstep]
  refine ⟨fun hfits => ?transmits, fun n hn hbits hover => if_neg ?overflows⟩
  case transmits =>
    have hdraws : s.tickTaken.tx.wire.length = s.tx.tLen.toNat + 4 := hwire
    rw [if_pos (tickFits_eq_true.mpr hfits), txTransmitState, hdraws]
    rfl
  case overflows =>
    rw [hbits]
    simpa using hover

/-! ## TX_RESET (R130) -/

theorem execTxReset_of_wellFormed {s : State} (h : s.params.wellFormed = true) :
    execTxReset s = .next { s with tx := {
      tState := .idle, tAttempts := 0, tDeadline := 0, tLen := 0x00
      tFrame := List.replicate s.tx.tFrame.length 0x00, tReqResult := .none
      tLastNow := s.tx.tLastNow, resp := none } } :=
  whenConfigured_of_wellFormed h _

/-- Settles O44, by the command's effect once the configuration check is passed; the model leaves the port empty (log
entry 4). -/
theorem txResetForcesIdle : Obligations.TxResetForcesIdle := by
  unfold Obligations.TxResetForcesIdle
  exact ⟨rfl, rfl, fun s hwf => ⟨none, execTxReset_of_wellFormed hwf⟩⟩

end Sys2Proof.Machine
end

section
/-! PROOFS. The system commands (45_system.md): NOP (R134), SYS_RESET (R135), and SYS_TICK as its five steps (R136), of which
the first three are the meanings of TX_REQUEST_SEND, TX_STEP and RX_STEP. -/

namespace Sys2Proof.Machine

/-! ## NOP (R134) -/

theorem execNop_of_wellFormed {s : State} (h : s.params.wellFormed = true) : execNop s = .next s :=
  whenConfigured_of_wellFormed h _

/-- Settles O7, by the two values of the encoding and by the command's effect once the configuration check is passed. -/
theorem nopChangesNothing : Obligations.NopChangesNothing := by
  unfold Obligations.NopChangesNothing
  exact ⟨rfl, by decide, fun s hwf => execNop_of_wellFormed hwf⟩

/-! ## SYS_RESET (R135) -/

/-- SYS_RESET answers the machine right after reset under the same configuration; what the application received, the ports
and the waiting commands stay (log entry 5). -/
theorem execSysReset_of_wellFormed {s : State} (h : s.params.wellFormed = true) :
    execSysReset s = .next { State.afterReset s.params with
      env := { Env.atReset s.params.t0 with delivered := s.env.delivered }
      ports := s.ports
      bus := s.bus } :=
  whenConfigured_of_wellFormed h _

/-- Settles O50, by the command's whole next state, in which every register named holds its reset value. -/
theorem sysResetGivesEveryResetValue : Obligations.SysResetGivesEveryResetValue := by
  unfold Obligations.SysResetGivesEveryResetValue
  exact ⟨rfl, fun s hwf => ⟨_, execSysReset_of_wellFormed hwf,
    rfl, rfl, rfl, rfl, rfl, rfl, rfl, rfl, rfl, rfl, rfl, rfl, rfl, rfl, rfl, rfl, rfl, rfl⟩⟩

/-! ## SYS_TICK (R136) -/

/-- Two sequences with the same first part agree where their second parts agree on the states it answers. -/
theorem andThen_congr {o : StepOutcome} {k l : State → StepOutcome} (h : ∀ s, o = .next s → k s = l s) :
    andThen o k = andThen o l := by
  cases o with
  | next s => exact h s rfl
  | fault f => rfl
  | refused r => rfl

/-- Step (a) by the two exclusive cases in which R136 states it. -/
theorem tickRequest_eq_of_cases {s t : State}
    (hmade : ∀ p, s.ports.req = some p → s.tx.tState = .idle → t = requestSend p s)
    (hnot : s.ports.req = none ∨ s.tx.tState ≠ .idle → t = s) : tickRequest s = t := by
  obtain ⟨p, hreq, hidle, h⟩ | ⟨hnone, h⟩ := tickRequest_cases s
  · rw [h, hmade p hreq hidle]
  · rw [h, hnot hnone]

/-- The state in which steps (d) and (e) leave a state whose RX port holds the receiver's result. -/
def tickEnd (s : State) : State :=
  { s with env := { s.env with
      now := s.env.now + 1
      delivered := s.env.delivered ++ (if s.rx.rxReady then [s.rx.outPayload] else []) } }

/-- Steps (d) and (e) after step (c), which leaves the receiver's result on the RX port. -/
theorem tickAdvance_tickDeliver_of_stepReceiver {s t : State} (h : stepReceiver s = .next t) :
    tickAdvance (tickDeliver t) = tickEnd t := by
  obtain ⟨u, -, rfl⟩ := stepReceiver_eq_next.mp h
  rw [tickDeliver_eq rfl]
  rfl

/-- SYS_TICK runs its steps in order, whatever they answer; its stops are those of the steps (b) and (c). -/
theorem execSysTick_of_wellFormed {s : State} (h : s.params.wellFormed = true) :
    execSysTick s = andThen (stepTransmitter s.env.now (tickRequest s)) fun t =>
      andThen (stepReceiver t) fun u => .next (tickEnd u) := by
  refine (whenConfigured_of_wellFormed h _).trans (andThen_congr fun t _ => andThen_congr fun u hu => ?_)
  rw [tickAdvance_tickDeliver_of_stepReceiver hu]

/-- Settles O53: the three commands are their steps behind the configuration check, and SYS_TICK is the sequence of its
steps, with the request of step (a) made exactly in IDLE. -/
theorem sysTickRunsItsStepsInOrder : Obligations.SysTickRunsItsStepsInOrder := by
  unfold Obligations.SysTickRunsItsStepsInOrder
  refine ⟨rfl, fun s hwf => ⟨execTxRequestSend_of_wellFormed hwf, whenConfigured_of_wellFormed hwf _,
    whenConfigured_of_wellFormed hwf _⟩, fun s s1 hwf hmade hnot => ?_⟩
  obtain rfl : tickRequest s = s1 := tickRequest_eq_of_cases hmade hnot
  exact execSysTick_of_wellFormed hwf

end Sys2Proof.Machine
end

section
/-! PROOFS. The refusals on the tick (70_reset_and_hazards.md): a tick that goes backwards (R165) and a deadline that does
not fit `TICK_BITS` (R166), in one step of the transmitter at any tick, and so for TX_STEP and for SYS_TICK. -/

namespace Sys2Proof.Machine

/-- TX_STEP under well-formed parameters is the transmitter's step at the tick on the port (R129). -/
theorem execTxStep_eq_stepTransmitter {s : State} (hwf : s.params.wellFormed = true) :
    execTxStep s = stepTransmitter s.ports.tick s :=
  whenConfigured_of_wellFormed hwf _

/-- SYS_TICK ends with the refusal of its step (b) (R136). -/
theorem execSysTick_of_refused {s : State} {r : Refusal} (hwf : s.params.wellFormed = true)
    (h : stepTransmitter s.env.now (tickRequest s) = .refused r) : execSysTick s = .refused r := by
  rw [execSysTick_of_wellFormed hwf, h, andThen_refused]

/-! ## A tick that goes backwards (R165) -/

theorem stepTransmitter_of_decreasingTick {now : Nat} {s : State} (h : now < s.tx.tLastNow) :
    stepTransmitter now s = .refused .nonMonotoneTick :=
  if_pos h

/-- The request of step (a) leaves the ghost tick, so SYS_TICK compares its clock with the tick of the last step. -/
theorem tickRequest_tLastNow (s : State) : (tickRequest s).tx.tLastNow = s.tx.tLastNow := by
  obtain ⟨-, -, -, -, -, -, hlast, -⟩ := tickRequest_frame s
  exact hlast

/-- Settles O40, by the check with which the transmitter's step begins. -/
theorem decreasingTickIsRefused : Obligations.DecreasingTickIsRefused := by
  unfold Obligations.DecreasingTickIsRefused
  refine fun s hwf => ⟨fun htick => ?txStep, fun hnow => ?sysTick⟩
  case txStep =>
    exact (execTxStep_eq_stepTransmitter hwf).trans (stepTransmitter_of_decreasingTick htick)
  case sysTick =>
    have hlast : s.env.now < (tickRequest s).tx.tLastNow := (tickRequest_tLastNow s).symm ▸ hnow
    exact execSysTick_of_refused hwf (stepTransmitter_of_decreasingTick hlast)

/-! ## A deadline that does not fit (R166) -/

/-- A transmission sends at most the `t_len + 4` bytes of the outstanding frame (R47). -/
theorem TxUnit.wire_length_le (t : TxUnit) : t.wire.length ≤ t.tLen.toNat + 4 :=
  List.length_take_le _ _

/-- The transmission pushes the frame, for which `FWD` has room, and then stops at the deadline (R126). -/
theorem txByState_of_deadlineOverflow {now : Nat} {s : State} (hs : s.tx.tState = .sending)
    (hroom : ∀ d, s.params.chanDepth = some d → s.env.fwd.length + s.tx.wire.length ≤ d)
    (hover : tickFits s.params.cfgTx.tickBits (now + s.params.cfgTx.timeoutTicks) = false) :
    txByState now s = .refused .tickOverflow := by
  rw [txByState_of_sending hs, txTransmit_of_room hroom, if_neg (Bool.eq_false_iff.mp hover)]

/-- With room in `FWD` for the frame, a step in SENDING is refused on the deadline exactly when the deadline does not
fit. -/
theorem stepTransmitter_eq_tickOverflow_iff {now : Nat} {s : State} (hs : s.tx.tState = .sending)
    (hmono : s.tx.tLastNow ≤ now)
    (hroom : ∀ d, s.params.chanDepth = some d → s.env.fwd.length + s.tx.wire.length ≤ d) :
    stepTransmitter now s = .refused .tickOverflow ↔
      tickFits s.params.cfgTx.tickBits (now + s.params.cfgTx.timeoutTicks) = false := by
  cases hfits : tickFits s.params.cfgTx.tickBits (now + s.params.cfgTx.timeoutTicks) with
  | true =>
    obtain ⟨t, ht⟩ := stepTransmitter_completes hmono hfits hroom
    simp [ht]
  | false =>
    have hstep : stepTransmitter now s = .refused .tickOverflow := by
      rw [stepTransmitter, if_neg hmono.not_gt,
        txByState_of_deadlineOverflow (s := s.setTx { s.tx with tLastNow := now }) hs hroom hfits, andThen_refused]
    simp [hstep]

/-- Settles O41, by the transmitter's step in SENDING; SYS_TICK makes no request there, so its step (b) is that step at
the harness clock. -/
theorem deadlineOverflowIsRefused : Obligations.DeadlineOverflowIsRefused := by
  unfold Obligations.DeadlineOverflowIsRefused
  intro s n hn hwf hbits hs hdepth
  have hroom : ∀ d, s.params.chanDepth = some d → s.env.fwd.length + s.tx.wire.length ≤ d := fun d hd =>
    (Nat.add_le_add_left s.tx.wire_length_le _).trans (hdepth d hd)
  have hrefused : ∀ now, s.tx.tLastNow ≤ now →
      (stepTransmitter now s = .refused .tickOverflow ↔ 2 ^ n ≤ now + s.params.cfgTx.timeoutTicks) := by
    intro now hmono
    rw [stepTransmitter_eq_tickOverflow_iff hs hmono hroom, hbits, tickFits_finite, decide_eq_false_iff_not, Nat.not_lt]
  refine ⟨fun htick => ?txStep, fun hnow hover => ?sysTick⟩
  case txStep =>
    rw [← hrefused _ htick, ← execTxStep_eq_stepTransmitter hwf]
    rfl
  case sysTick =>
    have hsession : tickRequest s = s := tickRequest_of_session (by simp [hs])
    exact execSysTick_of_refused hwf (hsession.symm ▸ (hrefused _ hnow).mpr hover)

end Sys2Proof.Machine
end

section
/-! PROOFS. The decoder and the encoder of command words are inverse to each other (30_encoding.md R78 to R82), so the
words of the opcode table decode to their commands (R80). -/

namespace Sys2Proof

/-- A command without a byte operand has 0x00 in its place (R79). -/
theorem Instr.imm8_eq_zero {i : Instr} (h : (i.opcode == 0x2 || i.opcode == 0x4) = false) : i.imm8 = 0 := by
  cases i with
  | csumAcc b => simp [Instr.opcode] at h
  | decPush b => simp [Instr.opcode] at h
  | _ => rfl

/-- The decoder reads a command exactly from a word with that command's three fields. -/
theorem decode_eq_command_iff_fields (w : Word) (i : Instr) :
    decode w = .command i ↔ opField w = i.opcode ∧ rsvField w = 0 ∧ imm8Field w = i.imm8 := by
  constructor
  · intro h
    obtain ⟨-, hd⟩ | ⟨j, takes, hc, hd⟩ := decode_cases w
    · simp [hd] at h
    · rw [hd] at h
      split_ifs at h with hrsv hstray
      obtain rfl : j = i := by simpa using h
      obtain ⟨hop, htakes, himm⟩ := (commandOf_eq_some _ _ _ _).mp hc
      refine ⟨hop.symm, not_not.mp hrsv, ?_⟩
      cases takes with
      | true => exact (himm rfl).symm
      | false =>
        have hzero : imm8Field w = 0 := by simpa using hstray
        rw [hzero, Instr.imm8_eq_zero htakes.symm]
  · rintro ⟨hop, hrsv, himm⟩
    have hc : commandOf (opField w) (imm8Field w) = some (i, i.opcode == 0x2 || i.opcode == 0x4) :=
      (commandOf_eq_some _ _ _ _).mpr ⟨hop.symm, rfl, fun _ => himm.symm⟩
    have hstray : (!(i.opcode == 0x2 || i.opcode == 0x4) && imm8Field w != 0) = false := by
      cases htakes : i.opcode == 0x2 || i.opcode == 0x4 with
      | true => rfl
      | false => simp [himm, Instr.imm8_eq_zero htakes]
    simp only [decode, hc, hrsv, hstray, ne_eq, not_true_eq_false, Bool.false_eq_true, if_false]

/-- A word is a command's encoding exactly when it has that command's three fields. -/
theorem encode_eq_iff_fields (w : Word) (i : Instr) :
    encode i = w ↔ opField w = i.opcode ∧ rsvField w = 0 ∧ imm8Field w = i.imm8 := by
  constructor
  · rintro rfl
    exact Laws.EncodedFields.of_value i
  · rintro ⟨hop, hrsv, himm⟩
    apply BitVec.eq_of_toNat_eq
    rw [encode_toNat, word_toNat_fields w, hop, hrsv, himm]
    simp

/-- Settles O5: a word decodes to a command, and is its encoding, exactly when its fields are the command's opcode, zero and
its byte operand. -/
theorem decodeIsTheInverseOfEncode : Obligations.DecodeIsTheInverseOfEncode := by
  unfold Obligations.DecodeIsTheInverseOfEncode
  intro w i
  rw [decode_eq_command_iff_fields, encode_eq_iff_fields]

theorem decode_encode (i : Instr) : decode (encode i) = .command i :=
  (decodeIsTheInverseOfEncode _ i).mpr rfl

/-- A reserved opcode is rejected before the other fields are looked at (R80, R81). -/
theorem decode_of_reservedOpcode {w : Word} (h : 13 ≤ (opField w).toNat) : decode w = .illegal .reservedOpcode := by
  simp only [decode, (commandOf_eq_none _ (imm8Field w)).mpr h]

/-- Settles O3: each word of the table is the encoding of its command, which decodes to it; the words from 0xD000 up carry
a reserved opcode. -/
theorem opcodeTableIsDecoded : Obligations.OpcodeTableIsDecoded := by
  unfold Obligations.OpcodeTableIsDecoded
  refine ⟨decode_encode .nop, decode_encode .csumClear, fun b => ?_, decode_encode .encode, fun b => ?_,
    decode_encode .decReset, decode_encode .rxStep, decode_encode .rxReset, decode_encode .txRequestSend,
    decode_encode .txStep, decode_encode .txReset, decode_encode .sysReset, decode_encode .sysTick, fun w hw => ?_⟩
  · exact (decodeIsTheInverseOfEncode _ _).mpr (encode_eq_or (.csumAcc b))
  · exact (decodeIsTheInverseOfEncode _ _).mpr (encode_eq_or (.decPush b))
  · exact decode_of_reservedOpcode (by rw [opField_toNat]; omega)

end Sys2Proof
end

section
/-! PROOFS. A step (00_scope.md R3, R19): it runs the issued command, it writes no configuration, and the machine right after
reset is one whose registers meet the invariants (70_reset_and_hazards.md R150). -/

namespace Sys2Proof.Machine

/-- A step that fetches a command's word runs the command (R3, R67). -/
theorem step_of_command {s : State} {i : Instr} (h : decode s.fetchWord = .command i) : step s = exec i s.takeIssue := by
  simp only [step, h]

/-- Settles O6, by the word and the ports of the issue that the step takes; an idle bus carries NOP's word. -/
theorem stepRunsTheIssuedCommand : Obligations.StepRunsTheIssuedCommand := by
  unfold Obligations.StepRunsTheIssuedCommand
  refine ⟨fun s iss rest i hbus _ hdec => ?issued, fun s hbus => ?idle⟩
  case issued =>
    rw [step_of_command ((State.fetchWord_cons hbus).symm ▸ hdec), State.takeIssue_cons hbus]
  case idle =>
    have hnop : decode s.fetchWord = .command .nop := (State.fetchWord_idle hbus).symm ▸ decode_encode .nop
    rw [step_of_command hnop, State.takeIssue_idle hbus]

/-- Settles O2: a step is a command after its issue is taken, and neither writes the parameters. -/
theorem stepKeepsTheConfiguration : Obligations.StepKeepsTheConfiguration := by
  unfold Obligations.StepKeepsTheConfiguration
  intro s t h
  obtain ⟨i, -, hexec⟩ := step_next h
  obtain ⟨-, hparams⟩ := exec_next_params hexec
  obtain ⟨-, -, -, -, htake⟩ := s.takeIssue_frame
  exact hparams.trans htake

/-! ## The machine right after reset -/

/-- Settles O52: each register's reset value is the one that `State.afterReset` names. -/
theorem resetLeavesEveryUnitWaiting : Obligations.ResetLeavesEveryUnitWaiting := by
  unfold Obligations.ResetLeavesEveryUnitWaiting
  exact ⟨rfl, fun p => ⟨rfl, rfl, fun n => rfl, rfl, rfl, rfl, rfl, rfl, rfl,
    fun b hb => List.eq_of_mem_replicate hb, fun b hb => List.eq_of_mem_replicate hb, rfl, rfl⟩⟩

theorem Decoder.atReset_ok (maxLen : Nat) : (Decoder.atReset maxLen).Ok maxLen := by
  simp [Decoder.Ok, Decoder.atReset]

theorem RxUnit.atReset_ok (maxLen : Nat) : (RxUnit.atReset maxLen).Ok maxLen := by
  refine ⟨Decoder.atReset_ok maxLen, rfl, List.length_replicate, Nat.zero_le _, fun hready => ?_⟩
  exact absurd hready (by simp [RxUnit.atReset])

/-- A deadline of 0 fits every `TICK_BITS` (R16, R166). -/
theorem tickFits_zero (w : TickBits) : tickFits w 0 = true := by
  cases w with
  | unbounded => rfl
  | finite n hn => simp

/-- A transmitter in IDLE with cleared counters meets its invariants, whatever its request result, ghost tick and port. -/
theorem TxUnit.ok_of_cleared {cfg : UnitConfig} {t : TxUnit} (hstate : t.tState = .idle) (hattempts : t.tAttempts = 0)
    (hdeadline : t.tDeadline = 0) (hlen : t.tLen = 0) (hframe : t.tFrame.length = cfg.maxLen + 4) : t.Ok cfg := by
  refine ⟨hframe, by simp [hlen], fun _ => hattempts, fun h => absurd hstate h, fun h => ?_, fun h => absurd hstate h, ?_⟩
  · simp [hstate] at h
  · rw [hdeadline]
    exact tickFits_zero _

theorem State.afterReset_inv {p : Params} (h : p.wellFormed = true) : (State.afterReset p).Inv :=
  ⟨h, Decoder.atReset_ok _, RxUnit.atReset_ok _, TxUnit.ok_of_cleared rfl rfl rfl rfl List.length_replicate⟩

/-- Settles O59, by the reset values of the three units; REF is well formed. -/
theorem resetStateIsGood : Obligations.ResetStateIsGood := by
  unfold Obligations.ResetStateIsGood
  exact ⟨State.afterReset_inv (by decide), fun _ => State.afterReset_inv⟩

end Sys2Proof.Machine
end

section
/-! PROOFS. The register invariants (10_state.md sections 2, 4 and 5, 70_reset_and_hazards.md section 3): a step of the
receiver keeps them, a send request and a step of the transmitter keep them, so every command and every step does. -/

namespace Sys2Proof.Machine

/-! ## The receiver -/

/-- A byte that leaves a waiting decoder without a verdict leaves it waiting (R104 to R108). -/
theorem Decoder.push_pending_waits {cfg : UnitConfig} {d : Decoder} {b : Byte} (hs : d.dState.terminal = false)
    (hv : (d.push cfg b).2 = .pending) : (d.push cfg b).1.dState.terminal = false := by
  cases hd : d.dState with
  | awaitStart =>
    by_cases hb : b = cfg.startByte
    · rw [hb, Decoder.push_awaitStart_startByte cfg hd]; rfl
    · rwa [Decoder.push_awaitStart_of_ne hd hb]
  | awaitLength =>
    rw [Decoder.push_awaitLength cfg hd] at hv ⊢
    split_ifs at hv ⊢ <;> rfl
  | awaitPayload =>
    rw [Decoder.push_awaitPayload cfg hd]
    dsimp only
    split_ifs <;> rfl
  | awaitChecksum =>
    by_cases hb : b = d.dCsum
    · rw [Decoder.push_awaitChecksum_of_eq cfg hd hb]; rfl
    · simp [Decoder.push_awaitChecksum_of_ne cfg hd hb] at hv
  | awaitEnd =>
    by_cases hb : b = cfg.endByte
    · simp [hb, Decoder.push_awaitEnd_endByte cfg hd] at hv
    · simp [Decoder.push_awaitEnd_of_ne hd hb] at hv
  | done => simp [hd, DecState.terminal] at hs
  | error => simp [hd, DecState.terminal] at hs

/-- Only the END byte, in AWAIT_END, gives a Valid verdict, which carries the payload in the buffer (R108). -/
theorem Decoder.push_valid {cfg : UnitConfig} {d : Decoder} {b : Byte} {p : List Byte}
    (hv : (d.push cfg b).2 = .valid p) : d.dState = .awaitEnd ∧ p = d.payload := by
  cases hd : d.dState with
  | awaitStart => simp [Decoder.push_awaitStart_verdict cfg hd] at hv
  | awaitLength =>
    rw [Decoder.push_awaitLength cfg hd] at hv
    split_ifs at hv
  | awaitPayload => simp [Decoder.push_awaitPayload cfg hd] at hv
  | awaitChecksum =>
    by_cases hb : b = d.dCsum
    · simp [Decoder.push_awaitChecksum_of_eq cfg hd hb] at hv
    · simp [Decoder.push_awaitChecksum_of_ne cfg hd hb] at hv
  | awaitEnd =>
    by_cases hb : b = cfg.endByte
    · rw [hb, Decoder.push_awaitEnd_endByte cfg hd] at hv
      exact ⟨rfl, (Verdict.valid.inj hv).symm⟩
    · simp [Decoder.push_awaitEnd_of_ne hd hb] at hv
  | done => simp [Decoder.push_terminal_verdict cfg (.inl hd)] at hv
  | error => simp [Decoder.push_terminal_verdict cfg (.inr hd)] at hv

/-- A reported payload is within the limit (R37 (a)). -/
theorem Decoder.push_valid_length {cfg : UnitConfig} {d : Decoder} {b : Byte} {p : List Byte} (hok : d.Ok cfg.maxLen)
    (hv : (d.push cfg b).2 = .valid p) : p.length ≤ cfg.maxLen := by
  obtain ⟨hd, rfl⟩ := Decoder.push_valid hv
  obtain ⟨-, -, -, hlen, -⟩ := hok
  exact (List.length_take_le _ _).trans (hlen (.inr (.inr (.inl hd))))

/-- R17's bound, for the receiver's record (R18). -/
theorem cfgRx_maxLen_le {s : State} (h : s.params.wellFormed = true) : s.params.cfgRx.maxLen ≤ 255 := by
  simp only [Params.wellFormed, Bool.and_eq_true] at h
  obtain ⟨⟨-, hrx⟩, -⟩ := h
  exact (s.params.cfgRx.wellFormed_iff.mp hrx).1

/-- What the loop of RX_STEP keeps: the receiver's invariants but for the response port, which RX_STEP writes at its end. -/
def State.RxLoopOk (s : State) : Prop :=
  s.params.wellFormed = true ∧ s.rx.dec.Ok s.params.cfgRx.maxLen ∧ s.rx.dec.dState.terminal = false ∧
  s.rx.rxOutBuf.length = s.params.cfgRx.maxLen ∧ s.rx.rxOutLen.toNat ≤ s.params.cfgRx.maxLen

theorem State.RxLoopOk.pending {s : State} {b : Byte} (h : s.RxLoopOk)
    (hv : (s.rx.dec.push s.params.cfgRx b).2 = .pending) (rest : List Byte) : (rxTaken b rest s).RxLoopOk := by
  obtain ⟨hwf, hdec, hwait, hout⟩ := h
  exact ⟨hwf, Decoder.push_ok hdec b, Decoder.push_pending_waits hwait hv, hout⟩

theorem State.RxLoopOk.invalid {s : State} (h : s.RxLoopOk) (b : Byte) (rest : List Byte) (e : Reason) :
    (rxInvalidState e (rxTaken b rest s)).RxLoopOk := by
  obtain ⟨hwf, ⟨hbuf, -⟩, -, hout⟩ := h
  simp only [State.RxLoopOk, rxInvalidState_params, rxInvalidState_rx]
  exact ⟨hwf, Decoder.reset_ok ((Decoder.push_dBuf_length _ _ b).trans hbuf), rfl, hout⟩

theorem State.RxLoopOk.valid {s : State} {b : Byte} {p : List Byte} (h : s.RxLoopOk)
    (hv : (s.rx.dec.push s.params.cfgRx b).2 = .valid p) (rest : List Byte) :
    (rxValidState p (rxTaken b rest s)).RxLoopOk := by
  obtain ⟨hwf, hdec, -, hout, -⟩ := h
  have hlen := Decoder.push_valid_length hdec hv
  obtain ⟨hbuf, -⟩ := hdec
  exact ⟨hwf, Decoder.reset_ok ((Decoder.push_dBuf_length _ _ b).trans hbuf), rfl, (writePrefix_length _ _).trans hout,
    (lengthByte_toNat (hlen.trans (cfgRx_maxLen_le hwf))).trans_le hlen⟩

theorem rxLoop_keeps_loopOk {bs : List Byte} {s t : State} (hok : s.RxLoopOk) (hb : s.env.fwd = bs)
    (h : rxLoop bs s = .next t) : t.RxLoopOk :=
  rxLoop_induction (P := State.RxLoopOk) (Q := State.RxLoopOk) (fun _ hP => hP)
    (fun _ rest _ hP _ hv => hP.pending hv rest) (fun b rest _ e hP _ _ => hP.invalid b rest e)
    (fun _ rest _ _ hP _ hv => hP.valid hv rest) hb hok h

/-- A step of the receiver keeps the invariants; at its end the port holds the latched payload whenever `rx_ready` is
set. -/
theorem stepReceiver_inv {s t : State} (hs : s.Inv) (h : stepReceiver s = .next t) : t.Inv := by
  obtain ⟨hwf, hcodec, ⟨hdec, hwait, hbuf, hlen, -⟩, htx⟩ := hs
  obtain ⟨u, hu, rfl⟩ := stepReceiver_eq_next.mp h
  obtain ⟨hcodec', htx', hparams, -⟩ := rxLoop_frame (s := s.setRx { s.rx with rxReady := false }) rfl hu
  obtain ⟨hwf', hdec', hwait', hbuf', hlen'⟩ := rxLoop_keeps_loopOk
    (s := s.setRx { s.rx with rxReady := false }) ⟨hwf, hdec, hwait, hbuf, hlen⟩ rfl hu
  refine ⟨hwf', ?_, ⟨hdec', hwait', hbuf', hlen', fun hready => ?_⟩, ?_⟩
  · rw [hcodec', hparams]
    exact hcodec
  · exact congrArg some (RxUnit.result_eq_payload.mpr ⟨hready, rfl⟩)
  · rw [htx', hparams]
    exact htx

/-! ## The transmitter -/

/-- R17's least `MAX_ATTEMPTS`, for the transmitter's record (R18). -/
theorem cfgTx_maxAttempts_pos {s : State} (h : s.params.wellFormed = true) : 1 ≤ s.params.cfgTx.maxAttempts := by
  simp only [Params.wellFormed, Bool.and_eq_true] at h
  obtain ⟨-, htx⟩ := h
  exact (s.params.cfgTx.wellFormed_iff.mp htx).2.1

/-- The payload is read back from offset 2 of its frame, whatever follows the frame (R73). -/
theorem take_drop_frameBytes_append (cfg : UnitConfig) (p rest : List Byte) :
    ((frameBytes cfg p ++ rest).drop 2).take p.length = p := by
  simp [frameBytes]

/-- The transmitter that an accepted request leaves meets its invariants: the captured frame is that of the payload
(R47, R50). -/
theorem TxUnit.Ok.accepted {s : State} {p : List Byte} (hwf : s.params.wellFormed = true) (hok : s.tx.Ok s.params.cfgTx)
    (hs : s.tx.tState = .idle) (hle : p.length ≤ s.params.cfgTx.maxLen) :
    (requestSend p s).tx.Ok s.params.cfgTx := by
  obtain ⟨hframe, -, hidle, -, -, -, hfits⟩ := hok
  have hlen := lengthByte_toNat (hle.trans (cfgTx_maxLen_le hwf))
  have hbytes := frameBytes_length s.params.cfgTx p
  have hroom : (frameBytes s.params.cfgTx p).length ≤ s.tx.tFrame.length := by omega
  have hattempts := hidle hs
  have hmax := cfgTx_maxAttempts_pos hwf
  rw [requestSend_of_le hs hle]
  refine ⟨(writePrefix_length _ _).trans hframe, hlen.trans_le hle, nofun, fun _ => ⟨?_, ?_⟩, nofun, fun _ => ?_,
    hfits⟩
  · exact Nat.le_add_left _ _
  · dsimp only; omega
  · simp only [TxUnit.wire, hlen, writePrefix_of_le hroom, take_drop_frameBytes_append]
    rw [← hbytes, List.take_left]

theorem requestSend_inv {s : State} (hs : s.Inv) (p : List Byte) : (requestSend p s).Inv := by
  obtain ⟨hwf, hcodec, hrx, htx⟩ := hs
  obtain ⟨hcodec', hrx', -, hparams, -⟩ := requestSend_frame p s
  have htx' : (requestSend p s).tx.Ok s.params.cfgTx := by
    obtain ⟨-, h⟩ | ⟨-, -, h⟩ | ⟨hidle, hle, -⟩ := requestSend_cases p s
    · rw [h]; exact htx
    · rw [h]; exact htx
    · exact TxUnit.Ok.accepted hwf htx hidle hle
  unfold State.Inv
  rw [hparams, hcodec', hrx']
  exact ⟨hwf, hcodec, hrx, htx'⟩

/-- The transmitter's invariants in a session. -/
theorem TxUnit.ok_of_session {cfg : UnitConfig} {t : TxUnit} (hframe : t.tFrame.length = cfg.maxLen + 4)
    (hlen : t.tLen.toNat ≤ cfg.maxLen) (hstate : t.tState ≠ .idle)
    (hattempts : 1 ≤ t.tAttempts ∧ t.tAttempts ≤ cfg.maxAttempts)
    (hfailed : t.tState = .failed → t.tAttempts = cfg.maxAttempts)
    (hwire : t.wire = frameBytes cfg ((t.tFrame.drop 2).take t.tLen.toNat))
    (hfits : tickFits cfg.tickBits t.tDeadline = true) : t.Ok cfg :=
  ⟨hframe, hlen, fun h => absurd h hstate, fun _ => hattempts, hfailed, fun _ => hwire, hfits⟩

/-- A step of the transmitter keeps the transmitter's invariants, whatever becomes of the session (R127, R129). -/
theorem stepTransmitter_txOk {now : Nat} {s t : State} (hok : s.tx.Ok s.params.cfgTx)
    (h : stepTransmitter now s = .next t) : t.tx.Ok s.params.cfgTx := by
  obtain ⟨hframe, hlen, hidle, hsession, hfailed, hwire, hfits⟩ := hok
  obtain ⟨htFrame, htLen, -, -, hcases⟩ := stepTransmitter_session h
  rw [← TxUnit.wire_congr htFrame htLen] at hwire
  rw [← htFrame] at hframe hwire
  rw [← htLen] at hlen hwire
  obtain ⟨hst, -, ha, hd⟩ | ⟨hs, hst, ha, -, hfits'⟩ | ⟨hs, hst, ha, hd⟩ | ⟨hs, hst, ha, hleft, hd⟩ |
    ⟨hs, hst, ha, hspent, hd⟩ := hcases
  case inl =>
    unfold TxUnit.Ok
    rw [hst, ha, hd]
    exact ⟨hframe, hlen, hidle, hsession, hfailed, hwire, hfits⟩
  -- In the other cases a session existed before the step and exists after it.
  all_goals
    rw [hs] at hsession hwire
    obtain ⟨hpos, hle⟩ := hsession nofun
    have hok {hstate hattempts} := TxUnit.ok_of_session hframe hlen hstate hattempts (hwire := hwire nofun)
  · exact @hok (by simp [hst]) (by omega) (by simp [hst]) hfits'
  · exact @hok (by simp [hst]) (by omega) (by simp [hst]) (hd ▸ hfits)
  · exact @hok (by simp [hst]) (by omega) (by simp [hst]) (hd ▸ hfits)
  · exact @hok (by simp [hst]) (by omega) (fun _ => by omega) (hd ▸ hfits)

theorem stepTransmitter_inv {now : Nat} {s t : State} (hs : s.Inv) (h : stepTransmitter now s = .next t) : t.Inv := by
  obtain ⟨hwf, hcodec, hrx, htx⟩ := hs
  have htx' := stepTransmitter_txOk htx h
  obtain ⟨hcodec', hrx', hparams, -⟩ := stepTransmitter_frame h
  unfold State.Inv
  rw [hparams, hcodec', hrx']
  exact ⟨hwf, hcodec, hrx, htx'⟩

/-! ## Commands and steps -/

/-- Step (a) of SYS_TICK is a send request or nothing. -/
theorem tickRequest_inv {s : State} (hs : s.Inv) : (tickRequest s).Inv := by
  obtain ⟨p, -, -, h⟩ | ⟨-, h⟩ := tickRequest_cases s
  · rw [h]
    exact requestSend_inv hs p
  · rwa [h]

theorem execSysTick_inv {s t : State} (hs : s.Inv) (h : execSysTick s = .next t) : t.Inv := by
  obtain ⟨-, u, v, hu, hv, rfl⟩ := execSysTick_next h
  have hv' : v.Inv := stepReceiver_inv (stepTransmitter_inv (tickRequest_inv hs) hu) hv
  exact hv'

theorem exec_inv {i : Instr} {s t : State} (hs : s.Inv) (h : exec i s = .next t) : t.Inv := by
  have ⟨hwf, hcodec, hrx, htx⟩ := hs
  cases i
  case sysTick => exact execSysTick_inv hs h
  all_goals obtain ⟨-, h⟩ := whenConfigured_eq_next.mp h
  case rxStep => exact stepReceiver_inv hs h
  case txStep => exact stepTransmitter_inv hs h
  all_goals cases h
  case decPush b => exact ⟨hwf, Decoder.push_ok hcodec b, hrx, htx⟩
  case decReset =>
    obtain ⟨hbuf, -⟩ := hcodec
    exact ⟨hwf, Decoder.reset_ok hbuf, hrx, htx⟩
  case rxReset =>
    obtain ⟨⟨hbuf, -⟩, -, hout, hlen, -⟩ := hrx
    exact ⟨hwf, hcodec, ⟨Decoder.reset_ok hbuf, rfl, hout, hlen, nofun⟩, htx⟩
  case txRequestSend => exact requestSend_inv hs _
  case txReset =>
    obtain ⟨hframe, -⟩ := htx
    exact ⟨hwf, hcodec, hrx, TxUnit.ok_of_cleared rfl rfl rfl rfl (List.length_replicate.trans hframe)⟩
  case sysReset => exact State.afterReset_inv hwf
  -- NOP, ENCODE, CSUM_CLEAR and CSUM_ACC write no register that the invariants name.
  all_goals exact hs

/-- Settles O60: taking the issue touches no register, and every command keeps the invariants. -/
theorem everyStepKeepsTheRegisterInvariants : Obligations.EveryStepKeepsTheRegisterInvariants := by
  unfold Obligations.EveryStepKeepsTheRegisterInvariants
  intro s t hs h
  obtain ⟨i, -, hexec⟩ := step_next h
  obtain ⟨hcodec, hrx, htx, -, hparams⟩ := s.takeIssue_frame
  have htake : s.takeIssue.Inv := by
    unfold State.Inv
    rwa [hcodec, hrx, htx, hparams]
  exact exec_inv htake hexec

end Sys2Proof.Machine
end

section
/-! PROOFS. The laws of the checksum (40_checksum.md R96): the order of the bytes, the change that one changed byte makes, and
a change that it does not see. -/

namespace Sys2Proof.Machine

/-- The checksum of a region does not depend on the order of its bytes (R96 (b)). -/
theorem checksumOver_perm {as bs : List Byte} (h : as.Perm bs) : checksumOver as = checksumOver bs := by
  induction h with
  | nil => rfl
  | cons a _ ih => rw [checksumOver_cons, checksumOver_cons, ih]
  | swap a b l =>
    simp only [checksumOver_cons]
    ac_rfl
  | trans _ _ ih₁ ih₂ => exact ih₁.trans ih₂

theorem xor_xor_cancel_left (a b : Byte) : a ^^^ (a ^^^ b) = b := by
  rw [← BitVec.xor_assoc, BitVec.xor_self, BitVec.zero_xor]

/-- The same flip in two bytes cancels (R96 (e)). -/
theorem checksumOver_flip_twice {bs : List Byte} {j k : Nat} {x y : Byte} (hjk : j ≠ k) (hx : bs[j]? = some x)
    (hy : bs[k]? = some y) (flip : Byte) :
    checksumOver ((bs.set j (x ^^^ flip)).set k (y ^^^ flip)) = checksumOver bs := by
  have hy' : (bs.set j (x ^^^ flip))[k]? = some y := (List.getElem?_set_ne hjk).trans hy
  rw [checksumOver_set hy', checksumOver_set hx, xor_xor_cancel_left, xor_xor_cancel_left, BitVec.xor_assoc,
    BitVec.xor_self, BitVec.xor_zero]

/-- Settles O11, by the order, the cancellation and the change of a set byte in the running XOR. -/
theorem checksumLaws : Obligations.ChecksumLaws := by
  unfold Obligations.ChecksumLaws
  refine ⟨fun p q hpq => ?order, fun x => ⟨BitVec.xor_self, accCombine_zero x⟩,
    fun region k x y hx => ⟨checksumOver_set hx y, fun hxy => ?changed⟩,
    fun region j k x y bit hjk hx hy _ => checksumOver_flip_twice hjk hx hy _⟩
  case order => rw [csum_eq, csum_eq, hpq.length_eq, checksumOver_perm hpq]
  case changed =>
    rw [checksumOver_set hx]
    simpa using hxy

end Sys2Proof.Machine
end

section
/-! PROOFS. Runs of bytes through a decoder (42_decode.md section 3): noise before START (R115), and the number of bytes within
which a begun frame reaches a verdict (R118). DEC_PUSH is one byte of such a run (R112). -/

namespace Sys2Proof.Machine

theorem execDecPush_of_wellFormed {s : State} (h : s.params.wellFormed = true) (b : Byte) :
    execDecPush b s = .next { s with codec := { s.codec with
      dec := (s.codec.dec.push s.params.cfgCodec b).1
      resp := some (.verdict (s.codec.dec.push s.params.cfgCodec b).2) } } :=
  whenConfigured_of_wellFormed h _

/-- Settles O21, by the command's effect once the configuration check is passed. -/
theorem decPushAppliesTheTransition : Obligations.DecPushAppliesTheTransition := by
  unfold Obligations.DecPushAppliesTheTransition
  refine ⟨fun b => encode_eq_or (.decPush b), fun b s d v hwf hpush => ?_⟩
  have hexec : exec (.decPush b) s = _ := execDecPush_of_wellFormed hwf b
  rw [hexec, hpush]

/-! ## Noise -/

theorem Decoder.pushAll_noise {cfg : UnitConfig} {d : Decoder} {noise : List Byte} (hs : d.dState = .awaitStart)
    (hnoise : cfg.startByte ∉ noise) : d.pushAll cfg noise = (d, List.replicate noise.length .pending) := by
  induction noise with
  | nil => rfl
  | cons b noise ih =>
    rw [List.mem_cons, not_or] at hnoise
    obtain ⟨hb, hnoise⟩ := hnoise
    rw [Decoder.pushAll, Decoder.push_awaitStart_of_ne hs (Ne.symm hb), ih hnoise]
    rfl

/-- Settles O25: noise leaves the decoder as it is, so what follows meets the decoder that it would meet without. -/
theorem noiseBeforeStartIsIgnored : Obligations.NoiseBeforeStartIsIgnored := by
  unfold Obligations.NoiseBeforeStartIsIgnored
  intro cfg d noise rest hs hnoise
  have hrun := Decoder.pushAll_noise hs hnoise
  exact ⟨hrun, by rw [Decoder.pushAll_append, hrun]⟩

/-! ## The bytes until a verdict -/

/-- The bytes that a begun frame still needs at most; 0 outside a frame. -/
def Decoder.bytesLeft (maxLen : Nat) (d : Decoder) : Nat :=
  match d.dState with
  | .awaitLength => maxLen + 3
  | .awaitPayload => d.dLen.toNat - d.dIdx.toNat + 2
  | .awaitChecksum => 2
  | .awaitEnd => 1
  | .awaitStart | .done | .error => 0

/-- A byte within a frame reaches a verdict or leaves fewer bytes to come, still within the frame. -/
theorem Decoder.push_bytesLeft {cfg : UnitConfig} {d : Decoder} (hok : d.Ok cfg.maxLen)
    (hin : 0 < d.bytesLeft cfg.maxLen) (b : Byte) : (d.push cfg b).2 ≠ .pending ∨
      0 < (d.push cfg b).1.bytesLeft cfg.maxLen ∧
      (d.push cfg b).1.bytesLeft cfg.maxLen < d.bytesLeft cfg.maxLen := by
  obtain ⟨-, -, -, -, hidx, -⟩ := hok
  cases hs : d.dState with
  | awaitLength =>
    rw [Decoder.push_awaitLength cfg hs]
    split_ifs with hgt hzero
    · exact .inl nofun
    · exact .inr (by simp [Decoder.bytesLeft, hs])
    · exact .inr (by simp [Decoder.bytesLeft, hs]; omega)
  | awaitPayload =>
    have hidx : d.dIdx.toNat < d.dLen.toNat := hidx hs
    have hsucc := index_succ_toNat hidx
    rw [Decoder.push_awaitPayload cfg hs]
    right
    by_cases hlast : d.dIdx + 1 = d.dLen
    · simp only [Decoder.bytesLeft, hs, hlast, if_true]; omega
    · simp only [Decoder.bytesLeft, hs, hlast, if_false, hsucc]; omega
  | awaitChecksum =>
    by_cases hb : b = d.dCsum
    · rw [Decoder.push_awaitChecksum_of_eq cfg hs hb]
      exact .inr (by simp [Decoder.bytesLeft, hs])
    · rw [Decoder.push_awaitChecksum_of_ne cfg hs hb]
      exact .inl nofun
  | awaitEnd =>
    by_cases hb : b = cfg.endByte
    · rw [hb, Decoder.push_awaitEnd_endByte cfg hs]
      exact .inl nofun
    · rw [Decoder.push_awaitEnd_of_ne hs hb]
      exact .inl nofun
  | awaitStart => simp [Decoder.bytesLeft, hs] at hin
  | done => simp [Decoder.bytesLeft, hs] at hin
  | error => simp [Decoder.bytesLeft, hs] at hin

/-- A begun frame reaches a verdict within the bytes that it still needs. -/
theorem Decoder.pushAll_reaches_verdict {cfg : UnitConfig} {d : Decoder} {bs : List Byte} (hok : d.Ok cfg.maxLen)
    (hin : 0 < d.bytesLeft cfg.maxLen) (hlen : d.bytesLeft cfg.maxLen ≤ bs.length) :
    ∃ v ∈ (d.pushAll cfg bs).2, v ≠ .pending := by
  induction bs generalizing d with
  | nil => exact absurd hlen (Nat.not_le.mpr hin)
  | cons b bs ih =>
    rw [Decoder.pushAll]
    obtain hv | ⟨hin', hless⟩ := Decoder.push_bytesLeft hok hin b
    · exact ⟨_, List.mem_cons_self, hv⟩
    · rw [List.length_cons] at hlen
      obtain ⟨v, hmem, hv⟩ := ih (Decoder.push_ok hok b) hin' (by omega)
      exact ⟨v, List.mem_cons_of_mem _ hmem, hv⟩

/-- Settles O27: a LENGTH byte above the limit is rejected before any payload byte, and a frame whose START was just taken
needs at most `MAX_LEN + 3` bytes more. -/
theorem decoderReachesAVerdictInBoundedTime : Obligations.DecoderReachesAVerdictInBoundedTime := by
  unfold Obligations.DecoderReachesAVerdictInBoundedTime
  refine ⟨fun cfg d b hs hgt => ?tooLong, fun cfg d bs _ hok hs hlen => ?bounded⟩
  case tooLong =>
    rw [Decoder.push_awaitLength cfg hs, if_pos hgt]
    exact ⟨rfl, rfl⟩
  case bounded =>
    have hleft : d.bytesLeft cfg.maxLen = cfg.maxLen + 3 := by simp only [Decoder.bytesLeft, hs]
    refine Decoder.pushAll_reaches_verdict hok (hleft ▸ Nat.succ_pos _) ?_
    rw [hleft, List.length_take_of_le hlen]

end Sys2Proof.Machine
end

section
/-! PROOFS. The channels (20_memory.md section 3): a push into a full one (R64), and what the environment's draws leave of a
run of pushed bytes (R65). -/

namespace Sys2Proof.Machine

theorem State.pushFwd_of_full {s : State} (h : chanFull s.params.chanDepth s.env.fwd = true) (b : Byte) :
    s.pushFwd b = .fault .channelOverflow :=
  if_pos h

theorem State.pushRet_of_full {s : State} (h : chanFull s.params.chanDepth s.env.ret = true) (b : Byte) :
    s.pushRet b = .fault .channelOverflow :=
  if_pos h

/-- Settles O42: an unbounded channel is never full, and one of capacity `n` is full exactly when it holds `n` bytes or
more. -/
theorem fullChannelFaults : Obligations.FullChannelFaults := by
  unfold Obligations.FullChannelFaults
  refine fun s b => ⟨fun hnone => ?unbounded, fun n hn => ?bounded⟩
  case unbounded =>
    exact ⟨⟨_, State.pushFwd_of_room (by rw [hnone]; rfl) b⟩, ⟨_, State.pushRet_of_room (by rw [hnone]; rfl) b⟩⟩
  case bounded =>
    have hroom {ch : List Byte} (h : ch.length < n) : chanFull s.params.chanDepth ch = false :=
      chanFull_eq_false_of_room fun m hm => (Option.some.inj (hn.symm.trans hm)) ▸ h
    exact ⟨fun h => State.pushFwd_of_full (chanFull_eq_true.mpr ⟨n, hn, h⟩) b,
      fun h => ⟨_, State.pushFwd_of_room (hroom h) b⟩,
      fun h => State.pushRet_of_full (chanFull_eq_true.mpr ⟨n, hn, h⟩) b,
      fun h => ⟨_, State.pushRet_of_room (hroom h) b⟩⟩

/-- A byte that is delivered or dropped arrives as it was pushed or not at all. -/
theorem drawn_sublist {ds : List Draw} (h : ∀ d ∈ ds, d = .deliver ∨ d = .drop) (b : Byte) :
    (drawn ds b).Sublist [b] := by
  cases ds with
  | nil => exact .refl _
  | cons d ds =>
    obtain rfl | rfl := h d List.mem_cons_self
    · exact .refl _
    · exact List.nil_sublist _

theorem perturb_sublist {ds : List Draw} (h : ∀ d ∈ ds, d = .deliver ∨ d = .drop) (bs : List Byte) :
    (perturb ds bs).Sublist bs := by
  induction bs generalizing ds with
  | nil => exact .refl _
  | cons b bs ih => exact (drawn_sublist h b).append (ih fun d hd => h d (List.mem_of_mem_tail hd))

theorem perturb_append (ds : List Draw) (as bs : List Byte) :
    perturb ds (as ++ bs) = perturb ds as ++ perturb (ds.drop as.length) bs := by
  induction as generalizing ds with
  | nil => rfl
  | cons a as ih =>
    rw [List.cons_append, perturb, perturb, ih, List.append_assoc, List.drop_tail, List.length_cons]

/-- Settles O43, by the draw of the first byte and induction over the run. -/
theorem drawsDeliverDropOrReplace : Obligations.DrawsDeliverDropOrReplace := by
  unfold Obligations.DrawsDeliverDropOrReplace
  exact ⟨perturb_none, fun ds b bs => ⟨rfl, rfl, fun v => rfl⟩, fun ds bs h => perturb_sublist h bs, perturb_append⟩

end Sys2Proof.Machine
end

section
/-! PROOFS. RX_STEP (43_receiver.md section 2, R121): its loop byte by byte, what it leaves of the channels and of the output
registers, and the bytes that it takes under each policy (R14). -/

namespace Sys2Proof.Machine

/-! ## The loop by its first byte -/

/-- The state in which the loop of RX_STEP starts: `rx_ready` is cleared. -/
def State.rxStarted (s : State) : State := s.setRx { s.rx with rxReady := false }

/-- The end of RX_STEP: its result goes on the response port. -/
def rxReturn (s : State) : StepOutcome := .next (s.respondRx (some s.rx.result))

theorem stepReceiver_eq (s : State) : stepReceiver s = andThen (rxLoop s.env.fwd s.rxStarted) rxReturn := rfl

/-- Where RX_STEP answers a next state, its loop has, and what is shown of the state that the loop answers holds of that next
state but for the response port. -/
theorem stepReceiver_next {s t : State} (h : stepReceiver s = .next t) :
    ∃ u, rxLoop s.rxStarted.env.fwd s.rxStarted = .next u ∧ t = u.respondRx (some u.rx.result) :=
  stepReceiver_eq_next.mp h

theorem execRxStep_of_wellFormed {s : State} (h : s.params.wellFormed = true) : execRxStep s = stepReceiver s :=
  whenConfigured_of_wellFormed h _

/-- Where `rx_ready` is clear, the rest of the loop is a step of the receiver of its own. -/
theorem stepReceiver_of_notReady {s : State} (h : s.rx.rxReady = false) :
    stepReceiver s = andThen (rxLoop s.env.fwd s) rxReturn := by
  have hstarted : s.rxStarted = s := by
    unfold State.rxStarted
    rw [← h]
    rfl
  rw [stepReceiver_eq, hstarted]

theorem rxReturn_of_ready {s : State} (h : s.rx.rxReady = true) :
    rxReturn s = .next { s with rx := { s.rx with resp := some (.payload s.rx.outPayload) } } := by
  have hres : s.rx.result = .payload s.rx.outPayload := if_pos h
  rw [rxReturn, hres]
  rfl

theorem rxReturn_of_notReady {s : State} (h : s.rx.rxReady = false) :
    rxReturn s = .next { s with rx := { s.rx with resp := some .nothing } } := by
  have hres : s.rx.result = .nothing := if_neg (by simp [h])
  rw [rxReturn, hres]
  rfl

theorem rxLoop_valid {b : Byte} {rest p : List Byte} {s : State} (hv : (s.rx.dec.push s.params.cfgRx b).2 = .valid p) :
    rxLoop (b :: rest) s = rxValid p (rxTaken b rest s) := by
  simp only [rxLoop_cons, hv]

theorem rxLoop_pending_one {b : Byte} {rest : List Byte} {s : State}
    (hv : (s.rx.dec.push s.params.cfgRx b).2 = .pending) (hpol : s.params.cfgRx.rxPolicy = .one) :
    rxLoop (b :: rest) s = .next (rxTaken b rest s) := by
  simp only [rxLoop_cons, hv, hpol]

theorem rxLoop_pending_all {b : Byte} {rest : List Byte} {s : State}
    (hv : (s.rx.dec.push s.params.cfgRx b).2 = .pending) (hpol : s.params.cfgRx.rxPolicy = .all) :
    rxLoop (b :: rest) s = rxLoop rest (rxTaken b rest s) := by
  simp only [rxLoop_cons, hv, hpol]

theorem rxLoop_invalid_one {b : Byte} {rest : List Byte} {e : Reason} {s : State}
    (hv : (s.rx.dec.push s.params.cfgRx b).2 = .invalid e) (hpol : s.params.cfgRx.rxPolicy = .one) :
    rxLoop (b :: rest) s = rxInvalid e (rxTaken b rest s) := by
  simp only [rxLoop_cons, hv, hpol]

theorem rxLoop_invalid_all {b : Byte} {rest : List Byte} {e : Reason} {s : State}
    (hv : (s.rx.dec.push s.params.cfgRx b).2 = .invalid e) (hpol : s.params.cfgRx.rxPolicy = .all) :
    rxLoop (b :: rest) s = andThen (rxInvalid e (rxTaken b rest s)) (rxLoop rest) := by
  simp only [rxLoop_cons, hv, hpol]

theorem rxInvalidState_taken_fwd (e : Reason) (b : Byte) (rest : List Byte) (s : State) :
    (rxInvalidState e (rxTaken b rest s)).env.fwd = rest := by
  rw [rxInvalidState_env]
  rfl

/-- Settles O30, by the loop's first byte; where the loop goes on, `rx_ready` is clear, so its rest is again RX_STEP. -/
theorem rxStepTakesBytesInOrder : Obligations.RxStepTakesBytesInOrder := by
  unfold Obligations.RxStepTakesBytesInOrder
  refine ⟨rfl, fun s hwf => ?_⟩
  have hexec {t : State} (h : t.params = s.params) : exec .rxStep t = stepReceiver t :=
    execRxStep_of_wellFormed (h ▸ hwf)
  refine ⟨fun hempty => ?empty, fun b rest d v u hfwd hpush hu => ?byte⟩
  case empty =>
    rw [hexec rfl, stepReceiver_eq, hempty]
    exact rxReturn_of_notReady rfl
  case byte =>
    have hv : (s.rxStarted.rx.dec.push s.rxStarted.params.cfgRx b).2 = v := congrArg Prod.snd hpush
    have htaken : rxTaken b rest s.rxStarted = u := by
      rw [hu, ← show (s.rx.dec.push s.params.cfgRx b).1 = d from congrArg Prod.fst hpush]
      rfl
    have hready : u.rx.rxReady = false := hu ▸ rfl
    have hparams : u.params = s.params := hu ▸ rfl
    have hrest : u.env.fwd = rest := hu ▸ rfl
    rw [hexec rfl, stepReceiver_eq, hfwd]
    refine ⟨fun p hp => ?valid, fun hp hpol => ?pendingOne, fun hp hpol => ?pendingAll,
      fun r hr hpol => ?invalidOne, fun r hr hpol => ?invalidAll⟩
    case valid =>
      rw [rxLoop_valid (hv.trans hp), htaken]
      refine andThen_congr fun t ht => ?_
      obtain ⟨-, rfl⟩ := rxValid_eq_next.mp ht
      exact rxReturn_of_ready rfl
    case pendingOne =>
      rw [rxLoop_pending_one (hv.trans hp) hpol, htaken]
      exact rxReturn_of_notReady hready
    case pendingAll =>
      rw [rxLoop_pending_all (hv.trans hp) hpol, htaken, hexec hparams, stepReceiver_of_notReady hready, hrest]
    case invalidOne =>
      rw [rxLoop_invalid_one (hv.trans hr) hpol, htaken]
      refine andThen_congr fun t ht => ?_
      obtain ⟨-, rfl⟩ := rxInvalid_eq_next.mp ht
      exact rxReturn_of_notReady (by rw [rxInvalidState_rx]; exact hready)
    case invalidAll =>
      rw [rxLoop_invalid_all (hv.trans hr) hpol, htaken, andThen_assoc]
      refine andThen_congr fun t ht => ?_
      obtain ⟨-, rfl⟩ := rxInvalid_eq_next.mp ht
      have hready' : (rxInvalidState r u).rx.rxReady = false := by rw [rxInvalidState_rx]; exact hready
      have hrest' : (rxInvalidState r u).env.fwd = rest := by rw [rxInvalidState_env]; exact hrest
      rw [hexec ((rxInvalidState_params r u).trans hparams), stepReceiver_of_notReady hready', hrest']

/-! ## The channels and the output registers -/

/-- From `s` to `t` the receiver takes bytes from the head of `FWD` and appends bytes to `RET`. -/
def RxMovesChannels (s t : State) : Prop :=
  (∃ taken, s.env.fwd = taken ++ t.env.fwd) ∧ ∃ written, t.env.ret = s.env.ret ++ written

theorem RxMovesChannels.refl (s : State) : RxMovesChannels s s :=
  ⟨⟨[], rfl⟩, ⟨[], (List.append_nil _).symm⟩⟩

/-- A taken byte and what its handling appends to `RET` continue a move of the channels. -/
theorem RxMovesChannels.taken {s u v : State} {b : Byte} {rest written : List Byte} (h : RxMovesChannels s u)
    (hfwd : u.env.fwd = b :: rest) (hfwd' : v.env.fwd = rest) (hret : v.env.ret = u.env.ret ++ written) :
    RxMovesChannels s v := by
  obtain ⟨⟨taken, htaken⟩, ⟨before, hbefore⟩⟩ := h
  refine ⟨⟨taken ++ [b], ?_⟩, ⟨before ++ written, ?_⟩⟩
  · rw [htaken, hfwd, hfwd', List.append_assoc, List.singleton_append]
  · rw [hret, hbefore, List.append_assoc]

theorem stepReceiver_movesChannels {s t : State} (h : stepReceiver s = .next t) : RxMovesChannels s t := by
  obtain ⟨u, hu, rfl⟩ := stepReceiver_next h
  suffices hmoved : RxMovesChannels s u from hmoved
  refine rxLoop_induction (P := RxMovesChannels s) (Q := RxMovesChannels s) (s := s.rxStarted) (fun _ hP => hP) ?_ ?_ ?_ rfl
    (RxMovesChannels.refl s) hu
  · exact fun b rest v hP hfwd _ => hP.taken hfwd rfl (List.append_nil _).symm
  · exact fun b rest v e hP hfwd _ => hP.taken hfwd (by rw [rxInvalidState_env]; rfl) (by rw [rxInvalidState_env]; rfl)
  · exact fun b rest v p hP hfwd _ => hP.taken hfwd rfl rfl

/-- A step of the receiver that reaches no Valid verdict keeps the latched payload. -/
theorem stepReceiver_keepsOutput {s t : State} (h : stepReceiver s = .next t) (hready : t.rx.rxReady = false) :
    t.rx.rxOutBuf = s.rx.rxOutBuf ∧ t.rx.rxOutLen = s.rx.rxOutLen := by
  obtain ⟨u, hu, rfl⟩ := stepReceiver_next h
  refine rxLoop_induction (P := fun v => v.rx.rxOutBuf = s.rx.rxOutBuf ∧ v.rx.rxOutLen = s.rx.rxOutLen)
    (Q := fun v => v.rx.rxReady = false → v.rx.rxOutBuf = s.rx.rxOutBuf ∧ v.rx.rxOutLen = s.rx.rxOutLen)
    (s := s.rxStarted) (t := u)
    (fun _ hP _ => hP) (fun _ _ _ hP _ _ => hP) ?_ (fun _ _ _ _ _ _ _ => nofun) rfl ⟨rfl, rfl⟩ hu hready
  intro b rest v e hP _ _
  rw [rxInvalidState_rx]
  exact hP

/-- The response port shows the latched payload exactly when `rx_ready` is set (R121). -/
theorem stepReceiver_resp {s t : State} (h : stepReceiver s = .next t) : t.rx.resp = some t.rx.result := by
  obtain ⟨u, -, rfl⟩ := stepReceiver_eq_next.mp h
  rfl

/-- Settles O31, by the completion of the step with room in `RET`, its frame, and what it does to the channels and to the
output registers. -/
theorem rxStepCompletesAndTouchesOnlyTheReceiver : Obligations.RxStepCompletesAndTouchesOnlyTheReceiver := by
  unfold Obligations.RxStepCompletesAndTouchesOnlyTheReceiver
  intro s hwf hroom
  obtain ⟨t, ht⟩ := stepReceiver_completes hroom
  obtain ⟨hcodec, htx, hparams, hbus, hnow, hdelivered, hpayload, htick, hreq, hdraws⟩ := stepReceiver_frame ht
  obtain ⟨hfwd, hret⟩ := stepReceiver_movesChannels ht
  have hresp := stepReceiver_resp ht
  refine ⟨t, (execRxStep_of_wellFormed hwf).trans ht, hcodec, htx, hparams, hbus, hnow, hdelivered, hpayload, htick, hreq,
    hdraws, hfwd, hret, fun hready => ?_, fun hready => ?_⟩
  · exact hresp.trans (congrArg some (if_pos hready))
  · exact ⟨hresp.trans (congrArg some (if_neg (by simp [hready]))), stepReceiver_keepsOutput ht hready⟩

/-! ## The bytes taken under each policy (R14) -/

theorem rxLoop_one_takes_head {bs : List Byte} {s t : State} (hpol : s.params.cfgRx.rxPolicy = .one) (hb : s.env.fwd = bs)
    (h : rxLoop bs s = .next t) : t.env.fwd = bs.drop 1 := by
  cases bs with
  | nil =>
    cases h
    exact hb
  | cons b rest =>
    cases hv : (s.rx.dec.push s.params.cfgRx b).2 with
    | pending =>
      rw [rxLoop_pending_one hv hpol] at h
      cases h
      rfl
    | invalid e =>
      rw [rxLoop_invalid_one hv hpol] at h
      obtain ⟨-, rfl⟩ := rxInvalid_eq_next.mp h
      exact rxInvalidState_taken_fwd e b rest s
    | valid p =>
      rw [rxLoop_valid hv] at h
      obtain ⟨-, rfl⟩ := rxValid_eq_next.mp h
      rfl

theorem rxLoop_all_takes_all {bs : List Byte} {s t : State} (hpol : s.params.cfgRx.rxPolicy = .all) (hb : s.env.fwd = bs)
    (h : rxLoop bs s = .next t) (hready : t.rx.rxReady = false) : t.env.fwd = [] := by
  induction bs generalizing s with
  | nil =>
    cases h
    exact hb
  | cons b rest ih =>
    cases hv : (s.rx.dec.push s.params.cfgRx b).2 with
    | pending =>
      rw [rxLoop_pending_all hv hpol] at h
      exact ih (s := rxTaken b rest s) hpol rfl h
    | invalid e =>
      rw [rxLoop_invalid_all hv hpol] at h
      obtain ⟨u, hu, h⟩ := andThen_eq_next.mp h
      obtain ⟨-, rfl⟩ := rxInvalid_eq_next.mp hu
      exact ih (by rw [rxInvalidState_params]; exact hpol) (rxInvalidState_taken_fwd e b rest s) h
    | valid p =>
      rw [rxLoop_valid hv] at h
      obtain ⟨-, rfl⟩ := rxValid_eq_next.mp h
      exact absurd hready (by simp [rxValidState])

/-- Settles O32: under ONE the loop ends with its first byte; under ALL it ends on an empty `FWD` or with a Valid
verdict. -/
theorem rxPolicyBoundsTheBytesTaken : Obligations.RxPolicyBoundsTheBytesTaken := by
  unfold Obligations.RxPolicyBoundsTheBytesTaken
  intro s t h
  obtain ⟨-, h⟩ := whenConfigured_eq_next.mp h
  obtain ⟨u, hu, rfl⟩ := stepReceiver_next h
  exact ⟨fun hpol => rxLoop_one_takes_head (s := s.rxStarted) (t := u) hpol rfl hu,
    fun hpol hready => rxLoop_all_takes_all (s := s.rxStarted) (t := u) hpol rfl hu hready⟩

/-! ## The acknowledgments (R124) -/

/-- From `s` to `t`, without perturbation, the receiver appends to `RET` NACK bytes, if they are enabled, and then an ACK
where it ends with a Valid verdict. -/
def RxAcknowledges (s t : State) : Prop :=
  ∃ k, (s.params.cfgRx.nackEnable = false → k = 0) ∧
    t.env.ret = s.env.ret ++ List.replicate k s.params.cfgRx.nackByte ++
      (if t.rx.rxReady then [s.params.cfgRx.ackByte] else [])

/-- What the loop of RX_STEP keeps of it before a Valid verdict. -/
def RxAcknowledging (s u : State) : Prop :=
  u.params = s.params ∧ u.ports.retDraws = [] ∧ u.rx.rxReady = false ∧ RxAcknowledges s u

theorem RxAcknowledging.invalid {s u : State} (h : RxAcknowledging s u) (b : Byte) (rest : List Byte) (e : Reason) :
    RxAcknowledging s (rxInvalidState e (rxTaken b rest u)) := by
  obtain ⟨hparams, hdraws, hready, k, hk, hret⟩ := h
  rw [hready] at hret
  cases hnack : s.params.cfgRx.nackEnable with
  | false =>
    rw [rxInvalidState_of_nackDisabled (by rw [← hparams] at hnack; exact hnack)]
    exact ⟨hparams, hdraws, hready, k, hk, by simpa [rxTaken, hready] using hret⟩
  | true =>
    rw [rxInvalidState_of_nackEnabled (by rw [← hparams] at hnack; exact hnack)]
    refine ⟨hparams, by simp [rxTaken, hdraws], hready, k + 1, by simp [hnack], ?_⟩
    simp only [rxTaken, hready, hdraws, drawn_none, hparams, hret, List.replicate_succ', List.append_assoc,
      Bool.false_eq_true, if_false, List.append_nil]

theorem RxAcknowledging.valid {s u : State} (h : RxAcknowledging s u) (b : Byte) (rest p : List Byte) :
    RxAcknowledges s (rxValidState p (rxTaken b rest u)) := by
  obtain ⟨hparams, hdraws, hready, k, hk, hret⟩ := h
  rw [hready] at hret
  refine ⟨k, hk, ?_⟩
  simp only [rxValidState, rxTaken, hdraws, drawn_none, hparams, hret, if_true, Bool.false_eq_true, if_false, List.append_nil]

theorem stepReceiver_acknowledges {s t : State} (h : stepReceiver s = .next t) (hdraws : s.ports.retDraws = []) :
    RxAcknowledges s t := by
  obtain ⟨u, hu, rfl⟩ := stepReceiver_next h
  suffices hack : RxAcknowledges s u from hack
  refine rxLoop_induction (P := RxAcknowledging s) (Q := RxAcknowledges s) (s := s.rxStarted) (fun _ ⟨_, _, _, hP⟩ => hP)
    (fun _ _ _ hP _ _ => hP) (fun b rest _ e hP _ _ => hP.invalid b rest e) (fun b rest _ p hP _ _ => hP.valid b rest p)
    rfl ⟨rfl, hdraws, rfl, 0, fun _ => rfl, ?_⟩ hu
  simp [State.rxStarted]

/-- Settles O33, by what the loop appends to `RET` at each verdict. -/
theorem oneAckPerValidFrame : Obligations.OneAckPerValidFrame := by
  unfold Obligations.OneAckPerValidFrame
  intro s t h hdraws
  obtain ⟨-, h⟩ := whenConfigured_eq_next.mp h
  obtain ⟨k, hk, hret⟩ := stepReceiver_acknowledges h hdraws
  refine ⟨fun hnack => ?_, fun _ => ⟨k, hret⟩⟩
  rw [hret, hk hnack, List.replicate_zero, List.append_nil]

/-! ## A frame behind noise (R115, R119, R121) -/

/-- The state after the loop of RX_STEP has taken `bs`, with PENDING verdicts only, and left `rest` in `FWD`. -/
def rxFed (bs rest : List Byte) (s : State) : State :=
  { s with env := { s.env with fwd := rest }, rx := { s.rx with dec := (s.rx.dec.pushAll s.params.cfgRx bs).1 } }

theorem rxLoop_all_pending {bs rest : List Byte} {s : State} {n : Nat} (hpol : s.params.cfgRx.rxPolicy = .all)
    (hfwd : s.env.fwd = bs ++ rest) (hv : (s.rx.dec.pushAll s.params.cfgRx bs).2 = List.replicate n .pending) :
    rxLoop (bs ++ rest) s = rxLoop rest (rxFed bs rest s) := by
  induction bs generalizing s n with
  | nil =>
    have hfed : rxFed [] rest s = s := by
      rw [List.nil_append] at hfwd
      rw [rxFed, ← hfwd]
      rfl
    rw [hfed, List.nil_append]
  | cons b bs ih =>
    rw [Decoder.pushAll] at hv
    cases n with
    | zero => simp at hv
    | succ n =>
      obtain ⟨hb, hbs⟩ := List.cons.inj hv
      rw [List.cons_append, rxLoop_pending_all hb hpol]
      exact ih (s := rxTaken b (bs ++ rest) s) hpol rfl hbs

theorem rxValidState_outPayload {s : State} {p : List Byte} (hfits : p.length ≤ s.rx.rxOutBuf.length)
    (hbuf : s.rx.rxOutBuf.length ≤ 255) : (rxValidState p s).rx.outPayload = p := by
  simp only [RxUnit.outPayload, rxValidState, lengthByte_toNat (hfits.trans hbuf), take_writePrefix hfits]

/-- RX_STEP where its loop, from `s`, comes in `u` to a Valid verdict on a payload that fits the buffer, with room in
`RET`. -/
theorem stepReceiver_of_valid {s u : State} {p : List Byte} (hloop : rxLoop s.env.fwd s.rxStarted = rxValid p u)
    (hroom : chanFull u.params.chanDepth u.env.ret = false) (hfits : p.length ≤ u.rx.rxOutBuf.length)
    (hbuf : u.rx.rxOutBuf.length ≤ 255) :
    ∃ t, stepReceiver s = .next t ∧ t.rx.rxReady = true ∧ t.rx.outPayload = p ∧ t.env.fwd = u.env.fwd ∧
      t.env.ret = u.env.ret ++ drawn u.ports.retDraws u.params.cfgRx.ackByte ∧ t.rx.dec.dState = .awaitStart ∧
      t.rx.rxLastErr = u.rx.rxLastErr := by
  have hstep : stepReceiver s = rxReturn (rxValidState p u) := by
    rw [stepReceiver_eq, hloop, rxValid_of_room p hroom, andThen_next]
  exact ⟨_, hstep, rfl, rxValidState_outPayload hfits hbuf, rfl, rfl, rfl, rfl⟩

/-- Noise and the bytes of a frame before END give PENDING verdicts only, and END then a Valid one (R102, R115). -/
theorem Decoder.pushAll_noise_beforeEnd {cfg : UnitConfig} {d : Decoder} {noise p : List Byte} (hmax : cfg.maxLen ≤ 255)
    (hs : d.dState = .awaitStart) (hbuf : d.dBuf.length = cfg.maxLen) (hnoise : cfg.startByte ∉ noise)
    (hle : p.length ≤ cfg.maxLen) :
    (d.pushAll cfg (noise ++ (frameBytes cfg p).dropLast)).2 =
      List.replicate (noise.length + (p.length + 3)) .pending ∧
    ((d.pushAll cfg (noise ++ (frameBytes cfg p).dropLast)).1.push cfg cfg.endByte).2 = .valid p := by
  rw [Decoder.pushAll_append, Decoder.pushAll_noise hs hnoise, frameBytes_dropLast,
    Decoder.pushAll_beforeEnd cfg d p hmax hs hbuf hle, List.replicate_append_replicate,
    Decoder.push_awaitEnd_endByte cfg rfl]
  simp only [Decoder.payload, lengthByte_toNat (hle.trans hmax), List.take_left, and_self]

/-- Under ALL, noise and then a frame in `FWD`: RX_STEP exposes the payload, answers with an ACK and leaves the bytes behind
the frame. -/
theorem stepReceiver_all_delivers {s : State} {p noise rest : List Byte} (hs : s.Inv)
    (hpol : s.params.cfgRx.rxPolicy = .all) (hroom : chanFull s.params.chanDepth s.env.ret = false)
    (hwait : s.rx.dec.dState = .awaitStart) (hnoise : s.params.cfgRx.startByte ∉ noise)
    (hle : p.length ≤ s.params.cfgRx.maxLen) (hfwd : s.env.fwd = noise ++ frameBytes s.params.cfgRx p ++ rest) :
    ∃ t, stepReceiver s = .next t ∧ t.rx.rxReady = true ∧ t.rx.outPayload = p ∧ t.env.fwd = rest ∧
      t.env.ret = s.env.ret ++ drawn s.ports.retDraws s.params.cfgRx.ackByte ∧ t.rx.dec.dState = .awaitStart ∧
      t.rx.rxLastErr = s.rx.rxLastErr := by
  obtain ⟨hwf, -, ⟨⟨hbuf, -⟩, -, hout, -⟩, -⟩ := hs
  have hmax := cfgRx_maxLen_le hwf
  obtain ⟨hpending, hvalid⟩ := Decoder.pushAll_noise_beforeEnd hmax hwait hbuf hnoise hle
  have hbytes : s.env.fwd =
      noise ++ (frameBytes s.params.cfgRx p).dropLast ++ s.params.cfgRx.endByte :: rest := by
    rw [hfwd, frameBytes_dropLast, frameBytes_eq_append_endByte]
    simp only [List.append_assoc, List.cons_append, List.nil_append]
  have hloop : rxLoop s.env.fwd s.rxStarted = rxValid p (rxTaken s.params.cfgRx.endByte rest
      (rxFed (noise ++ (frameBytes s.params.cfgRx p).dropLast) (s.params.cfgRx.endByte :: rest) s.rxStarted)) := by
    rw [hbytes, rxLoop_all_pending (s := s.rxStarted) hpol hbytes hpending, rxLoop_valid hvalid]
  exact stepReceiver_of_valid hloop hroom (hle.trans_eq hout.symm) (hout.trans_le hmax)

/-- Settles O34, by the loop's run over the noise and the frame. -/
theorem receiverDeliversTheFrame : Obligations.ReceiverDeliversTheFrame := by
  unfold Obligations.ReceiverDeliversTheFrame
  intro s p f noise rest hs hpol hdepth hdraws hwait hnoise hf hfwd
  obtain ⟨hle, rfl⟩ := encodeFrame_eq_frame.mp hf
  obtain ⟨t, ht, hready, hpayload, hrest, hret, hstart, hlast⟩ :=
    stepReceiver_all_delivers hs hpol (by rw [hdepth]; rfl) hwait hnoise hle hfwd
  obtain ⟨hwf, -⟩ := hs
  refine ⟨t, (execRxStep_of_wellFormed hwf).trans ht, ?_, hready, hrest, ?_, hstart, hlast⟩
  · rw [stepReceiver_resp ht, RxUnit.result_eq_payload.mpr ⟨hready, hpayload⟩]
  · rw [hret, hdraws, drawn_none]

end Sys2Proof.Machine
end

section
/-! PROOFS. What the commands do to each unit (60_exceptions.md R147): the effect of every command on the transmitter, on the
receiver and on the channels, and the rules of the session that follow from it (44_transmitter.md R129, R131, R140). -/

namespace Sys2Proof.Machine

/-! ## The transmitter unit -/

/-- The states in which TX_STEP is passive (R129). -/
theorem txByState_of_passive {s : State} (hsending : s.tx.tState ≠ .sending) (hwaiting : s.tx.tState ≠ .awaitingAck)
    (now : Nat) : txByState now s = .next s := by
  unfold txByState
  cases hs : s.tx.tState with
  | idle => rfl
  | succeeded => rfl
  | failed => rfl
  | sending => exact absurd hs hsending
  | awaitingAck => exact absurd hs hwaiting

/-- Settles O39, by the rule of the three passive states, which leaves what the tick port has already changed. -/
theorem txStepIsPassiveWithoutASession : Obligations.TxStepIsPassiveWithoutASession := by
  unfold Obligations.TxStepIsPassiveWithoutASession
  refine ⟨rfl, fun s st hwf htick hst => ?_⟩
  have hpassive : s.tx.tState ≠ .sending ∧ s.tx.tState ≠ .awaitingAck ∧ s.tx.tState.status = st := by
    obtain ⟨h, rfl⟩ | ⟨h, rfl⟩ | ⟨h, rfl⟩ := hst <;> simp [h, TxState.status]
  obtain ⟨hsending, hwaiting, rfl⟩ := hpassive
  refine (execTxStep_of_wellFormed hwf htick).trans ?_
  rw [txByState_of_passive (s := s.tickTaken) hsending hwaiting]
  rfl

/-- What a command does to the transmitter unit: nothing, or it is one of the unit's commands, SYS_RESET or SYS_TICK. -/
theorem exec_tx_cases {i : Instr} {s t : State} (h : exec i s = .next t) :
    t.tx = s.tx ∨
    (i = .txRequestSend ∧ t = requestSend s.ports.payload s) ∨
    (i = .txStep ∧ stepTransmitter s.ports.tick s = .next t) ∨
    ((i = .txReset ∨ i = .sysReset) ∧ t.tx.tState = .idle) ∨
    (i = .sysTick ∧ ∃ u, stepTransmitter s.env.now (tickRequest s) = .next u ∧ t.tx = u.tx) := by
  cases i
  case sysTick =>
    obtain ⟨-, u, v, hu, hv, rfl⟩ := execSysTick_next h
    obtain ⟨-, htx, -⟩ := stepReceiver_frame hv
    exact .inr (.inr (.inr (.inr ⟨rfl, u, hu, htx⟩)))
  all_goals obtain ⟨-, h⟩ := whenConfigured_eq_next.mp h
  case rxStep =>
    obtain ⟨-, htx, -⟩ := stepReceiver_frame h
    exact .inl htx
  case txStep => exact .inr (.inr (.inl ⟨rfl, h⟩))
  all_goals cases h
  case txRequestSend => exact .inr (.inl ⟨rfl, rfl⟩)
  case txReset => exact .inr (.inr (.inr (.inl ⟨.inl rfl, rfl⟩)))
  case sysReset => exact .inr (.inr (.inr (.inl ⟨.inr rfl, rfl⟩)))
  -- The remaining commands write registers of the codec or the receiver only.
  all_goals exact .inl rfl

/-- A step of the transmitter from a terminal state keeps the state and the count (R129). -/
theorem stepTransmitter_keepsTerminal {now : Nat} {s t : State} (hs : s.tx.tState = .succeeded ∨ s.tx.tState = .failed)
    (h : stepTransmitter now s = .next t) : t.tx.tState = s.tx.tState ∧ t.tx.tAttempts = s.tx.tAttempts := by
  obtain ⟨-, -, -, -, ⟨hst, -, ha, -⟩ | hactive⟩ := stepTransmitter_session h
  · exact ⟨hst, ha⟩
  · obtain hs | hs := hs <;> simp [hs] at hactive

/-- Settles O47: outside the resets only a step of the transmitter could change the session, and from a terminal state it does
not. -/
theorem terminalSessionNeedsAReset : Obligations.TerminalSessionNeedsAReset := by
  unfold Obligations.TerminalSessionNeedsAReset
  intro i s t hs h htxReset hsysReset
  have hsession : s.tx.tState ≠ .idle := by obtain hs | hs := hs <;> simp [hs]
  obtain htx | ⟨-, rfl⟩ | ⟨-, hstep⟩ | ⟨hreset, -⟩ | ⟨-, u, hu, htx⟩ := exec_tx_cases h
  · rw [htx]
    exact ⟨rfl, rfl⟩
  · rw [requestSend_of_session hsession]
    exact ⟨rfl, rfl⟩
  · exact stepTransmitter_keepsTerminal hs hstep
  · exact absurd hreset (not_or.mpr ⟨htxReset, hsysReset⟩)
  · rw [tickRequest_of_session hsession] at hu
    rw [htx]
    exact stepTransmitter_keepsTerminal hs hu

/-- A send request enters SENDING exactly with the first attempt, and is no other change of the session (R128). -/
theorem requestSend_session (p : List Byte) (s : State) :
    ((requestSend p s).tx.tState = s.tx.tState ∧ (requestSend p s).tx.tAttempts = s.tx.tAttempts) ∨
    (s.tx.tState = .idle ∧ (requestSend p s).tx.tState = .sending ∧
      (requestSend p s).tx.tAttempts = s.tx.tAttempts + 1) := by
  obtain ⟨-, h⟩ | ⟨-, -, h⟩ | ⟨hidle, -, h⟩ := requestSend_cases p s
  · exact .inl (by rw [h]; exact ⟨rfl, rfl⟩)
  · exact .inl (by rw [h]; exact ⟨rfl, rfl⟩)
  · exact .inr ⟨hidle, by rw [h], by rw [h]⟩

/-- Settles O45, by the commands' effect on the session: unchanged, a request, one step of the transmitter, or a reset to
IDLE. -/
theorem attemptsCountEntriesToSending : Obligations.AttemptsCountEntriesToSending := by
  unfold Obligations.AttemptsCountEntriesToSending
  intro i s t hs hi h
  obtain htx | ⟨-, rfl⟩ | ⟨rfl, hstep⟩ | ⟨hreset, hidle⟩ | ⟨htick, -⟩ := exec_tx_cases h
  case inl => simp +contextual [htx]
  case inr.inl =>
    obtain ⟨hst, ha⟩ | ⟨hidle, hst, ha⟩ := requestSend_session s.ports.payload s
    · simp +contextual [hst, ha]
    · simp [hidle, hst, ha]
  case inr.inr.inl =>
    obtain ⟨-, -, -, -, -, -, hsession, -⟩ := hs
    obtain ⟨-, -, -, -, ⟨hst, -, ha, -⟩ | ⟨hs, hst, ha, -⟩ | ⟨hs, hst, ha, -⟩ | ⟨hs, hst, ha, -⟩ |
      ⟨hs, hst, ha, hspent, -⟩⟩ := stepTransmitter_session hstep
    · simp +contextual [hst, ha]
    · simp [hs, hst, ha]
    · simp [hs, hst, ha]
    · simp [hs, hst, ha]
    · have hall := (hsession (by simp [hs])).2.antisymm hspent
      simp [hs, hst, ha, hall]
  case inr.inr.inr.inl => simp [hidle, hreset]
  case inr.inr.inr.inr => exact absurd htick hi

/-- With `RET` empty, the wait for an acknowledgment does not succeed (R127). -/
theorem txAwait_not_succeeded {s : State} (hret : s.env.ret = []) (hs : s.tx.tState ≠ .succeeded) (now : Nat) :
    (txAwait now s).tx.tState ≠ .succeeded := by
  rw [txAwait_of_empty hret]
  split
  · rw [txTimeout_tx]
    split
    · exact nofun
    · exact nofun
  · exact hs

/-- With `RET` empty at its start, a step of the transmitter does not enter SUCCEEDED. -/
theorem stepTransmitter_not_succeeded {now : Nat} {s t : State} (hret : s.env.ret = []) (hs : s.tx.tState ≠ .succeeded)
    (h : stepTransmitter now s = .next t) : t.tx.tState ≠ .succeeded := by
  obtain ⟨-, u, rfl, ⟨-, -, rfl⟩ | ⟨-, -, rfl⟩ | ⟨hwait, rfl⟩⟩ := stepTransmitter_next h
  · exact hs
  · exact nofun
  · exact txAwait_not_succeeded (s := { s with tx := { s.tx with tLastNow := now } }) hret hs now

/-- Settles O55: the transmitter's step comes before the receiver's, and it meets the empty `RET` of the tick's start. -/
theorem acknowledgmentIsSeenOneTickLater : Obligations.AcknowledgmentIsSeenOneTickLater := by
  unfold Obligations.AcknowledgmentIsSeenOneTickLater
  intro s t hret hs h
  obtain ⟨-, u, v, hu, hv, rfl⟩ := execSysTick_next h
  obtain ⟨-, htx, -⟩ := stepReceiver_frame hv
  obtain ⟨-, -, henv, -⟩ := tickRequest_frame s
  have hs' : (tickRequest s).tx.tState ≠ .succeeded := by
    obtain ⟨p, -, hidle, h⟩ | ⟨-, h⟩ := tickRequest_cases s
    · rw [h]
      obtain ⟨hst, -⟩ | ⟨-, hst, -⟩ := requestSend_session p s <;> simp [hst, hidle]
    · rwa [h]
  have hu' := stepTransmitter_not_succeeded (henv ▸ hret) hs' hu
  rwa [← htx] at hu'

/-! ## The receiver unit -/

/-- What a command leaves on the RX port: what stood there with the unit unchanged, nothing, or the result of a step of the
receiver. -/
theorem exec_rx_cases {i : Instr} {s t : State} (h : exec i s = .next t) :
    t.rx = s.rx ∨ t.rx.resp = none ∨ t.rx.resp = some t.rx.result := by
  cases i
  case sysTick =>
    obtain ⟨-, u, v, -, hv, rfl⟩ := execSysTick_next h
    have hresp := stepReceiver_resp hv
    exact .inr (.inr hresp)
  all_goals obtain ⟨-, h⟩ := whenConfigured_eq_next.mp h
  case rxStep => exact .inr (.inr (stepReceiver_resp h))
  case txStep =>
    obtain ⟨-, hrx, -⟩ := stepTransmitter_frame h
    exact .inl hrx
  all_goals cases h
  case txRequestSend =>
    obtain ⟨-, hrx, -⟩ := requestSend_frame s.payloadOperand s
    exact .inl hrx
  case rxReset => exact .inr (.inl rfl)
  case sysReset => exact .inr (.inl rfl)
  -- The remaining commands write registers of the codec or the transmitter only.
  all_goals exact .inl rfl

/-- Settles O51: each reset empties its unit's port; outside the resets the RX port changes only by a step of the receiver,
whose result shows a payload exactly when `rx_ready` is set. -/
theorem resetsLeaveTheModelsOwnFields : Obligations.ResetsLeaveTheModelsOwnFields := by
  unfold Obligations.ResetsLeaveTheModelsOwnFields
  refine ⟨fun i s t h => ⟨?codec, ?rx, ?tx, ?sys⟩, fun s t hs h p hp => ?step⟩
  case codec => rintro (rfl | rfl) <;> obtain ⟨-, h⟩ := whenConfigured_eq_next.mp h <;> cases h <;> rfl
  case rx => rintro (rfl | rfl) <;> obtain ⟨-, h⟩ := whenConfigured_eq_next.mp h <;> cases h <;> rfl
  case tx => rintro (rfl | rfl) <;> obtain ⟨-, h⟩ := whenConfigured_eq_next.mp h <;> cases h <;> rfl
  case sys =>
    rintro rfl
    obtain ⟨-, h⟩ := whenConfigured_eq_next.mp h
    cases h
    exact ⟨rfl, rfl, rfl⟩
  case step =>
    obtain ⟨i, -, hexec⟩ := step_next h
    obtain ⟨-, htake, -⟩ := s.takeIssue_frame
    obtain hrx | hnone | hres := exec_rx_cases hexec
    · rw [hrx, htake] at hp ⊢
      exact hs p hp
    · simp [hnone] at hp
    · rw [hres, Option.some.injEq] at hp
      exact (RxUnit.result_eq_payload.mp hp).1

/-- Settles O56, by the frame of each unit's commands. -/
theorem unitsShareNoRegister : Obligations.UnitsShareNoRegister := by
  unfold Obligations.UnitsShareNoRegister
  refine fun i s t h => ⟨?codec, ?rx, ?tx⟩
  case codec =>
    rintro (rfl | rfl | rfl | ⟨b, rfl⟩ | ⟨b, rfl⟩) <;> obtain ⟨-, h⟩ := whenConfigured_eq_next.mp h <;> cases h <;>
      exact ⟨rfl, rfl, rfl, rfl⟩
  case rx =>
    rintro (rfl | rfl) <;> obtain ⟨-, h⟩ := whenConfigured_eq_next.mp h
    · obtain ⟨hcodec, htx, -⟩ := stepReceiver_frame h
      exact ⟨hcodec, htx⟩
    · cases h
      exact ⟨rfl, rfl⟩
  case tx =>
    rintro (rfl | rfl | rfl) <;> obtain ⟨-, h⟩ := whenConfigured_eq_next.mp h
    · cases h
      obtain ⟨hcodec, hrx, -⟩ := requestSend_frame s.payloadOperand s
      exact ⟨hcodec, hrx⟩
    · obtain ⟨hcodec, hrx, -⟩ := stepTransmitter_frame h
      exact ⟨hcodec, hrx⟩
    · cases h
      exact ⟨rfl, rfl⟩

/-! ## The channels -/

/-- A step of the transmitter appends to `FWD` in SENDING only, at most the outstanding frame, and takes from `RET` in
AWAITING_ACK only, at most its head (R62, R63). -/
theorem stepTransmitter_channels {now : Nat} {s t : State} (h : stepTransmitter now s = .next t) :
    (∃ sent, t.env.fwd = s.env.fwd ++ sent ∧ (sent ≠ [] → s.tx.tState = .sending) ∧
      sent.length ≤ s.tx.wire.length) ∧
    (t.env.ret = s.env.ret ∨ s.tx.tState = .awaitingAck ∧ ∃ b, s.env.ret = b :: t.env.ret) := by
  obtain ⟨-, u, rfl, ⟨-, -, rfl⟩ | ⟨hs, -, rfl⟩ | ⟨hs, rfl⟩⟩ := stepTransmitter_next h
  · exact ⟨⟨[], (List.append_nil _).symm, nofun, Nat.zero_le _⟩, .inl rfl⟩
  · exact ⟨⟨perturb s.ports.fwdDraws s.tx.wire, rfl, fun _ => hs, perturb_length_le _ _⟩, .inl rfl⟩
  · obtain ⟨-, -, -, -, -, hfwd, -⟩ := txAwait_frame now { s with tx := { s.tx with tLastNow := now } }
    refine ⟨⟨[], hfwd.trans (List.append_nil _).symm, nofun, Nat.zero_le _⟩, ?_⟩
    rw [State.respondTx_env]
    obtain ⟨-, -, h⟩ | ⟨-, -, h⟩ | ⟨rest, hret, h⟩ | ⟨b, rest, hret, -, -, h⟩ | ⟨b, rest, hret, -, -, -, h⟩ :=
      txAwait_cases now { s with tx := { s.tx with tLastNow := now } } <;> rw [h]
    · exact .inl rfl
    · exact .inl (by simp [txTimeout_frame])
    · exact .inr ⟨hs, _, hret⟩
    · exact .inr ⟨hs, b, by simpa [txTimeout_frame] using hret⟩
    · exact .inr ⟨hs, b, hret⟩

/-- Only the steps of the transmitter and of the receiver, SYS_TICK and SYS_RESET change a channel. -/
theorem exec_keepsChannels {i : Instr} {s t : State} (h : exec i s = .next t) (htxStep : i ≠ .txStep)
    (hrxStep : i ≠ .rxStep) (hsysTick : i ≠ .sysTick) (hsysReset : i ≠ .sysReset) : t.env = s.env := by
  cases i
  case txStep => exact absurd rfl htxStep
  case rxStep => exact absurd rfl hrxStep
  case sysTick => exact absurd rfl hsysTick
  case sysReset => exact absurd rfl hsysReset
  all_goals
    obtain ⟨-, h⟩ := whenConfigured_eq_next.mp h
    cases h
  case txRequestSend =>
    obtain ⟨-, -, henv, -⟩ := requestSend_frame s.payloadOperand s
    exact henv
  -- The remaining commands write registers of one unit only.
  all_goals rfl

/-- Settles O58, by what the two steps do to the channels and by the frame of the other commands. -/
theorem channelsHaveOneWriterAndOneReader : Obligations.ChannelsHaveOneWriterAndOneReader := by
  unfold Obligations.ChannelsHaveOneWriterAndOneReader
  intro i s t h hsysTick hsysReset
  refine ⟨fun htxStep hrxStep => ?others, ?txStep, ?rxStep⟩
  case others =>
    have henv := exec_keepsChannels h htxStep hrxStep hsysTick hsysReset
    rw [henv]
    exact ⟨rfl, rfl⟩
  case txStep =>
    rintro rfl
    obtain ⟨-, h⟩ := whenConfigured_eq_next.mp h
    obtain ⟨⟨sent, hfwd, hsending, -⟩, hret⟩ := stepTransmitter_channels h
    exact ⟨⟨sent, hfwd, hsending⟩, hret⟩
  case rxStep =>
    rintro rfl
    obtain ⟨-, h⟩ := whenConfigured_eq_next.mp h
    exact stepReceiver_movesChannels h

/-! ## SYS_TICK completes (R136) -/

/-- The outstanding frame of a good transmitter is no longer than its buffer. -/
theorem State.Inv.wire_length_le {s : State} (hs : s.Inv) : s.tx.wire.length ≤ s.params.cfgTx.maxLen + 4 := by
  obtain ⟨-, -, -, -, hlen, -⟩ := hs
  exact s.tx.wire_length_le.trans (Nat.add_le_add_right hlen 4)

/-- The steps (b) and (c) of SYS_TICK complete: the transmitter's step has room for the frame and a deadline that fits, and
`RET` then has room for one byte per byte of `FWD`. -/
theorem tickSteps_complete {s : State} (hs : s.Inv) (hnow : s.tx.tLastNow ≤ s.env.now)
    (hfits : tickFits s.params.cfgTx.tickBits (s.env.now + s.params.cfgTx.timeoutTicks) = true)
    (hroom : ∀ n, s.params.chanDepth = some n →
      s.env.ret.length + s.env.fwd.length + s.params.cfgTx.maxLen + 4 ≤ n) :
    ∃ u v, stepTransmitter s.env.now (tickRequest s) = .next u ∧ stepReceiver u = .next v := by
  obtain ⟨-, -, henv, hparams, -, -, hlast, -⟩ := tickRequest_frame s
  have hwire : (tickRequest s).tx.wire.length ≤ s.params.cfgTx.maxLen + 4 :=
    hparams ▸ (tickRequest_inv hs).wire_length_le
  obtain ⟨u, hu⟩ : ∃ u, stepTransmitter s.env.now (tickRequest s) = .next u := by
    refine stepTransmitter_completes (hlast ▸ hnow) (hparams ▸ hfits) fun n hn => ?_
    have := hroom n (hparams ▸ hn)
    rw [henv]
    omega
  obtain ⟨⟨sent, hfwd, -, hsent⟩, hret⟩ := stepTransmitter_channels hu
  have hretLen : u.env.ret.length ≤ s.env.ret.length := by
    obtain hret | ⟨-, b, hret⟩ := hret <;> rw [← henv, hret]
    exact Nat.le_succ _
  obtain ⟨v, hv⟩ : ∃ v, stepReceiver u = .next v := by
    refine stepReceiver_completes fun n hn => ?_
    obtain ⟨-, -, hparams', -⟩ := stepTransmitter_frame hu
    have := hroom n (by rw [← hparams, ← hparams', hn])
    rw [hfwd, henv, List.length_append]
    omega
  exact ⟨u, v, hu, hv⟩

/-- What SYS_TICK leaves outside the receiver, the session and the channels (R136). -/
theorem execSysTick_frame {s t : State} (h : execSysTick s = .next t) :
    t.env.now = s.env.now + 1 ∧ t.tx.tLastNow = s.env.now ∧ t.codec = s.codec ∧ t.params = s.params ∧ t.bus = s.bus ∧
    t.ports.payload = s.ports.payload ∧ t.ports.tick = s.ports.tick ∧ t.ports.req = s.ports.req ∧
    t.env.delivered = s.env.delivered ++ (if t.rx.rxReady then [t.rx.outPayload] else []) := by
  obtain ⟨-, u, v, hu, hv, rfl⟩ := execSysTick_next h
  obtain ⟨hcodec₁, -, henv₁, hparams₁, hports₁, hbus₁, -⟩ := tickRequest_frame s
  obtain ⟨hcodec₂, -, hparams₂, hbus₂, hnow₂, hdelivered₂, hpayload₂, htick₂, hreq₂, -⟩ := stepTransmitter_frame hu
  obtain ⟨hcodec₃, htx₃, hparams₃, hbus₃, hnow₃, hdelivered₃, hpayload₃, htick₃, hreq₃, -⟩ := stepReceiver_frame hv
  obtain ⟨-, -, -, hlast₂, -⟩ := stepTransmitter_session hu
  simp only [hnow₃, hnow₂, htx₃, hlast₂, hcodec₃, hcodec₂, hcodec₁, hparams₃, hparams₂, hparams₁, hbus₃, hbus₂, hbus₁,
    hpayload₃, hpayload₂, htick₃, htick₂, hreq₃, hreq₂, hports₁, hdelivered₃, hdelivered₂, henv₁, RxUnit.outPayload,
    and_self]

/-- Settles O54, by the completion of its two steps and by its frame; it delivers a payload where `rx_ready` is set. -/
theorem sysTickCompletes : Obligations.SysTickCompletes := by
  unfold Obligations.SysTickCompletes
  intro s hs hnow hfits hroom
  obtain ⟨u, v, hu, hv⟩ := tickSteps_complete hs hnow hfits hroom
  obtain ⟨hwf, -⟩ := hs
  have htick : execSysTick s = .next (tickEnd v) := by
    rw [execSysTick_of_wellFormed hwf, hu, andThen_next, hv, andThen_next]
  obtain ⟨hnow', hlast, hcodec, hparams, hbus, hpayload, htickPort, hreq, hdelivered⟩ := execSysTick_frame htick
  refine ⟨_, htick, hnow', hlast, hcodec, hparams, hbus, hpayload, htickPort, hreq, _, hdelivered, ?_⟩
  split
  · exact Nat.le_refl 1
  · exact Nat.zero_le 1

end Sys2Proof.Machine
end

section
/-! PROOFS. What a unit's command does depends on no other unit and on no other unit's configuration (60_exceptions.md R147):
from states that agree on what the unit reads, its commands stop alike or answer states that agree on it again. -/

namespace Sys2Proof.Machine

/-! ## Outcomes that agree -/

/-- Two outcomes stop alike, or answer states in the relation `R`. -/
inductive OutcomesAgree (R : State → State → Prop) : StepOutcome → StepOutcome → Prop
  | next {s s' : State} (h : R s s') : OutcomesAgree R (.next s) (.next s')
  | fault (f : Fault) : OutcomesAgree R (.fault f) (.fault f)
  | refused (r : Refusal) : OutcomesAgree R (.refused r) (.refused r)

theorem OutcomesAgree.andThen {R Q : State → State → Prop} {o o' : StepOutcome} {k k' : State → StepOutcome}
    (h : OutcomesAgree R o o') (hk : ∀ s s', R s s' → OutcomesAgree Q (k s) (k' s')) :
    OutcomesAgree Q (andThen o k) (andThen o' k') := by
  cases h with
  | next h => exact hk _ _ h
  | fault f => exact .fault f
  | refused r => exact .refused r

/-- What the outcomes show of an agreement. -/
theorem OutcomesAgree.shown {R : State → State → Prop} {o o' : StepOutcome} (h : OutcomesAgree R o o') :
    refusal? o = refusal? o' ∧ fault? o = fault? o' ∧ ∀ t t', o = .next t → o' = .next t' → R t t' := by
  cases h with
  | next h =>
    refine ⟨rfl, rfl, fun t t' ht ht' => ?_⟩
    cases ht
    cases ht'
    exact h
  | fault f => exact ⟨rfl, rfl, fun _ _ ht => by cases ht⟩
  | refused r => exact ⟨rfl, rfl, fun _ _ ht => by cases ht⟩

theorem OutcomesAgree.imp {R Q : State → State → Prop} {o o' : StepOutcome} (h : OutcomesAgree R o o')
    (hRQ : ∀ s s', R s s' → Q s s') : OutcomesAgree Q o o' := by
  cases h with
  | next h => exact .next (hRQ _ _ h)
  | fault f => exact .fault f
  | refused r => exact .refused r

/-! ## The codec -/

/-- The states agree on the codec unit. -/
def CodecAgree (s s' : State) : Prop := s.codec = s'.codec

theorem exec_codecAgree {i : Instr} {s s' : State} (hwf : s.params.wellFormed = true) (hwf' : s'.params.wellFormed = true)
    (hi : i = .encode ∨ i = .decReset ∨ i = .csumClear ∨ (∃ b, i = .csumAcc b) ∨ ∃ b, i = .decPush b)
    (hcodec : s.codec = s'.codec) (hcfg : s.params.cfgCodec = s'.params.cfgCodec)
    (hpayload : s.ports.payload = s'.ports.payload) : OutcomesAgree CodecAgree (exec i s) (exec i s') := by
  obtain rfl | rfl | rfl | ⟨b, rfl⟩ | ⟨b, rfl⟩ := hi
  · rw [exec, exec, execEncode_of_wellFormed hwf, execEncode_of_wellFormed hwf', hcodec, hcfg, hpayload]
    exact .next rfl
  · rw [exec, exec, execDecReset_of_wellFormed hwf, execDecReset_of_wellFormed hwf', hcodec]
    exact .next rfl
  · rw [exec, exec, execCsumClear_of_wellFormed hwf, execCsumClear_of_wellFormed hwf', hcodec]
    exact .next rfl
  · rw [exec, exec, execCsumAcc_of_wellFormed hwf, execCsumAcc_of_wellFormed hwf', hcodec]
    exact .next rfl
  · rw [exec, exec, execDecPush_of_wellFormed hwf, execDecPush_of_wellFormed hwf', hcodec, hcfg]
    exact .next rfl

/-! ## The receiver -/

/-- The states agree on what RX_STEP and RX_RESET read. -/
def RxAgree (s s' : State) : Prop :=
  s.rx = s'.rx ∧ s.params.cfgRx = s'.params.cfgRx ∧ s.params.chanDepth = s'.params.chanDepth ∧
  s.env.fwd = s'.env.fwd ∧ s.env.ret = s'.env.ret ∧ s.ports.retDraws = s'.ports.retDraws

/-- The same write to the receiver unit keeps the agreement. -/
theorem RxAgree.setRx {s s' : State} (h : RxAgree s s') {r r' : RxUnit} (hr : r = r') :
    RxAgree (s.setRx r) (s'.setRx r') := by
  obtain ⟨-, hother⟩ := h
  exact ⟨hr, hother⟩

theorem RxAgree.pushRet {s s' : State} (h : RxAgree s s') {b b' : Byte} (hb : b = b') :
    OutcomesAgree RxAgree (s.pushRet b) (s'.pushRet b') := by
  obtain ⟨hrx, hcfg, hdepth, hfwd, hret, hdraws⟩ := h
  unfold State.pushRet
  rw [hdepth, hret, hdraws, hb]
  split
  · exact .fault _
  · exact .next ⟨hrx, hcfg, hdepth, hfwd, rfl, rfl⟩

/-- The decoder's resynchronisation, with which the handling of a verdict ends, keeps the agreement. -/
theorem RxAgree.resync {s s' : State} (h : RxAgree s s') :
    OutcomesAgree RxAgree (.next (s.setRx { s.rx with dec := s.rx.dec.reset }))
      (.next (s'.setRx { s'.rx with dec := s'.rx.dec.reset })) := by
  obtain ⟨hrx, hother⟩ := h
  exact .next ⟨by simp only [State.setRx_rx, hrx], hother⟩

theorem RxAgree.rxValid {s s' : State} (h : RxAgree s s') (p : List Byte) :
    OutcomesAgree RxAgree (rxValid p s) (rxValid p s') := by
  have ⟨hrx, hcfg, _⟩ := h
  have hlatched : RxAgree
      (s.setRx { s.rx with rxOutBuf := writePrefix s.rx.rxOutBuf p, rxOutLen := lengthByte p.length, rxReady := true })
      (s'.setRx { s'.rx with rxOutBuf := writePrefix s'.rx.rxOutBuf p, rxOutLen := lengthByte p.length, rxReady := true }) :=
    h.setRx (by rw [hrx])
  exact (hlatched.pushRet (congrArg UnitConfig.ackByte hcfg)).andThen fun _ _ ht => ht.resync

theorem RxAgree.rxInvalid {s s' : State} (h : RxAgree s s') (e : Reason) :
    OutcomesAgree RxAgree (rxInvalid e s) (rxInvalid e s') := by
  have ⟨hrx, hcfg, _⟩ := h
  have hrecorded : RxAgree (s.setRx { s.rx with rxLastErr := e }) (s'.setRx { s'.rx with rxLastErr := e }) :=
    h.setRx (by rw [hrx])
  refine OutcomesAgree.andThen (R := RxAgree) ?_ fun _ _ ht => ht.resync
  rw [State.setRx_params, State.setRx_params, hcfg]
  split
  · exact hrecorded.pushRet rfl
  · exact .next hrecorded

theorem RxAgree.rxTaken {s s' : State} (h : RxAgree s s') (b : Byte) (rest : List Byte) :
    RxAgree (rxTaken b rest s) (rxTaken b rest s') := by
  obtain ⟨hrx, hcfg, hdepth, -, hret, hdraws⟩ := h
  exact ⟨by simp only [Machine.rxTaken, hrx, hcfg], hcfg, hdepth, rfl, hret, hdraws⟩

theorem RxAgree.rxLoop {s s' : State} (h : RxAgree s s') (bs : List Byte) :
    OutcomesAgree RxAgree (rxLoop bs s) (rxLoop bs s') := by
  induction bs generalizing s s' with
  | nil => exact .next h
  | cons b rest ih =>
    have ⟨hrx, hcfg, _⟩ := h
    have htaken := h.rxTaken b rest
    rw [rxLoop_cons, rxLoop_cons, hrx, hcfg]
    cases (s'.rx.dec.push s'.params.cfgRx b).2 <;> cases s'.params.cfgRx.rxPolicy
    case pending.one => exact .next htaken
    case pending.all => exact ih htaken
    case valid.one p => exact htaken.rxValid p
    case valid.all p => exact htaken.rxValid p
    case invalid.one e => exact htaken.rxInvalid e
    case invalid.all e => exact (htaken.rxInvalid e).andThen fun _ _ ht => ih ht

theorem RxAgree.stepReceiver {s s' : State} (h : RxAgree s s') :
    OutcomesAgree RxAgree (stepReceiver s) (stepReceiver s') := by
  have ⟨hrx, _, _, hfwd, _⟩ := h
  have hstarted : RxAgree s.rxStarted s'.rxStarted := h.setRx (by rw [hrx])
  rw [stepReceiver_eq, stepReceiver_eq, hfwd]
  refine (hstarted.rxLoop s'.env.fwd).andThen fun t t' ht => .next (ht.setRx ?_)
  obtain ⟨hrx', -⟩ := ht
  rw [hrx']

theorem exec_rxAgree {i : Instr} {s s' : State} (hwf : s.params.wellFormed = true) (hwf' : s'.params.wellFormed = true)
    (hi : i = .rxStep ∨ i = .rxReset) (h : RxAgree s s') : OutcomesAgree RxAgree (exec i s) (exec i s') := by
  obtain rfl | rfl := hi
  · rw [exec, exec, execRxStep_of_wellFormed hwf, execRxStep_of_wellFormed hwf']
    exact h.stepReceiver
  · obtain ⟨hrx, hother⟩ := h
    rw [exec, exec, execRxReset_of_wellFormed hwf, execRxReset_of_wellFormed hwf', hrx]
    exact .next ⟨rfl, hother⟩

/-! ## The transmitter -/

/-- The states agree on what the transmitter's commands read. -/
def TxAgree (s s' : State) : Prop :=
  s.tx = s'.tx ∧ s.params.cfgTx = s'.params.cfgTx ∧ s.params.chanDepth = s'.params.chanDepth ∧
  s.env.fwd = s'.env.fwd ∧ s.env.ret = s'.env.ret ∧ s.ports.fwdDraws = s'.ports.fwdDraws

/-- The same write to the transmitter unit keeps the agreement. -/
theorem TxAgree.setTx {s s' : State} (h : TxAgree s s') {t t' : TxUnit} (ht : t = t') :
    TxAgree (s.setTx t) (s'.setTx t') := by
  obtain ⟨-, hother⟩ := h
  exact ⟨ht, hother⟩

/-- The same contents of `RET` keep the agreement. -/
theorem TxAgree.setRet {s s' : State} (h : TxAgree s s') (q : List Byte) : TxAgree (s.setRet q) (s'.setRet q) := by
  obtain ⟨htx, hcfg, hdepth, hfwd, -, hdraws⟩ := h
  exact ⟨htx, hcfg, hdepth, hfwd, rfl, hdraws⟩

theorem TxAgree.pushFwd {s s' : State} (h : TxAgree s s') (b : Byte) :
    OutcomesAgree TxAgree (s.pushFwd b) (s'.pushFwd b) := by
  obtain ⟨htx, hcfg, hdepth, hfwd, hret, hdraws⟩ := h
  unfold State.pushFwd
  rw [hdepth, hfwd, hdraws]
  split
  · exact .fault _
  · exact .next ⟨htx, hcfg, hdepth, rfl, hret, rfl⟩

theorem TxAgree.pushFwdAll {s s' : State} (h : TxAgree s s') (bs : List Byte) :
    OutcomesAgree TxAgree (s.pushFwdAll bs) (s'.pushFwdAll bs) := by
  induction bs generalizing s s' with
  | nil => exact .next h
  | cons b bs ih => exact (h.pushFwd b).andThen fun _ _ ht => ih ht

theorem TxAgree.txTransmit {s s' : State} (h : TxAgree s s') (now : Nat) :
    OutcomesAgree TxAgree (txTransmit now s) (txTransmit now s') := by
  have ⟨htx, _⟩ := h
  have hsent := h.pushFwdAll s'.tx.wire
  rw [Machine.txTransmit, Machine.txTransmit, htx]
  refine hsent.andThen fun t t' ht => ?_
  have ⟨htx', hcfg', _⟩ := ht
  dsimp only
  rw [hcfg']
  split
  · exact .next (ht.setTx (by rw [htx']))
  · exact .refused _

theorem TxAgree.txTimeout {s s' : State} (h : TxAgree s s') : TxAgree (txTimeout s) (txTimeout s') := by
  have ⟨htx, hcfg, _⟩ := h
  unfold Machine.txTimeout
  rw [htx, hcfg]
  split
  · exact h.setTx rfl
  · exact h.setTx rfl

theorem TxAgree.txAwait {s s' : State} (h : TxAgree s s') (now : Nat) : TxAgree (txAwait now s) (txAwait now s') := by
  have ⟨htx, hcfg, _, _, hret, _⟩ := h
  cases hr : s'.env.ret with
  | nil =>
    rw [txAwait_of_empty (hret.trans hr), txAwait_of_empty hr, htx]
    split
    · exact h.txTimeout
    · exact h
  | cons b rest =>
    rw [txAwait_of_byte (hret.trans hr), txAwait_of_byte hr, htx, hcfg]
    split
    · exact (h.setRet rest).setTx rfl
    · split
      · exact (h.setRet rest).txTimeout
      · exact h.setRet rest

theorem TxAgree.txByState {s s' : State} (h : TxAgree s s') (now : Nat) :
    OutcomesAgree TxAgree (txByState now s) (txByState now s') := by
  have ⟨htx, _⟩ := h
  unfold Machine.txByState
  rw [htx]
  cases s'.tx.tState with
  | sending => exact h.txTransmit now
  | awaitingAck => exact .next (h.txAwait now)
  | idle => exact .next h
  | succeeded => exact .next h
  | failed => exact .next h

theorem TxAgree.stepTransmitter {s s' : State} (h : TxAgree s s') (now : Nat) :
    OutcomesAgree TxAgree (stepTransmitter now s) (stepTransmitter now s') := by
  have ⟨htx, _⟩ := h
  unfold Machine.stepTransmitter
  rw [htx]
  split
  · exact .refused _
  · refine ((h.setTx rfl).txByState now).andThen fun t t' ht => .next (ht.setTx ?_)
    obtain ⟨htx', -⟩ := ht
    rw [htx']

theorem TxAgree.requestSend {s s' : State} (h : TxAgree s s') (p : List Byte) :
    TxAgree (requestSend p s) (requestSend p s') := by
  have ⟨htx, hcfg, _⟩ := h
  by_cases hs : s'.tx.tState = .idle
  · obtain hgt | hle := Nat.lt_or_ge s'.params.cfgTx.maxLen p.length
    · rw [requestSend_of_gt (htx ▸ hs) (hcfg ▸ hgt), requestSend_of_gt hs hgt, htx]
      exact h.setTx rfl
    · rw [requestSend_of_le (htx ▸ hs) (hcfg ▸ hle), requestSend_of_le hs hle, htx, hcfg]
      exact h.setTx rfl
  · rw [requestSend_of_session (htx ▸ hs), requestSend_of_session hs, htx]
    exact h.setTx rfl

theorem exec_txAgree {i : Instr} {s s' : State} (hwf : s.params.wellFormed = true) (hwf' : s'.params.wellFormed = true)
    (hi : i = .txRequestSend ∨ i = .txStep ∨ i = .txReset) (h : TxAgree s s')
    (hpayload : s.ports.payload = s'.ports.payload) (htick : s.ports.tick = s'.ports.tick) :
    OutcomesAgree TxAgree (exec i s) (exec i s') := by
  obtain rfl | rfl | rfl := hi
  · rw [exec, exec, execTxRequestSend_of_wellFormed hwf, execTxRequestSend_of_wellFormed hwf', hpayload]
    exact .next (h.requestSend _)
  · rw [exec, exec, execTxStep_eq_stepTransmitter hwf, execTxStep_eq_stepTransmitter hwf', htick]
    exact h.stepTransmitter _
  · obtain ⟨htx, hother⟩ := h
    rw [exec, exec, execTxReset_of_wellFormed hwf, execTxReset_of_wellFormed hwf', htx]
    exact .next ⟨rfl, hother⟩

/-- Settles O57, by the agreement of the outcomes, unit by unit. -/
theorem unitsLearnNothingOfEachOther : Obligations.UnitsLearnNothingOfEachOther := by
  unfold Obligations.UnitsLearnNothingOfEachOther
  refine fun i s s' hwf hwf' => ⟨fun hi hcodec hcfg hpayload => ?codec,
    fun hi hrx hcfg hdepth hfwd hret hdraws => ?rx,
    fun hi htx hcfg hdepth hfwd hret hdraws hpayload htick => ?tx⟩
  case codec => exact (exec_codecAgree hwf hwf' hi hcodec hcfg hpayload).shown
  case rx =>
    have hagree := exec_rxAgree hwf hwf' hi ⟨hrx, hcfg, hdepth, hfwd, hret, hdraws⟩
    exact (hagree.imp fun t t' ⟨hrx, _, _, hfwd, hret, _⟩ => ⟨hrx, hfwd, hret⟩).shown
  case tx =>
    have hagree := exec_txAgree hwf hwf' hi ⟨htx, hcfg, hdepth, hfwd, hret, hdraws⟩ hpayload htick
    exact (hagree.imp fun t t' ⟨htx, _, _, hfwd, hret, _⟩ => ⟨htx, hfwd, hret⟩).shown

end Sys2Proof.Machine
end

section
/-! PROOFS. Runs of harness ticks (45_system.md): what a list of ticks on the bus makes of a class of states, composed tick by
tick; and the first tick of a session, whose request is made before its step of the transmitter. -/

namespace Sys2Proof.Machine

/-! ## Runs -/

/-- `n` steps in sequence: `Host.Core.run` of this machine, at the machine's own types. -/
def runSteps : Nat → State → StepOutcome
  | 0, s => .next s
  | n + 1, s => andThen (step s) (runSteps n)

theorem core_run_eq_runSteps (n : Nat) (s : State) : Sys2Proof.core.run n s = runSteps n s := by
  induction n generalizing s with
  | zero => rfl
  | succ n ih =>
    have hstep : Sys2Proof.core.step s = step s := rfl
    simp only [Host.Core.run, runSteps]
    rw [hstep]
    cases step s with
    | next t => exact ih t
    | fault f => rfl
    | refused r => rfl

theorem runSteps_add (m n : Nat) (s : State) : runSteps (m + n) s = andThen (runSteps m s) (runSteps n) := by
  induction m generalizing s with
  | zero => rw [Nat.zero_add]; rfl
  | succ m ih =>
    rw [Nat.add_right_comm, runSteps, runSteps, andThen_assoc]
    exact andThen_congr fun t _ => ih t

/-- An issue without the request on its ports. A session takes no request, so there its ticks are the same without. -/
def Issue.noRequest (i : Issue) : Issue := { i with ports := { i.ports with req := none } }

/-- With `ticks` next on the bus, whatever requests stand on their ports, every state of `P` runs to one of `Q`. -/
def Reaches (ticks : List Issue) (P Q : State → Prop) : Prop :=
  ∀ (s : State) (is rest : List Issue), P s → s.bus = is ++ rest → is.map Issue.noRequest = ticks →
    ∃ t, runSteps ticks.length s = .next t ∧ t.bus = rest ∧ Q t

theorem Reaches.nil {P Q : State → Prop} (h : ∀ s, P s → Q s) : Reaches [] P Q := by
  intro s is rest hs hbus his
  obtain rfl := List.map_eq_nil_iff.mp his
  exact ⟨s, rfl, hbus, h s hs⟩

theorem Reaches.append {as bs : List Issue} {P Q R : State → Prop} (ha : Reaches as P Q) (hb : Reaches bs Q R) :
    Reaches (as ++ bs) P R := by
  intro s is rest hs hbus his
  obtain ⟨js, ks, rfl, hjs, hks⟩ := List.map_eq_append_iff.mp his
  obtain ⟨t, ht, htbus, htQ⟩ := ha s js (ks ++ rest) hs (by rw [hbus, List.append_assoc]) hjs
  obtain ⟨u, hu, hubus, huR⟩ := hb t ks rest htQ htbus hks
  refine ⟨u, ?_, hubus, huR⟩
  rw [List.length_append]
  exact (runSteps_add _ _ s).trans (andThen_eq_next.mpr ⟨t, ht, hu⟩)

/-- A run over the first ticks of those on the bus. -/
theorem Reaches.run {as bs : List Issue} {P Q : State → Prop} (h : Reaches as P Q) {s : State} (hs : P s)
    (hbus : s.bus.map Issue.noRequest = as ++ bs) : ∃ t, runSteps as.length s = .next t ∧ Q t := by
  obtain ⟨js, ks, hsplit, hjs, -⟩ := List.map_eq_append_iff.mp hbus
  obtain ⟨t, ht, -, hQ⟩ := h s js ks hs hsplit hjs
  exact ⟨t, ht, hQ⟩

/-- The state in which the command of issue `i` runs, with `rest` left on the bus. -/
def State.issued (s : State) (i : Issue) (rest : List Issue) : State := { s with bus := rest, ports := i.ports }

theorem step_of_tick {s : State} {i : Issue} {rest : List Issue} (hbus : s.bus = i :: rest) (hword : i.word = 0xC000) :
    step s = execSysTick (s.issued i rest) := by
  have hdec : decode s.fetchWord = .command .sysTick := by
    rw [State.fetchWord_cons hbus, hword]
    exact decode_encode .sysTick
  rw [step_of_command hdec, State.takeIssue_cons hbus]
  rfl

/-- One tick with given draws, from a class of states that neither the bus nor the ports tell apart. -/
theorem Reaches.tick {f r : List Draw} {P Q : State → Prop} (hP : ∀ s i rest, P s → P (State.issued s i rest))
    (h : ∀ s, P s → s.ports.fwdDraws = f → s.ports.retDraws = r → ∃ t, execSysTick s = .next t ∧ Q t) :
    Reaches [tickIssue none f r] P Q := by
  intro s is rest hs hbus his
  obtain ⟨i, rfl, hi⟩ := List.map_eq_singleton_iff.mp his
  obtain ⟨hword, hports⟩ := Issue.mk.inj hi
  obtain ⟨t, ht, hQ⟩ := h (s.issued i rest) (hP s i rest hs) (congrArg Ports.fwdDraws hports)
    (congrArg Ports.retDraws hports)
  have hstep : step s = .next t := (step_of_tick (rest := rest) hbus hword).trans ht
  obtain ⟨-, -, -, -, htbus, -⟩ := execSysTick_frame ht
  refine ⟨t, ?_, htbus, hQ⟩
  rw [List.length_singleton, runSteps, hstep]
  rfl

/-! ## The first tick of a session -/

/-- A tick in IDLE whose request is acceptable is a tick from the state that the request leaves: there the session takes no
request again. -/
theorem step_of_requestTick {s : State} {i : Issue} {rest : List Issue} {p : List Byte} (hwf : s.params.wellFormed = true)
    (hbus : s.bus = i :: rest) (hword : i.word = 0xC000) (hreq : i.ports.req = some p) (hs : s.tx.tState = .idle)
    (hle : p.length ≤ s.params.cfgTx.maxLen) : step s = step (requestSend p s) := by
  have hstart := requestSend_of_le hs hle
  have hmade : tickRequest (s.issued i rest) = requestSend p (s.issued i rest) :=
    tickRequest_eq_of_cases (fun q hq _ => by rw [Option.some.inj (hreq.symm.trans hq)])
      (fun h => absurd h (not_or.mpr ⟨by rw [State.issued, hreq]; exact nofun, not_not.mpr hs⟩))
  have hcommutes : (requestSend p s).issued i rest = requestSend p (s.issued i rest) := by
    rw [hstart, requestSend_of_le (s := s.issued i rest) hs hle]
    rfl
  have hnone : tickRequest ((requestSend p s).issued i rest) = (requestSend p s).issued i rest :=
    tickRequest_of_session (by rw [hstart]; exact nofun)
  have hbus' : (requestSend p s).bus = i :: rest := by rw [hstart]; exact hbus
  have hwf' : ((requestSend p s).issued i rest).params.wellFormed = true := by rw [hstart]; exact hwf
  rw [step_of_tick hbus hword, step_of_tick hbus' hword, execSysTick_of_wellFormed (s := s.issued i rest) hwf, hmade,
    execSysTick_of_wellFormed hwf', hnone, hcommutes]
  obtain ⟨-, -, henv, -⟩ := requestSend_frame p (s.issued i rest)
  rw [henv]

/-- A run whose first tick makes an acceptable request is a run from the state that the request leaves. -/
theorem core_run_of_requestTick {s : State} {i : Issue} {rest : List Issue} {p : List Byte}
    (hwf : s.params.wellFormed = true) (hbus : s.bus = i :: rest) (hword : i.word = 0xC000)
    (hreq : i.ports.req = some p) (hs : s.tx.tState = .idle) (hle : p.length ≤ s.params.cfgTx.maxLen) {n : Nat}
    (hn : 0 < n) : Sys2Proof.core.run n s = runSteps n (requestSend p s) := by
  obtain ⟨m, rfl⟩ := Nat.exists_eq_add_one.mpr hn
  rw [core_run_eq_runSteps, runSteps, runSteps, step_of_requestTick hwf hbus hword hreq hs hle]

end Sys2Proof.Machine
end

section
/-! PROOFS. A session under the harness whose acknowledgments are all lost (44_transmitter.md R132): one step of the
transmitter while `RET` is empty, the ticks of one attempt, and all attempts. -/

namespace Sys2Proof.Machine

/-! ## The transmitter's unit in a session -/

/-- SENDING for attempt `a` with the frame `w`. -/
def TxUnit.Sending (a : Nat) (w : List Byte) (t : TxUnit) : Prop :=
  t.tState = .sending ∧ t.tAttempts = a ∧ t.wire = w

/-- AWAITING_ACK after attempt `a` with the frame `w`, until the deadline `d`. -/
def TxUnit.Waiting (a d : Nat) (w : List Byte) (t : TxUnit) : Prop :=
  t.tState = .awaitingAck ∧ t.tAttempts = a ∧ t.tDeadline = d ∧ t.wire = w

/-- FAILED after `a` attempts. -/
def TxUnit.Failed (a : Nat) (t : TxUnit) : Prop := t.tState = .failed ∧ t.tAttempts = a

/-- What R132 and R133 assume of the parameters: unbounded channels and ticks, and no NACK. -/
def HarnessParams (P : Params) : Prop :=
  P.wellFormed = true ∧ P.chanDepth = none ∧ P.cfgTx.tickBits = .unbounded ∧ P.cfgRx.nackEnable = false

/-- With `RET` empty, a step of the transmitter at tick `now` takes a session from `φ` to `ψ` and pushes the bytes `w`. -/
def TxMoves (P : Params) (now : Nat) (φ : TxUnit → Prop) (w : List Byte) (ψ : TxUnit → Prop) : Prop :=
  ∀ s : State, s.params = P → s.tx.tLastNow ≤ now → s.env.ret = [] → φ s.tx →
    s.tx.tState ≠ .idle ∧ ∃ u, stepTransmitter now s = .next u ∧ ψ u.tx ∧
      u.env.fwd = s.env.fwd ++ perturb s.ports.fwdDraws w ∧ u.env.ret = []

section
variable {P : Params} {now a d : Nat} {w : List Byte}

/-- A transmission (R126). -/
theorem txMoves_transmits (hP : HarnessParams P) :
    TxMoves P now (TxUnit.Sending a w) w (TxUnit.Waiting a (now + P.cfgTx.timeoutTicks) w) := by
  rintro s rfl hlast hret ⟨hs, ha, hw⟩
  obtain ⟨-, hdepth, hbits, -⟩ := hP
  obtain ⟨u, hu⟩ := stepTransmitter_completes hlast (by rw [hbits]; rfl) (fun n hn => by simp [hdepth] at hn)
  refine ⟨by rw [hs]; exact nofun, u, hu, ?_⟩
  obtain ⟨-, v, rfl, ⟨hsending, -⟩ | ⟨-, -, rfl⟩ | ⟨hwait, -⟩⟩ := stepTransmitter_next hu
  · exact absurd hs hsending
  · exact ⟨⟨rfl, ha, rfl, hw⟩, hw ▸ rfl, hret⟩
  · simp [hs] at hwait

/-- The state in which the rule of `t_state` runs at tick `now` (R129). -/
def State.atTick (now : Nat) (s : State) : State := s.setTx { s.tx with tLastNow := now }

/-- A step in AWAITING_ACK is the wait's rule, with the status that it leaves (R127). -/
theorem stepTransmitter_of_waiting {s t : State} (hlast : s.tx.tLastNow ≤ now) (hs : s.tx.tState = .awaitingAck)
    (h : txAwait now (s.atTick now) = t) :
    stepTransmitter now s = .next (t.respondTx (some (.status t.tx.tState.status))) := by
  have hrule : txByState now (s.atTick now) = .next t := by rw [txByState_of_awaitingAck (s := s.atTick now) hs, h]
  refine (if_neg hlast.not_gt).trans ?_
  change andThen (txByState now (s.atTick now)) _ = _
  rw [hrule, andThen_next]

/-- Before the deadline (R127). -/
theorem txMoves_waits (hd : now < d) : TxMoves P now (TxUnit.Waiting a d w) [] (TxUnit.Waiting a d w) := by
  rintro s rfl hlast hret ⟨hs, ha, rfl, hw⟩
  have hstay : txAwait now (s.atTick now) = s.atTick now :=
    (txAwait_of_empty (s := s.atTick now) hret now).trans (if_neg hd.not_ge)
  exact ⟨by simp [hs], _, stepTransmitter_of_waiting hlast hs hstay, ⟨hs, ha, rfl, hw⟩, (List.append_nil _).symm, hret⟩

/-- A reached deadline with an attempt left (R127). -/
theorem txMoves_retries (hd : d ≤ now) (ha : a < P.cfgTx.maxAttempts) :
    TxMoves P now (TxUnit.Waiting a d w) [] (TxUnit.Sending (a + 1) w) := by
  rintro s rfl hlast hret ⟨hs, rfl, rfl, hw⟩
  have hretry := ((txAwait_of_empty (s := s.atTick now) hret now).trans (if_pos hd)).trans (txTimeout_of_attemptsLeft ha)
  exact ⟨by simp [hs], _, stepTransmitter_of_waiting hlast hs hretry, ⟨rfl, rfl, hw⟩, (List.append_nil _).symm, hret⟩

/-- A reached deadline with all attempts spent (R127). -/
theorem txMoves_fails (hd : d ≤ now) (ha : P.cfgTx.maxAttempts ≤ a) :
    TxMoves P now (TxUnit.Waiting a d w) [] (TxUnit.Failed a) := by
  rintro s rfl hlast hret ⟨hs, rfl, rfl, -⟩
  have hfail := ((txAwait_of_empty (s := s.atTick now) hret now).trans (if_pos hd)).trans (txTimeout_of_attemptsSpent ha)
  exact ⟨by simp [hs], _, stepTransmitter_of_waiting hlast hs hfail, ⟨rfl, rfl⟩, (List.append_nil _).symm, hret⟩

end

/-! ## A tick of a session -/

/-- The harness clock shows `now`, and the session has not been stepped at a later tick. -/
def HarnessAt (P : Params) (now : Nat) (s : State) : Prop := s.params = P ∧ s.env.now = now ∧ s.tx.tLastNow ≤ now

theorem HarnessAt.tick {P : Params} {now : Nat} {s t : State} (hs : HarnessAt P now s) (h : execSysTick s = .next t) :
    HarnessAt P (now + 1) t := by
  obtain ⟨rfl, rfl, -⟩ := hs
  obtain ⟨hnow, hlast, -, hparams, -⟩ := execSysTick_frame h
  exact ⟨hparams, hnow, by rw [hlast]; exact Nat.le_succ _⟩

/-- A tick of a session is its two steps, and the end of the tick. -/
theorem execSysTick_of_steps {s u v : State} (hwf : s.params.wellFormed = true) (hs : s.tx.tState ≠ .idle)
    (hu : stepTransmitter s.env.now s = .next u) (hv : stepReceiver u = .next v) : execSysTick s = .next (tickEnd v) := by
  rw [execSysTick_of_wellFormed hwf, tickRequest_of_session hs, hu, andThen_next, hv, andThen_next]

/-! ## Ticks that lose the acknowledgment -/

/-- Without NACK the receiver appends to `RET` what the draw leaves of the ACK, where it reaches a Valid verdict, and nothing
else (R124). -/
theorem stepReceiver_ret_of_nackDisabled {s t : State} (hnack : s.params.cfgRx.nackEnable = false)
    (h : stepReceiver s = .next t) :
    t.env.ret = s.env.ret ++ (if t.rx.rxReady then drawn s.ports.retDraws s.params.cfgRx.ackByte else []) := by
  obtain ⟨u, hu, rfl⟩ := stepReceiver_next h
  refine rxLoop_induction (s := s.rxStarted) (t := u)
    (P := fun v => v.params = s.params ∧ v.ports = s.ports ∧ v.rx.rxReady = false ∧ v.env.ret = s.env.ret)
    (Q := fun v => v.env.ret =
      s.env.ret ++ (if v.rx.rxReady then drawn s.ports.retDraws s.params.cfgRx.ackByte else []))
    ?_ (fun _ _ _ hP _ _ => hP) ?_ ?_ rfl ⟨rfl, rfl, rfl, rfl⟩ hu
  · rintro v ⟨-, -, hready, hret⟩
    simp [hready, hret]
  · rintro b rest v e ⟨hparams, hports, hready, hret⟩ - -
    rw [rxInvalidState_of_nackDisabled (s := rxTaken b rest v) (by rw [← hparams] at hnack; exact hnack)]
    exact ⟨hparams, hports, hready, hret⟩
  · rintro b rest v p ⟨hparams, hports, -, hret⟩ - -
    simp [rxValidState, rxTaken, hparams, hports, hret]

/-- The session at tick `now`, in `φ`, with no acknowledgment on its way. -/
def Unacked (P : Params) (now : Nat) (φ : TxUnit → Prop) (s : State) : Prop :=
  HarnessAt P now s ∧ s.env.ret = [] ∧ φ s.tx

/-- One tick that drops the first byte pushed into `RET`, however it perturbs `FWD`. -/
def ackLostTick (fwdDraws : List Draw) : Issue := tickIssue none fwdDraws [.drop]

section
variable {P : Params} {now a d : Nat} {w : List Byte}

/-- A move of the transmitter is what such a tick makes of the session. -/
theorem reaches_ackLostTick {φ ψ : TxUnit → Prop} (hP : HarnessParams P) (hmove : TxMoves P now φ w ψ)
    (f : List Draw) : Reaches [ackLostTick f] (Unacked P now φ) (Unacked P (now + 1) ψ) := by
  refine Reaches.tick (fun s i rest hs => hs) fun s hs _ hdraws => ?_
  obtain ⟨hat, hret, hφ⟩ := hs
  have ⟨hparams, hnow, hlast⟩ := hat
  obtain ⟨hsession, u, hu, hψ, -, hret'⟩ := hmove s hparams hlast hret hφ
  obtain ⟨hwf, hdepth, -, hnack⟩ := hP
  obtain ⟨-, -, hparams', -, -, -, -, -, -, hdraws'⟩ := stepTransmitter_frame hu
  obtain ⟨v, hv⟩ := stepReceiver_completes (s := u) fun n hn => by simp [hparams', hparams, hdepth] at hn
  have htick := execSysTick_of_steps (hparams ▸ hwf) hsession (hnow ▸ hu) hv
  obtain ⟨-, htx, -⟩ := stepReceiver_frame hv
  have hlost : v.env.ret = [] := by
    rw [stepReceiver_ret_of_nackDisabled (by rw [hparams', hparams, hnack]) hv, hret', hdraws', hdraws]
    split
    · rfl
    · rfl
  exact ⟨tickEnd v, htick, hat.tick htick, hlost, htx ▸ hψ⟩

/-- Ticks before the deadline. -/
theorem reaches_ackLost_waits (hP : HarnessParams P) {fs : List (List Draw)} (hd : ∀ k < fs.length, now + k < d) :
    Reaches (fs.map ackLostTick) (Unacked P now (TxUnit.Waiting a d w))
      (Unacked P (now + fs.length) (TxUnit.Waiting a d w)) := by
  induction fs generalizing now with
  | nil => exact Reaches.nil fun _ hs => hs
  | cons f fs ih =>
    have hfirst := reaches_ackLostTick hP (txMoves_waits (P := P) (a := a) (w := w) (hd 0 (Nat.succ_pos _))) f
    have hrest := ih (now := now + 1) fun k hk => by
      have := hd (k + 1) (Nat.succ_lt_succ hk)
      omega
    rw [List.length_cons, Nat.add_comm fs.length, ← Nat.add_assoc]
    exact hfirst.append hrest

/-- The ticks from a transmission to its reached deadline: `TIMEOUT_TICKS`, and one for `TIMEOUT_TICKS = 0` (log entry 9). -/
def timeoutSpan (P : Params) : Nat := max 1 P.cfgTx.timeoutTicks

theorem timeoutTicks_le_timeoutSpan (P : Params) : P.cfgTx.timeoutTicks ≤ timeoutSpan P := Nat.le_max_right _ _

/-- A transmission and the ticks before its deadline. -/
theorem reaches_ackLost_transmits (hP : HarnessParams P) {fs : List (List Draw)} (hlen : fs.length = timeoutSpan P) :
    Reaches (fs.map ackLostTick) (Unacked P now (TxUnit.Sending a w))
      (Unacked P (now + timeoutSpan P) (TxUnit.Waiting a (now + P.cfgTx.timeoutTicks) w)) := by
  cases fs with
  | nil => exact absurd hlen (by rw [List.length_nil, timeoutSpan]; omega)
  | cons f fs =>
    rw [List.length_cons, timeoutSpan] at hlen
    have hfirst := reaches_ackLostTick hP (txMoves_transmits (now := now) (a := a) (w := w) hP) f
    have hrest := reaches_ackLost_waits hP (now := now + 1) (d := now + P.cfgTx.timeoutTicks) (a := a) (w := w) (fs := fs)
      fun k hk => by omega
    rw [timeoutSpan, ← hlen, Nat.add_comm fs.length, ← Nat.add_assoc]
    exact hfirst.append hrest

theorem exists_append_of_length {α : Type} {l : List α} {m n : Nat} (h : l.length = m + n) :
    ∃ as bs, l = as ++ bs ∧ as.length = m ∧ bs.length = n :=
  ⟨l.take m, l.drop m, (List.take_append_drop m l).symm, by rw [List.length_take]; omega, by rw [List.length_drop]; omega⟩

/-- One attempt whose acknowledgment is lost, with another one left. -/
theorem reaches_ackLost_attempt (hP : HarnessParams P) (ha : a < P.cfgTx.maxAttempts) {fs : List (List Draw)}
    (hlen : fs.length = timeoutSpan P + 1) :
    Reaches (fs.map ackLostTick) (Unacked P now (TxUnit.Sending a w))
      (Unacked P (now + (timeoutSpan P + 1)) (TxUnit.Sending (a + 1) w)) := by
  obtain ⟨gs, hs, rfl, hgs, hhs⟩ := exists_append_of_length hlen
  obtain ⟨f, rfl⟩ := List.length_eq_one_iff.mp hhs
  rw [List.map_append, ← Nat.add_assoc]
  have hdue := Nat.add_le_add_left (timeoutTicks_le_timeoutSpan P) now
  exact (reaches_ackLost_transmits hP hgs).append (reaches_ackLostTick hP (txMoves_retries hdue ha) f)

/-- `k` attempts whose acknowledgments are lost, with another one left. -/
theorem reaches_ackLost_attempts (hP : HarnessParams P) (k : Nat) (ha : a + k ≤ P.cfgTx.maxAttempts)
    {fs : List (List Draw)} (hlen : fs.length = k * (timeoutSpan P + 1)) :
    Reaches (fs.map ackLostTick) (Unacked P now (TxUnit.Sending a w))
      (Unacked P (now + fs.length) (TxUnit.Sending (a + k) w)) := by
  induction k generalizing now a fs with
  | zero =>
    obtain rfl := List.length_eq_zero_iff.mp (hlen.trans (Nat.zero_mul _))
    exact Reaches.nil fun _ hs => hs
  | succ k ih =>
    rw [Nat.succ_mul, Nat.add_comm] at hlen
    obtain ⟨gs, hs, rfl, hgs, hhs⟩ := exists_append_of_length hlen
    have hfirst := reaches_ackLost_attempt (now := now) (w := w) hP (a := a) (by omega) hgs
    have hrest := ih (now := now + (timeoutSpan P + 1)) (a := a + 1) (by omega) hhs
    rw [List.map_append, List.length_append, hgs, ← Nat.add_assoc now, ← Nat.succ_add_eq_add_succ a k]
    exact hfirst.append hrest

/-- The whole session until the last attempt's deadline. -/
theorem reaches_ackLost_lastDeadline (hP : HarnessParams P) {fs : List (List Draw)}
    (hlen : fs.length = P.cfgTx.maxAttempts * timeoutSpan P + (P.cfgTx.maxAttempts - 1)) (hmax : 1 ≤ P.cfgTx.maxAttempts) :
    ∃ d ≤ now + fs.length, Reaches (fs.map ackLostTick) (Unacked P now (TxUnit.Sending 1 w))
      (Unacked P (now + fs.length) (TxUnit.Waiting P.cfgTx.maxAttempts d w)) := by
  obtain ⟨k, hk⟩ : ∃ k, P.cfgTx.maxAttempts = k + 1 := ⟨_, (Nat.sub_add_cancel hmax).symm⟩
  have hsplit : fs.length = k * (timeoutSpan P + 1) + timeoutSpan P := by
    rw [hlen, hk, Nat.succ_mul, Nat.mul_succ]
    omega
  obtain ⟨gs, hs, rfl, hgs, hhs⟩ := exists_append_of_length hsplit
  have hattempts := reaches_ackLost_attempts (now := now) (a := 1) (w := w) hP k (by omega) hgs
  have hlast := reaches_ackLost_transmits (now := now + gs.length) (a := 1 + k) (w := w) hP hhs
  refine ⟨now + gs.length + P.cfgTx.timeoutTicks, ?_, ?_⟩
  · rw [List.length_append, hhs, ← Nat.add_assoc]
    exact Nat.add_le_add_left (timeoutTicks_le_timeoutSpan P) _
  · rw [List.map_append, List.length_append, hhs, ← Nat.add_assoc, hk, Nat.add_comm k]
    exact hattempts.append hlast

end

/-! ## The obligation -/

/-- The session right after an acceptable request, on an empty `RET`. -/
theorem unacked_of_request {s : State} {p : List Byte} (hs : s.tx.tState = .idle) (hattempts : s.tx.tAttempts = 0)
    (hret : s.env.ret = []) (hlast : s.tx.tLastNow ≤ s.env.now) (hle : p.length ≤ s.params.cfgTx.maxLen) :
    Unacked s.params s.env.now (TxUnit.Sending 1 (requestSend p s).tx.wire) (requestSend p s) := by
  have hstart := requestSend_of_le hs hle
  refine ⟨⟨?_, ?_, ?_⟩, ?_, ?_, ?_, rfl⟩ <;> rw [hstart]
  · exact hlast
  · exact hret
  · simp only [hattempts]

/-- Settles O48: each attempt but the last takes the ticks to its deadline and is retried there; the last one fails at it. -/
theorem unacknowledgedSessionFailsOnTime : Obligations.UnacknowledgedSessionFailsOnTime := by
  unfold Obligations.UnacknowledgedSessionFailsOnTime
  intro s p firstDraws draws hs hidle hret hlast hle hnack hdepth hbits hlen hbus
  obtain ⟨hwf, -, -, -, -, hattempts, -⟩ := hs
  have hP : HarnessParams s.params := ⟨hwf, hdepth, hbits, hnack⟩
  have hmax := cfgTx_maxAttempts_pos hwf
  have hstart := unacked_of_request hidle (hattempts hidle) hret hlast hle
  obtain ⟨gs, hs, hfs, hgs, hhs⟩ := exists_append_of_length (l := firstDraws :: draws) (List.length_cons (as := draws))
  obtain ⟨f, rfl⟩ := List.length_eq_one_iff.mp hhs
  have hticks : (requestSend p s).bus.map Issue.noRequest = gs.map ackLostTick ++ [ackLostTick f] := by
    obtain ⟨-, -, -, -, -, hbus', -⟩ := requestSend_frame p s
    calc (requestSend p s).bus.map Issue.noRequest
      _ = (firstDraws :: draws).map ackLostTick := by rw [hbus', hbus, List.map_cons, List.map_map]; rfl
      _ = _ := by rw [hfs, List.map_append]; rfl
  have hrun {n : Nat} (hn : 0 < n) : Sys2Proof.core.run n s = runSteps n (requestSend p s) :=
    core_run_of_requestTick hwf hbus rfl rfl hidle hle hn
  obtain ⟨d, hd, hwaiting⟩ := reaches_ackLost_lastDeadline (now := s.env.now) (w := (requestSend p s).tx.wire) hP
    (hgs.trans hlen) hmax
  have hfailed := hwaiting.append (reaches_ackLostTick hP (txMoves_fails hd (Nat.le_refl _)) f)
  refine ⟨?waiting, ?failed⟩
  case waiting =>
    have hpos : 0 < draws.length := by
      have := Nat.mul_pos hmax (Nat.lt_of_lt_of_le Nat.one_pos (Nat.le_max_left 1 s.params.cfgTx.timeoutTicks))
      omega
    obtain ⟨t, ht, -, -, hst, -⟩ := hwaiting.run hstart hticks
    rw [List.length_map, hgs] at ht
    exact ⟨t, (hrun hpos).trans ht, hst⟩
  case failed =>
    obtain ⟨t, ht, ⟨-, hnow, -⟩, -, hst, ha⟩ := hfailed.run hstart (hticks.trans (List.append_nil _).symm)
    rw [List.length_append, List.length_map, hgs] at ht
    exact ⟨t, (hrun (Nat.succ_pos _)).trans ht, hst, ha, by rw [hnow, hgs]⟩

end Sys2Proof.Machine
end

section
/-! PROOFS. A frame on its way to the receiver (43_receiver.md R121): the steps of the receiver until the frame is delivered,
one under ALL and one per byte under ONE. -/

namespace Sys2Proof.Machine

/-- The steps of the receiver that a frame with payload `p` takes. -/
def deliverySteps (pol : RxPolicy) (p : List Byte) : Nat :=
  match pol with
  | .all => 1
  | .one => p.length + 4

theorem deliverySteps_pos (pol : RxPolicy) (p : List Byte) : 0 < deliverySteps pol p := by
  cases pol with
  | all => exact Nat.one_pos
  | one => exact Nat.succ_pos _

/-- The receiver has `j` steps to go before it delivers payload `p`: it has decoded the first `k` bytes of the frame, and the
others are all that `FWD` holds. With none to go, `FWD` is empty and the decoder waits for START. -/
def Incoming (p : List Byte) : Nat → State → Prop
  | 0, s => s.env.fwd = [] ∧ s.rx.dec.dState = .awaitStart
  | j + 1, s => ∃ (d : Decoder) (k : Nat), k + (j + 1) = deliverySteps s.params.cfgRx.rxPolicy p ∧
      d.dState = .awaitStart ∧ d.dBuf.length = s.params.cfgRx.maxLen ∧
      s.rx.dec = (d.pushAll s.params.cfgRx ((frameBytes s.params.cfgRx p).take k)).1 ∧
      s.env.fwd = (frameBytes s.params.cfgRx p).drop k

/-- What one step of the receiver makes of an incoming frame: one step less to go, and with the last one the payload on the
port and what the draw leaves of an ACK in `RET`. -/
def ReceiverProgress (p : List Byte) (j : Nat) (u v : State) : Prop :=
  Incoming p (j - 1) v ∧ (v.rx.rxReady = true ↔ j = 1) ∧ (j = 1 → v.rx.outPayload = p) ∧
  v.env.ret = u.env.ret ++ (if j = 1 then drawn u.ports.retDraws u.params.cfgRx.ackByte else [])

/-- The verdict of the byte at index `k` of a run is that of a push after the first `k` bytes. -/
theorem Decoder.pushAll_verdict (cfg : UnitConfig) (d : Decoder) {bs : List Byte} {k : Nat} (h : k < bs.length) :
    (d.pushAll cfg bs).2[k]? = some ((d.pushAll cfg (bs.take k)).1.push cfg bs[k]).2 := by
  induction bs generalizing d k with
  | nil => exact absurd h (Nat.not_lt_zero k)
  | cons b bs ih =>
    cases k with
    | zero => rfl
    | succ k => exact ih (d.push cfg b).1 (Nat.lt_of_succ_lt_succ h)

theorem Decoder.pushAll_take_succ (cfg : UnitConfig) (d : Decoder) {bs : List Byte} {k : Nat} (h : k < bs.length) :
    (d.pushAll cfg (bs.take (k + 1))).1 = ((d.pushAll cfg (bs.take k)).1.push cfg bs[k]).1 := by
  rw [List.take_succ_eq_append_getElem h, Decoder.pushAll_append]
  rfl

/-! ## No frame on its way -/

theorem stepReceiver_of_loop {s u : State} (h : rxLoop s.env.fwd s.rxStarted = .next u) : stepReceiver s = rxReturn u := by
  rw [stepReceiver_eq, h, andThen_next]

theorem stepReceiver_progress_zero {p : List Byte} {u : State} (h : Incoming p 0 u) :
    ∃ v, stepReceiver u = .next v ∧ ReceiverProgress p 0 u v := by
  obtain ⟨hfwd, hwait⟩ := h
  refine ⟨_, stepReceiver_of_loop (u := u.rxStarted) (by rw [hfwd]; rfl), ⟨hfwd, hwait⟩, ?_, nofun, ?_⟩
  · exact iff_of_false nofun nofun
  · exact (List.append_nil _).symm

/-! ## Under ALL -/

theorem stepReceiver_progress_all {p : List Byte} {j : Nat} {u : State} (hu : u.Inv) (hpol : u.params.cfgRx.rxPolicy = .all)
    (hdepth : u.params.chanDepth = none) (hle : p.length ≤ u.params.cfgRx.maxLen) (h : Incoming p (j + 1) u) :
    ∃ v, stepReceiver u = .next v ∧ ReceiverProgress p (j + 1) u v := by
  obtain ⟨d, k, hk, hd, -, hdec, hfwd⟩ := h
  rw [hpol, deliverySteps] at hk
  obtain ⟨rfl, rfl⟩ : k = 0 ∧ j = 0 := by omega
  have hwait : u.rx.dec.dState = .awaitStart := by rw [hdec]; exact hd
  obtain ⟨v, hv, hready, hpayload, hrest, hret, hstart, -⟩ :=
    stepReceiver_all_delivers (noise := []) (rest := []) (p := p) hu hpol (by rw [hdepth]; rfl) hwait List.not_mem_nil hle
      (by rw [hfwd]; simp)
  exact ⟨v, hv, ⟨hrest, hstart⟩, iff_of_true hready rfl, fun _ => hpayload, hret⟩

/-! ## Under ONE -/

theorem stepReceiver_progress_one {p : List Byte} {j : Nat} {u : State} (hu : u.Inv) (hpol : u.params.cfgRx.rxPolicy = .one)
    (hdepth : u.params.chanDepth = none) (hle : p.length ≤ u.params.cfgRx.maxLen) (h : Incoming p (j + 1) u) :
    ∃ v, stepReceiver u = .next v ∧ ReceiverProgress p (j + 1) u v := by
  obtain ⟨d, k, hk, hd, hbuf, hdec, hfwd⟩ := h
  obtain ⟨hwf, -, ⟨-, -, hout, -⟩, -⟩ := hu
  have hmax := cfgRx_maxLen_le hwf
  rw [hpol, deliverySteps] at hk
  have hlt : k < (frameBytes u.params.cfgRx p).length := by rw [frameBytes_length]; omega
  have hverdict := Decoder.pushAll_verdict u.params.cfgRx d hlt
  have hnext := Decoder.pushAll_take_succ u.params.cfgRx d hlt
  obtain ⟨hverdicts, -⟩ := Decoder.pushAll_frameBytes u.params.cfgRx d p hmax hd hbuf hle
  rw [hverdicts, ← hdec] at hverdict
  rw [← hdec] at hnext
  rw [List.drop_eq_getElem_cons hlt] at hfwd
  cases j with
  | zero =>
    obtain rfl : k = p.length + 3 := by omega
    have hvalid : (u.rx.dec.push u.params.cfgRx (frameBytes u.params.cfgRx p)[p.length + 3]).2 = .valid p := by
      simpa using hverdict.symm
    have hloop := rxLoop_valid (s := u.rxStarted) (rest := (frameBytes u.params.cfgRx p).drop (p.length + 3 + 1)) hvalid
    rw [← hfwd] at hloop
    obtain ⟨v, hv, hready, hpayload, hrest, hret, hstart, -⟩ :=
      stepReceiver_of_valid hloop (by simp [rxTaken, State.rxStarted, hdepth]) (hle.trans_eq hout.symm) (hout.trans_le hmax)
    refine ⟨v, hv, ⟨hrest.trans ?_, hstart⟩, iff_of_true hready rfl, fun _ => hpayload, hret⟩
    exact List.drop_of_length_le (frameBytes_length _ p).le
  | succ j =>
    have hpending : (u.rx.dec.push u.params.cfgRx (frameBytes u.params.cfgRx p)[k]).2 = .pending := by
      have hbefore : k < p.length + 3 := by omega
      rw [List.getElem?_append_left (by simpa using hbefore)] at hverdict
      simpa [hbefore] using hverdict.symm
    have hloop := rxLoop_pending_one (s := u.rxStarted) (rest := (frameBytes u.params.cfgRx p).drop (k + 1)) hpending hpol
    rw [← hfwd] at hloop
    have hstep := stepReceiver_of_loop hloop
    have hcount : k + 1 + (j + 1) = deliverySteps u.params.cfgRx.rxPolicy p := by
      rw [hpol, deliverySteps]
      omega
    exact ⟨_, hstep, ⟨d, k + 1, hcount, hd, hbuf, hnext.symm, rfl⟩, iff_of_false nofun (by omega), by omega,
      (List.append_nil _).symm⟩

/-! ## Under both policies -/

theorem stepReceiver_progress {p : List Byte} {j : Nat} {u : State} (hu : u.Inv) (hdepth : u.params.chanDepth = none)
    (hle : p.length ≤ u.params.cfgRx.maxLen) (h : Incoming p j u) :
    ∃ v, stepReceiver u = .next v ∧ ReceiverProgress p j u v := by
  cases j with
  | zero => exact stepReceiver_progress_zero h
  | succ j =>
    cases hpol : u.params.cfgRx.rxPolicy with
    | all => exact stepReceiver_progress_all hu hpol hdepth hle h
    | one => exact stepReceiver_progress_one hu hpol hdepth hle h

/-- A whole frame in `FWD` before a waiting decoder is one that has all its steps to go. -/
theorem incoming_of_frame {p : List Byte} {u : State} (hu : u.Inv) (hwait : u.rx.dec.dState = .awaitStart)
    (hfwd : u.env.fwd = frameBytes u.params.cfgRx p) : Incoming p (deliverySteps u.params.cfgRx.rxPolicy p) u := by
  obtain ⟨-, -, ⟨⟨hbuf, -⟩, -⟩, -⟩ := hu
  obtain ⟨j, hj⟩ := Nat.exists_eq_add_one.mpr (deliverySteps_pos u.params.cfgRx.rxPolicy p)
  rw [hj]
  exact ⟨u.rx.dec, 0, by rw [hj, Nat.zero_add], hwait, hbuf, rfl, hfwd⟩

end Sys2Proof.Machine
end

section
/-! PROOFS. A session under the harness with lost frames and lost acknowledgments and then a delivered transmission
(44_transmitter.md R133), under both policies of the receiver. -/

namespace Sys2Proof.Machine

theorem Incoming.congr {p : List Byte} {j : Nat} {s u : State} (h : Incoming p j s) (hrx : u.rx = s.rx)
    (hparams : u.params = s.params) (hfwd : u.env.fwd = s.env.fwd) : Incoming p j u := by
  cases j with
  | zero =>
    obtain ⟨hempty, hwait⟩ := h
    exact ⟨hfwd.trans hempty, by rw [hrx]; exact hwait⟩
  | succ j =>
    simp only [Incoming, hrx, hparams, hfwd]
    exact h

/-! ## One tick -/

/-- The application has received `D` once every frame on its way is delivered: `j` steps of the receiver to go for one with
payload `p`, or none on its way. -/
def DeliveredAfter (p : List Byte) (j : Nat) (D : List (List Byte)) (s : State) : Prop :=
  s.env.delivered ++ (if j = 0 then [] else [p]) = D

/-- The session at tick `now`, in `φ`, with `ret` in `RET` and a frame with `j` steps of the receiver to go. -/
def Tracked (P : Params) (p : List Byte) (now : Nat) (φ : TxUnit → Prop) (j : Nat) (ret : List Byte)
    (D : List (List Byte)) (s : State) : Prop :=
  HarnessAt P now s ∧ s.Inv ∧ φ s.tx ∧ s.env.ret = ret ∧ Incoming p j s ∧ DeliveredAfter p j D s

/-- What R133 assumes of the parameters beside those of the harness. -/
def LinkParams (P : Params) (p : List Byte) : Prop :=
  HarnessParams P ∧ P.cfgRx.ackByte = P.cfgTx.ackByte ∧ p.length ≤ P.cfgRx.maxLen

/-- Steps (c) to (e) of a tick, after a step of the transmitter that leaves `RET` empty. -/
theorem tick_tracked {P : Params} {p : List Byte} {now j : Nat} {D : List (List Byte)} {φ : TxUnit → Prop} {s u : State}
    (hP : LinkParams P p) (hat : HarnessAt P now s) (hs : s.Inv) (hsession : s.tx.tState ≠ .idle)
    (hu : stepTransmitter now s = .next u) (hφ : φ u.tx) (hret : u.env.ret = []) (hin : Incoming p j u)
    (hD : DeliveredAfter p j D s) : ∃ t, execSysTick s = .next t ∧
      Tracked P p (now + 1) φ (j - 1) (if j = 1 then drawn s.ports.retDraws P.cfgRx.ackByte else []) D t := by
  obtain ⟨⟨hwf, hdepth, -, -⟩, -, hle⟩ := hP
  have ⟨hparams, hnow, _⟩ := hat
  obtain ⟨-, -, hparams', -, -, hdelivered, -, -, -, hdraws⟩ := stepTransmitter_frame hu
  have hparamsU : u.params = P := hparams'.trans hparams
  obtain ⟨v, hv, hin', hready, hpayload, hret'⟩ :=
    stepReceiver_progress (stepTransmitter_inv hs hu) (hparamsU ▸ hdepth) (hparamsU ▸ hle) hin
  obtain ⟨-, htx, -, -, -, hdelivered', -⟩ := stepReceiver_frame hv
  have htick := execSysTick_of_steps (hparams ▸ hwf) hsession (hnow ▸ hu) hv
  refine ⟨tickEnd v, htick, hat.tick htick, execSysTick_inv hs htick, htx ▸ hφ, ?_, hin'.congr rfl rfl rfl, ?_⟩
  · rw [hret, hdraws, hparamsU] at hret'
    exact hret'
  · have hdeliver : (tickEnd v).env.delivered = s.env.delivered ++ (if v.rx.rxReady then [v.rx.outPayload] else []) := by
      rw [← hdelivered, ← hdelivered']
      rfl
    rw [DeliveredAfter, hdeliver, ← hD]
    obtain hj | rfl | hj : j = 0 ∨ j = 1 ∨ 2 ≤ j := by omega
    · simp [hready, hj]
    · simp [hready, hpayload]
    · simp [hready, show ¬ j = 0 by omega, show ¬ j = 1 by omega, show ¬ j - 1 = 0 by omega]

/-- SUCCEEDED after `a` attempts. -/
def TxUnit.Succeeded (a : Nat) (t : TxUnit) : Prop := t.tState = .succeeded ∧ t.tAttempts = a

section
variable {P : Params} {p w : List Byte} {now a d j : Nat} {D : List (List Byte)} {φ ψ : TxUnit → Prop}

/-- A tick in which nothing reaches `FWD`. -/
theorem reaches_quietTick (hP : LinkParams P p) (hmove : TxMoves P now φ w ψ) {f : List Draw} (hf : perturb f w = [])
    (r : List Draw) : Reaches [tickIssue none f r] (Tracked P p now φ j [] D)
      (Tracked P p (now + 1) ψ (j - 1) (if j = 1 then drawn r P.cfgRx.ackByte else []) D) := by
  refine Reaches.tick (fun s i rest ⟨hat, hs, hφ, hret, hin, hD⟩ => ⟨hat, hs, hφ, hret, hin.congr rfl rfl rfl, hD⟩)
    fun s ⟨hat, hs, hφ, hret, hin, hD⟩ hfwdDraws hretDraws => ?_
  have ⟨hparams, _, hlast⟩ := hat
  obtain ⟨hsession, u, hu, hψ, hfwd, hret'⟩ := hmove s hparams hlast hret hφ
  rw [hfwdDraws, hf, List.append_nil] at hfwd
  obtain ⟨-, hrx, hparams', -⟩ := stepTransmitter_frame hu
  rw [← hretDraws]
  exact tick_tracked hP hat hs hsession hu hψ hret' (hin.congr hrx hparams' hfwd) hD

/-- A tick that transmits the frame, which arrives whole. -/
theorem reaches_transmission (hP : LinkParams P p) (r : List Draw) :
    Reaches [tickIssue none [] r] (Tracked P p now (TxUnit.Sending a (frameBytes P.cfgRx p)) 0 [] D)
      (Tracked P p (now + 1) (TxUnit.Waiting a (now + P.cfgTx.timeoutTicks) (frameBytes P.cfgRx p))
        (deliverySteps P.cfgRx.rxPolicy p - 1)
        (if deliverySteps P.cfgRx.rxPolicy p = 1 then drawn r P.cfgRx.ackByte else []) (D ++ [p])) := by
  have ⟨hharness, _⟩ := hP
  refine Reaches.tick (fun s i rest ⟨hat, hs, hφ, hret, hin, hD⟩ => ⟨hat, hs, hφ, hret, hin.congr rfl rfl rfl, hD⟩)
    fun s ⟨hat, hs, hφ, hret, hin, hD⟩ hfwdDraws hretDraws => ?_
  have ⟨hparams, _, hlast⟩ := hat
  obtain ⟨hsession, u, hu, hψ, hfwd, hret'⟩ := txMoves_transmits hharness s hparams hlast hret hφ
  obtain ⟨hempty, hwait⟩ := hin
  rw [hfwdDraws, perturb_none, hempty, List.nil_append] at hfwd
  obtain ⟨-, hrx, hparams', -⟩ := stepTransmitter_frame hu
  have hparamsU : u.params = P := hparams'.trans hparams
  have hin' := incoming_of_frame (p := p) (stepTransmitter_inv hs hu) (by rw [hrx]; exact hwait) (by rw [hparamsU, hfwd])
  rw [hparamsU] at hin'
  have hD' : DeliveredAfter p (deliverySteps P.cfgRx.rxPolicy p) (D ++ [p]) s := by
    rw [DeliveredAfter, ← hD, if_neg (deliverySteps_pos _ _).ne', if_pos rfl, List.append_nil]
  rw [← hretDraws]
  exact tick_tracked hP hat hs hsession hu hψ hret' hin' hD'

/-- The tick in which the transmitter reads the acknowledgment. -/
theorem reaches_success (hP : LinkParams P p) (r : List Draw) :
    Reaches [tickIssue none [] r] (Tracked P p now (TxUnit.Waiting a d w) 0 [P.cfgRx.ackByte] D)
      (Tracked P p (now + 1) (TxUnit.Succeeded a) 0 [] D) := by
  refine Reaches.tick (fun s i rest ⟨hat, hs, hφ, hret, hin, hD⟩ => ⟨hat, hs, hφ, hret, hin.congr rfl rfl rfl, hD⟩)
    fun s ⟨hat, hs, hφ, hret, hin, hD⟩ _ _ => ?_
  have ⟨hparams, _, hlast⟩ := hat
  obtain ⟨hst, ha, -⟩ := hφ
  have ⟨_, hack, _⟩ := hP
  have hsucceeds := (txAwait_of_byte (s := s.atTick now) hret now).trans
    (if_pos (hack.trans (congrArg (fun q : Params => q.cfgTx.ackByte) hparams.symm)))
  exact tick_tracked (j := 0) hP hat hs (by simp [hst]) (stepTransmitter_of_waiting hlast hst hsucceeds) ⟨rfl, ha⟩ rfl
    (hin.congr rfl rfl rfl) hD

/-! ## Ticks before the deadline -/

/-- Ticks before the deadline in which no acknowledgment reaches `RET`: it is lost, no frame is on its way, or the frame is not
yet delivered. -/
theorem reaches_quiet_waits (hP : LinkParams P p) {n : Nat} (hd : ∀ k < n, now + k < d) {r : List Draw}
    (hquiet : drawn r P.cfgRx.ackByte = [] ∨ j = 0 ∨ n < j) :
    Reaches (List.replicate n (tickIssue none [] r)) (Tracked P p now (TxUnit.Waiting a d w) j [] D)
      (Tracked P p (now + n) (TxUnit.Waiting a d w) (j - n) [] D) := by
  induction n generalizing now j with
  | zero => exact Reaches.nil fun _ hs => hs
  | succ n ih =>
    have hfirst := reaches_quietTick (j := j) (D := D) hP (txMoves_waits (a := a) (w := w) (hd 0 (Nat.succ_pos n)))
      (f := []) rfl r
    have hsilent : (if j = 1 then drawn r P.cfgRx.ackByte else []) = [] := by
      obtain h | h | h := hquiet
      · rw [h, ite_self]
      · rw [if_neg (by omega)]
      · rw [if_neg (by omega)]
    rw [hsilent] at hfirst
    have hrest := ih (now := now + 1) (j := j - 1) (fun k hk => by have := hd (k + 1) (Nat.succ_lt_succ hk); omega)
      (hquiet.imp_right fun h => by omega)
    rw [List.replicate_succ, Nat.add_comm n, ← Nat.add_assoc, ← Nat.sub_sub]
    exact hfirst.append hrest

/-- The ticks of an attempt after its transmission, up to its reached deadline, with another attempt left: by then a frame
that arrived is delivered. -/
theorem reaches_retry (hP : LinkParams P p) (ha : a < P.cfgTx.maxAttempts) {r : List Draw}
    (hquiet : drawn r P.cfgRx.ackByte = [] ∨ j = 0) (hj : j ≤ timeoutSpan P) :
    Reaches (List.replicate (timeoutSpan P) (tickIssue none [] r))
      (Tracked P p (now + 1) (TxUnit.Waiting a (now + P.cfgTx.timeoutTicks) w) j [] D)
      (Tracked P p (now + (timeoutSpan P + 1)) (TxUnit.Sending (a + 1) w) 0 [] D) := by
  obtain ⟨n, hn⟩ : ∃ n, timeoutSpan P = n + 1 :=
    Nat.exists_eq_add_one.mpr (Nat.lt_of_lt_of_le Nat.one_pos (Nat.le_max_left 1 P.cfgTx.timeoutTicks))
  have hwaits := reaches_quiet_waits (now := now + 1) (d := now + P.cfgTx.timeoutTicks) (a := a) (w := w) (D := D) (j := j)
    (n := n) hP (fun k hk => by rw [timeoutSpan] at hn; omega) (r := r) (hquiet.imp_right Or.inl)
  have hdue : now + P.cfgTx.timeoutTicks ≤ now + 1 + n := by
    have := timeoutTicks_le_timeoutSpan P
    omega
  have hretry := reaches_quietTick (j := j - n) (D := D) hP (txMoves_retries (w := w) hdue ha) (f := []) rfl r
  have hsilent : (if j - n = 1 then drawn r P.cfgRx.ackByte else []) = [] := by
    obtain h | h := hquiet
    · rw [h, ite_self]
    · rw [if_neg (by omega)]
  rw [hsilent, show j - n - 1 = 0 by omega, show now + 1 + n + 1 = now + (n + 1 + 1) by omega] at hretry
  rw [hn, List.replicate_succ']
  exact hwaits.append hretry

/-! ## Lost transmissions -/

/-- The ticks of one transmission that is lost: with its acknowledgment, or with all bytes of its frame. -/
def lossTicks (P : Params) (p : List Byte) (ackLost : Bool) : List Issue :=
  if ackLost then List.replicate (timeoutSpan P + 1) (tickIssue none [] [.drop])
  else tickIssue none (List.replicate (p.length + 4) .drop) [] :: List.replicate (timeoutSpan P) plainTick

theorem lossTicks_length (P : Params) (p : List Byte) (ackLost : Bool) :
    (lossTicks P p ackLost).length = timeoutSpan P + 1 := by
  cases ackLost <;> simp [lossTicks]

theorem perturb_dropped (bs : List Byte) : perturb (List.replicate bs.length .drop) bs = [] := by
  induction bs with
  | nil => rfl
  | cons b bs ih => exact ih

/-- One lost transmission: the next attempt is on, and the application has the payload where the frame arrived. -/
theorem reaches_loss (hP : LinkParams P p) (ha : a < P.cfgTx.maxAttempts)
    (hsteps : deliverySteps P.cfgRx.rxPolicy p ≤ timeoutSpan P) (ackLost : Bool) :
    Reaches (lossTicks P p ackLost) (Tracked P p now (TxUnit.Sending a (frameBytes P.cfgRx p)) 0 [] D)
      (Tracked P p (now + (timeoutSpan P + 1)) (TxUnit.Sending (a + 1) (frameBytes P.cfgRx p)) 0 []
        (D ++ if ackLost then [p] else [])) := by
  cases ackLost with
  | true =>
    have hsent := reaches_transmission (now := now) (a := a) (D := D) hP [.drop]
    rw [show drawn [.drop] P.cfgRx.ackByte = [] from rfl, ite_self] at hsent
    rw [lossTicks, if_pos rfl, if_pos rfl, List.replicate_succ]
    exact hsent.append (reaches_retry hP ha (.inl rfl) (by omega))
  | false =>
    have ⟨hharness, _⟩ := hP
    have hlost : perturb (List.replicate (p.length + 4) .drop) (frameBytes P.cfgRx p) = [] := by
      rw [← frameBytes_length P.cfgRx p]
      exact perturb_dropped _
    have hsent := reaches_quietTick (now := now) (j := 0) (D := D) hP (txMoves_transmits (a := a) hharness) hlost []
    rw [lossTicks, if_neg Bool.false_ne_true, if_neg Bool.false_ne_true, List.append_nil]
    exact hsent.append (reaches_retry hP ha (.inr rfl) (Nat.zero_le _))

theorem reaches_losses (hP : LinkParams P p) (hsteps : deliverySteps P.cfgRx.rxPolicy p ≤ timeoutSpan P)
    (losses : List Bool) (ha : a + losses.length ≤ P.cfgTx.maxAttempts) :
    Reaches (losses.flatMap (lossTicks P p)) (Tracked P p now (TxUnit.Sending a (frameBytes P.cfgRx p)) 0 [] D)
      (Tracked P p (now + (losses.flatMap (lossTicks P p)).length)
        (TxUnit.Sending (a + losses.length) (frameBytes P.cfgRx p)) 0 []
        (D ++ List.replicate (losses.filter id).length p)) := by
  induction losses generalizing now a D with
  | nil =>
    refine Reaches.nil fun s hs => ?_
    simpa using hs
  | cons ackLost losses ih =>
    rw [List.length_cons] at ha
    have hfirst := reaches_loss (now := now) (D := D) hP (a := a) (by omega) hsteps ackLost
    have hrest := ih (now := now + (timeoutSpan P + 1)) (a := a + 1) (D := D ++ if ackLost then [p] else []) (by omega)
    have hcount : (if ackLost then [p] else []) ++ List.replicate (losses.filter id).length p =
        List.replicate ((ackLost :: losses).filter id).length p := by
      cases ackLost <;> simp [List.replicate_succ]
    rw [List.append_assoc, hcount] at hrest
    rw [List.flatMap_cons, List.length_append, lossTicks_length, ← Nat.add_assoc, List.length_cons,
      ← Nat.succ_add_eq_add_succ a]
    exact hfirst.append hrest

/-! ## The delivered transmission -/

/-- A transmission whose frame and acknowledgment both arrive, up to the acknowledgment in `RET`. -/
theorem reaches_delivery (hP : LinkParams P p)
    (hsteps : deliverySteps P.cfgRx.rxPolicy p = 1 ∨ deliverySteps P.cfgRx.rxPolicy p ≤ P.cfgTx.timeoutTicks) :
    Reaches (List.replicate (deliverySteps P.cfgRx.rxPolicy p) plainTick)
      (Tracked P p now (TxUnit.Sending a (frameBytes P.cfgRx p)) 0 [] D)
      (Tracked P p (now + deliverySteps P.cfgRx.rxPolicy p)
        (TxUnit.Waiting a (now + P.cfgTx.timeoutTicks) (frameBytes P.cfgRx p)) 0 [P.cfgRx.ackByte] (D ++ [p])) := by
  have hsent := reaches_transmission (now := now) (a := a) (D := D) hP []
  rw [drawn_none] at hsent
  obtain hone | ⟨n, hn⟩ : deliverySteps P.cfgRx.rxPolicy p = 1 ∨ ∃ n, deliverySteps P.cfgRx.rxPolicy p = n + 2 := by
    have := deliverySteps_pos P.cfgRx.rxPolicy p
    obtain h | h := Nat.lt_or_ge 1 (deliverySteps P.cfgRx.rxPolicy p)
    · exact .inr (Nat.exists_eq_add_of_le' h)
    · exact .inl (by omega)
  · rw [hone, if_pos rfl] at hsent
    rw [hone]
    exact hsent
  · have hbefore (k : Nat) (hk : k ≤ n) : now + 1 + k < now + P.cfgTx.timeoutTicks := by omega
    rw [hn, if_neg (by omega)] at hsent
    have hwaits := reaches_quiet_waits (now := now + 1) (d := now + P.cfgTx.timeoutTicks) (a := a)
      (w := frameBytes P.cfgRx p) (D := D ++ [p]) (j := n + 2 - 1) (n := n) (r := []) hP (fun k hk => hbefore k hk.le)
      (.inr (.inr (Nat.lt_succ_self n)))
    have hlast := reaches_quietTick (j := 1) (D := D ++ [p]) hP
      (txMoves_waits (a := a) (w := frameBytes P.cfgRx p) (hbefore n le_rfl)) (f := []) rfl []
    rw [if_pos rfl, drawn_none] at hlast
    rw [show n + 2 - 1 - n = 1 by omega] at hwaits
    rw [show now + 1 + n + 1 = now + (n + 2) by omega] at hlast
    rw [hn, List.replicate_succ, List.replicate_succ']
    exact hsent.append (hwaits.append hlast)

/-- The session up to the acknowledgment in `RET`, from its first transmission. -/
theorem reaches_acknowledgment (hP : LinkParams P p)
    (hsteps : deliverySteps P.cfgRx.rxPolicy p = 1 ∨ deliverySteps P.cfgRx.rxPolicy p ≤ P.cfgTx.timeoutTicks)
    {losses : List Bool} (hlosses : losses.length < P.cfgTx.maxAttempts) {ticks : List Issue}
    (hticks : ticks =
      losses.flatMap (lossTicks P p) ++ List.replicate (deliverySteps P.cfgRx.rxPolicy p) plainTick) :
    ∃ d, Reaches ticks (Tracked P p now (TxUnit.Sending 1 (frameBytes P.cfgRx p)) 0 [] D)
      (Tracked P p (now + ticks.length) (TxUnit.Waiting (losses.length + 1) d (frameBytes P.cfgRx p)) 0 [P.cfgRx.ackByte]
        (D ++ List.replicate ((losses.filter id).length + 1) p)) := by
  have hspan : deliverySteps P.cfgRx.rxPolicy p ≤ timeoutSpan P := by
    rw [timeoutSpan]
    omega
  have hlost := reaches_losses (now := now) (D := D) (a := 1) hP hspan losses (by omega)
  have hdelivery := reaches_delivery (now := now + (losses.flatMap (lossTicks P p)).length) (a := 1 + losses.length)
    (D := D ++ List.replicate (losses.filter id).length p) hP hsteps
  rw [hticks, List.length_append, List.length_replicate, ← Nat.add_assoc, Nat.add_comm losses.length,
    List.replicate_succ', ← List.append_assoc]
  exact ⟨_, hlost.append hdelivery⟩

end

/-! ## The obligation -/

/-- An accepted request captures the encoded frame (R128). -/
theorem requestSend_wire {s : State} {p : List Byte} (hs : s.Inv) (hidle : s.tx.tState = .idle)
    (hle : p.length ≤ s.params.cfgTx.maxLen) : (requestSend p s).tx.wire = frameBytes s.params.cfgTx p := by
  obtain ⟨hwf, -, -, hframe, -⟩ := hs
  have hlen := lengthByte_toNat (hle.trans (cfgTx_maxLen_le hwf))
  have hbytes := frameBytes_length s.params.cfgTx p
  rw [requestSend_of_le hidle hle, TxUnit.wire, hlen, ← hbytes]
  exact take_writePrefix (by omega)

/-- The session right after an acceptable request, with both channels empty and the decoder in AWAIT_START. -/
theorem tracked_of_request {s : State} {p : List Byte} (hs : s.Inv) (hidle : s.tx.tState = .idle)
    (hle : p.length ≤ s.params.cfgTx.maxLen) (hframe : frameBytes s.params.cfgTx p = frameBytes s.params.cfgRx p)
    (hfwd : s.env.fwd = []) (hret : s.env.ret = []) (hwait : s.rx.dec.dState = .awaitStart)
    (hlast : s.tx.tLastNow ≤ s.env.now) :
    Tracked s.params p s.env.now (TxUnit.Sending 1 (frameBytes s.params.cfgRx p)) 0 [] s.env.delivered
      (requestSend p s) := by
  have ⟨_, _, _, _, _, hattempts, _⟩ := hs
  have hwire := (requestSend_wire hs hidle hle).trans hframe
  refine ⟨?_, requestSend_inv hs p, ⟨?_, ?_, hwire⟩, ?_⟩ <;> rw [requestSend_of_le hidle hle]
  · exact ⟨rfl, rfl, hlast⟩
  · simp only [hattempts hidle]
  · exact ⟨hret, ⟨hfwd, hwait⟩, List.append_nil _⟩

theorem eq_tickIssue_of_mem_lossTicks {P : Params} {p : List Byte} {ackLost : Bool} {i : Issue}
    (h : i ∈ lossTicks P p ackLost) : ∃ f r, i = tickIssue none f r := by
  cases ackLost with
  | true => exact ⟨_, _, List.eq_of_mem_replicate h⟩
  | false =>
    obtain rfl | h := List.mem_cons.mp h
    · exact ⟨_, _, rfl⟩
    · exact ⟨_, _, List.eq_of_mem_replicate h⟩

/-- A list of ticks whose first one carries a request. -/
theorem modifyHead_request {ticks : List Issue} (p : List Byte) (hne : ticks ≠ [])
    (hticks : ∀ i ∈ ticks, ∃ f r, i = tickIssue none f r) :
    ∃ f r rest,
      ticks.modifyHead (fun i => { i with ports := { i.ports with req := some p } }) = tickIssue (some p) f r :: rest ∧
      (tickIssue (some p) f r :: rest).map Issue.noRequest = ticks := by
  obtain ⟨i, rest, rfl⟩ := List.exists_cons_of_ne_nil hne
  obtain ⟨f, r, rfl⟩ := hticks i List.mem_cons_self
  have hrest : rest.map Issue.noRequest = rest := by
    refine (List.map_congr_left (g := id) fun i hi => ?_).trans (List.map_id rest)
    obtain ⟨f, r, rfl⟩ := hticks i (List.mem_cons_of_mem _ hi)
    rfl
  exact ⟨f, r, rest, rfl, congrArg _ hrest⟩

/-- Settles O49: each lost transmission is retried at its deadline, the delivered one brings its acknowledgment into `RET`
before its deadline, and the next tick reads it. -/
theorem sessionSucceedsAfterLosses : Obligations.SessionSucceedsAfterLosses := by
  unfold Obligations.SessionSucceedsAfterLosses
  intro s p losses wait ticks hs hidle hfwd hret hwait hlast hdepth hbits hpol hnack hstart hend hack hleTx hleRx hlosses
    hticks hbus
  have ⟨hwf, _⟩ := hs
  have hP : LinkParams s.params p := ⟨⟨hwf, hdepth, hbits, hnack⟩, hack, hleRx⟩
  obtain ⟨hw, hsteps⟩ : deliverySteps s.params.cfgRx.rxPolicy p = wait ∧
      (wait = 1 ∨ wait ≤ s.params.cfgTx.timeoutTicks) := by
    obtain ⟨hall, rfl⟩ | ⟨hone, rfl, hle⟩ := hpol
    · rw [hall]
      exact ⟨rfl, .inl rfl⟩
    · rw [hone]
      exact ⟨rfl, .inr hle⟩
  subst hw
  obtain ⟨before, hbefore⟩ : ∃ before, before = losses.flatMap (lossTicks s.params p) ++
      List.replicate (deliverySteps s.params.cfgRx.rxPolicy p) plainTick := ⟨_, rfl⟩
  have hsplit : ticks = before ++ [plainTick] := by
    rw [hticks, hbefore, List.append_assoc, ← List.replicate_succ']
    rfl
  have hissues (i : Issue) (hi : i ∈ ticks) : ∃ f r, i = tickIssue none f r := by
    rw [hticks] at hi
    obtain hi | hi := List.mem_append.mp hi
    · obtain ⟨ackLost, -, hi⟩ := List.mem_flatMap.mp hi
      exact eq_tickIssue_of_mem_lossTicks hi
    · exact ⟨_, _, List.eq_of_mem_replicate hi⟩
  obtain ⟨f, r, rest, hhead, hnoRequest⟩ := modifyHead_request p (by rw [hsplit]; simp) hissues
  rw [hhead] at hbus
  have hbus' : (requestSend p s).bus.map Issue.noRequest = before ++ [plainTick] := by
    obtain ⟨-, -, -, -, -, hkept, -⟩ := requestSend_frame p s
    rw [hkept, hbus, hnoRequest, hsplit]
  have hrun {n : Nat} (hn : 0 < n) : Sys2Proof.core.run n s = runSteps n (requestSend p s) :=
    core_run_of_requestTick hwf hbus rfl rfl hidle hleTx hn
  have hframe : frameBytes s.params.cfgTx p = frameBytes s.params.cfgRx p := by rw [frameBytes, frameBytes, hstart, hend]
  have hsent := tracked_of_request hs hidle hleTx hframe hfwd hret hwait hlast
  obtain ⟨d, hwaiting⟩ := reaches_acknowledgment (now := s.env.now) (D := s.env.delivered) hP hsteps hlosses hbefore
  have hsucceeded := hwaiting.append (reaches_success hP [])
  refine ⟨?waiting, ?succeeded⟩
  case waiting =>
    have hpos : 0 < before.length := by
      have := deliverySteps_pos s.params.cfgRx.rxPolicy p
      rw [hbefore, List.length_append, List.length_replicate]
      omega
    obtain ⟨t, ht, -, -, ⟨hst, -⟩, -⟩ := hwaiting.run hsent hbus'
    refine ⟨t, ?_, hst⟩
    rw [hsplit, List.length_append, List.length_singleton, Nat.add_sub_cancel, hrun hpos]
    exact ht
  case succeeded =>
    obtain ⟨t, ht, ⟨-, hnow, -⟩, -, ⟨hst, ha⟩, -, -, hdelivered⟩ :=
      hsucceeded.run hsent (hbus'.trans (List.append_nil _).symm)
    rw [hsplit]
    exact ⟨t, (hrun (by simp)).trans ht, hst, ha, by rw [hnow, List.length_append, List.length_singleton, Nat.add_assoc],
      (List.append_nil _).symm.trans hdelivered⟩

end Sys2Proof.Machine
end
